-- ==== Sys2Proof/Word.lean ====
section
/-! DEFINITION. The widths of the words the spec names (00_scope.md R7 to R9, 30_encoding.md R60, R66, R67). -/

namespace Sys2Proof

/-- A byte of the buffer memory, and the running CRC (R9). -/
abbrev Byte := BitVec 8

/-- An operand, control or status register and an interval: `XLEN` = 16 bits (R6, R20). -/
abbrev Word := BitVec 16

/-- A word of the command port (R60). -/
abbrev CommandWord := BitVec 32

/-- A word of the edge port (R67). -/
abbrev EventWord := BitVec 17

/-- A word of the response port (R66). -/
abbrev ResponseWord := BitVec 18

end Sys2Proof
end

