-- ==== Sys2Proof/Config.lean ====
section
/-! DEFINITION. `CFG`, what an instance fixes (00_scope.md R6), and the free values the spec leaves open. -/

namespace Sys2Proof

/-- The timings of one half-period coding, in time units: `HP[s]` and the least intervals classed as two, three,
four half-periods and as frame start, `T2[s]`, `T3[s]`, `T4[s]`, `TS[s]` (R6). -/
structure HalfPeriodTiming where
  hp : Nat
  t2 : Nat
  t3 : Nat
  t4 : Nat
  ts : Nat
deriving DecidableEq, Repr

/-- The timings of the reverse link, in time units: `T_LOW`, `W0`, `W1` and the least intervals classed as zero,
as one and as frame start, `TB[RL]`, `TA[RL]`, `TS[RL]` (R6). -/
structure ReverseTiming where
  tLow : Nat
  w0 : Nat
  w1 : Nat
  tb : Nat
  ta : Nat
  ts : Nat
deriving DecidableEq, Repr

/-- The configuration `CFG` (R6). `XLEN` is fixed at 16 by the spec and stands in the types (`Word`). -/
structure Config where
  memBytes : Nat
  rxCapBits : Nat
  noiseMax : Nat
  ac2k : HalfPeriodTiming
  ac4k : HalfPeriodTiming
  mc4k : HalfPeriodTiming
  mc8k : HalfPeriodTiming
  rl : ReverseTiming
deriving DecidableEq, Repr

/-- R6's constraint on the timings of a half-period coding. -/
abbrev HalfPeriodTiming.Valid (t : HalfPeriodTiming) : Prop :=
  2 ≤ t.hp ∧ t.hp < t.t2 ∧ t.t2 ≤ 2 * t.hp ∧ 2 * t.hp < t.t3 ∧ t.t3 ≤ 3 * t.hp ∧ 3 * t.hp < t.t4 ∧
    t.t4 ≤ 4 * t.hp ∧ 4 * t.hp < t.ts ∧ 36 < t.ts

/-- R6's constraints on the reverse link: `T_LOW` at least 8, `T_LOW < TB ≤ W0 < TA ≤ W1 < TS`, the gap above 36. -/
abbrev ReverseTiming.Valid (t : ReverseTiming) : Prop :=
  8 ≤ t.tLow ∧ t.tLow < t.tb ∧ t.tb ≤ t.w0 ∧ t.w0 < t.ta ∧ t.ta ≤ t.w1 ∧ t.w1 < t.ts ∧ 36 < t.ts

/-- The constraint column of R6's table. -/
abbrev Config.Valid (c : Config) : Prop :=
  (1 ≤ c.memBytes ∧ c.memBytes ≤ 8191) ∧
  (c.rxCapBits % 8 = 0 ∧ 8 ≤ c.rxCapBits ∧ c.rxCapBits ≤ 8 * c.memBytes) ∧
  c.noiseMax ≤ 65534 ∧
  c.ac2k.Valid ∧ c.ac4k.Valid ∧ c.mc4k.Valid ∧ c.mc8k.Valid ∧ c.rl.Valid

/-- Every `TS` fits the 16-bit interval of an `EDGE` word. R134 and decision D38 rest on it; R6's table does not
list it (DEDUCED, log 24), so it is no part of `Config.Valid`. -/
abbrev Config.StartFits (c : Config) : Prop :=
  c.ac2k.ts ≤ 65535 ∧ c.ac4k.ts ≤ 65535 ∧ c.mc4k.ts ≤ 65535 ∧ c.mc8k.ts ≤ 65535 ∧ c.rl.ts ≤ 65535

/-- R6's reference timings for a half-period of 16 units. -/
def HalfPeriodTiming.reference16 : HalfPeriodTiming := { hp := 16, t2 := 24, t3 := 40, t4 := 56, ts := 80 }

/-- R6's reference timings for a half-period of 8 units. -/
def HalfPeriodTiming.reference8 : HalfPeriodTiming := { hp := 8, t2 := 12, t3 := 20, t4 := 28, ts := 40 }

/-- The reference configuration, R6's last column, which every test vector of 95_test_vectors.md uses. -/
def Config.reference : Config :=
  { memBytes := 256
    rxCapBits := 256
    noiseMax := 8
    ac2k := HalfPeriodTiming.reference16
    ac4k := HalfPeriodTiming.reference8
    mc4k := HalfPeriodTiming.reference16
    mc8k := HalfPeriodTiming.reference8
    rl := { tLow := 8, w0 := 20, w1 := 28, tb := 14, ta := 24, ts := 37 } }

/-- FREE VALUE (U1, R180; log 2): what a byte of M that nothing has written since power-on holds, for each power-on
and each address: "any value, not necessarily the same in two bytes or two power-ons". It has no body. -/
opaque Config.powerOnByte (powerOn address : Nat) : Byte

/-- FREE VALUE (U12, R6; log 12): `RX_TIMEOUT`, the environment's upper time bound. No rule of the block reads it. -/
opaque Config.rxTimeout : Nat

end Sys2Proof
end

