-- ==== Sys2Proof/Syntax.lean ====
section
/-! DEFINITION. The instructions: one constructor per row of spec/opcode_table.json (30_encoding.md R69), the coding
schemes (R65) and the words of the two input ports (R60, R67). -/

namespace Sys2Proof

/-- The five coding schemes with an assigned code (R65). -/
inductive Scheme where
  | ac2k
  | ac4k
  | mc4k
  | mc8k
  | rl
deriving DecidableEq, Repr

/-- The thirteen commands of the command port and the two events of the edge port (R69). A field holds any value
its bits can take: a value that is well formed but not legal raises the fault its operation's rule names (R70). -/
inductive Instr where
  | nop
  | setr (reg : BitVec 8) (imm16 : Word)
  | getr (reg : BitVec 8)
  | mwr (addr16 : Word) (data8 : Byte)
  | mrd (addr16 : Word)
  | reset
  | crcInit
  | crcByte (n : BitVec 4) (data8 : Byte)
  | crcBuf
  | bfbAppend
  | bfbAcx
  | encFrame (scheme sof : BitVec 3)
  | decArm (scheme : BitVec 3)
  | edge (interval : Word)
  | timeout
deriving DecidableEq, Repr

/-- The two events arrive on the edge port, every other row on the command port (R69). -/
def Instr.isEvent : Instr → Bool
  | .nop => false
  | .setr _ _ => false
  | .getr _ => false
  | .mwr _ _ => false
  | .mrd _ => false
  | .reset => false
  | .crcInit => false
  | .crcByte _ _ => false
  | .crcBuf => false
  | .bfbAppend => false
  | .bfbAcx => false
  | .encFrame _ _ => false
  | .decArm _ => false
  | .edge _ => true
  | .timeout => true

/-- A word as it arrives: on the command port (R60) or on the edge port (R67). -/
inductive PortWord where
  | command (w : CommandWord)
  | event (w : EventWord)
deriving DecidableEq, Repr

/-- The word came on the edge port. -/
def PortWord.isEvent : PortWord → Bool
  | .command _ => false
  | .event _ => true

end Sys2Proof
end

