-- ==== Sys2Proof/Machine/State.lean ====
section
/-! DEFINITION. The architectural state (10_state.md), its value after power-on reset (70_reset_and_hazards.md R180),
and the reasons the model can stop. -/

namespace Sys2Proof.Machine

/-- A drive level of the line: LOW = 0, HIGH = 1 (R9, R22). -/
inductive Level where
  | low
  | high
deriving DecidableEq, Repr

/-- `MODE` (R22): which port is open. -/
inductive Mode where
  | idle
  | rx
deriving DecidableEq, Repr

/-- `RXEND` (R22, R24): how the last receive cycle ended; `notEnded` is code 0, none since reset or just armed. -/
inductive RxEnd where
  | notEnded
  | timeout
  | noise
  | full
deriving DecidableEq, Repr

/-- The fault causes of R160, recorded in `ERR`. -/
inductive FaultCode where
  | illegal
  | badReg
  | addr
  | operand
  | overlap
deriving DecidableEq, Repr

/-- The status of a response (R66). -/
inductive Status where
  | ok
  | faulted
  | refused
deriving DecidableEq, Repr

/-- One response: status and 16-bit value (R66). -/
structure Response where
  st : Status
  value : Word
deriving DecidableEq, Repr

/-- One entry of the line trace (R111): a segment, a level held for so many units, or the end mark of a frame, the
`drive_low()` with no duration. -/
inductive LineEvent where
  | segment (level : Level) (units : Nat)
  | rest
deriving DecidableEq, Repr

/-- The buffer memory `M` (R32, R40): the bytes written since power-on, as (address, byte) pairs. -/
abbrev Memory := List Host.Cell

/-- The one canonical form: addresses strictly rising. An unlisted address has no known value (log 2), so no entry
can equal what an unlisted address reads as, and a byte once written stays listed. -/
def Memory.wf : Memory → Bool
  | [] => true
  | [_] => true
  | x :: y :: rest => decide (x.1 < y.1) && Memory.wf (y :: rest)

/-- The state of the block. The registers and flags are those of R20 to R29, each stored once (`STATUS` and `DECST`
are views); `inputs`, `responses` and `lineTrace` are the streams of R34 (log 3, log 6); `cfg` is the parameter `CFG`
(log 1) and `powerOn` selects the unspecified power-on contents of `M` (log 2): no step changes these two. -/
structure State where
  /-- `CFG` (R6, R31) -/
  cfg : Config
  /-- which power-on this run began with (R180) -/
  powerOn : Nat
  /-- `x[0]`, destination or receive buffer byte address (R20) -/
  dstb : Word
  /-- `x[1]`, destination bit index (R20) -/
  dsto : Word
  /-- `x[2]`, source byte address (R20) -/
  srcb : Word
  /-- `x[3]`, source bit index (R20) -/
  srco : Word
  /-- `x[4]`, a bit count (R20) -/
  len : Word
  /-- the running CRC (R23) -/
  crc : Byte
  /-- `FAULT` (R22) -/
  fault : Bool
  /-- `ERR` (R25); `none` is code 0 -/
  err : Option FaultCode
  /-- `LINE` (R22) -/
  line : Level
  /-- `RXEND` (R22) -/
  rxend : RxEnd
  /-- `LAST` (R22) -/
  last : Bool
  /-- `SKIP` (R22) -/
  skip : Bool
  /-- `MODE` (R22) -/
  mode : Mode
  /-- `RXLEN` (R26) -/
  rxlen : Word
  /-- `NOISE` (R27) -/
  noise : Word
  /-- `RXSCH` (R28) -/
  rxsch : Scheme
  /-- `RXBASE` (R29) -/
  rxbase : Word
  /-- `M` (R32) -/
  mem : Memory
  /-- words of the two input ports that the block has not taken, in arrival order (R34) -/
  inputs : List PortWord
  /-- the response stream, oldest first (R34, R66) -/
  responses : List Response
  /-- the line trace, oldest first (R34, R111) -/
  lineTrace : List LineEvent
deriving DecidableEq, Repr

/-- Why the model stops with a fault. The faults of the block itself (`FaultCode`) are next states (R169). -/
inductive Fault where
  /-- Raised by `EDGE` only, when `PutRaw` would store outside `M`, which R9 forbids. `DEC.ARM` checks the whole
  receive buffer (R132), so no run from reset reaches it; R163 and R134 say it cannot happen. SAFE: the model stops
  where the spec describes no behaviour (log 10). -/
  | receiveStoreOutside (address : Nat)
deriving DecidableEq, Repr

/-- Why the model refuses. -/
inductive Refusal where
  /-- Raised by an arm of `exec` whose instruction has no meaning yet. No arm does. SAFE. -/
  | notModelled (mnemonic : String)
deriving DecidableEq, Repr

/-- The machine after power-on reset (R180). `M` lists nothing: every byte is unspecified (log 2). Nothing has
arrived yet (log 5). `cfg` holds the reference values of R6 (log 1). -/
def State.reset : State :=
  { cfg := Config.reference
    powerOn := 0
    dstb := 0x0000#16
    dsto := 0x0000#16
    srcb := 0x0000#16
    srco := 0x0000#16
    len := 0x0000#16
    crc := 0xFF#8
    fault := false
    err := none
    line := .low
    rxend := .notEnded
    last := true
    skip := true
    mode := .idle
    rxlen := 0x0000#16
    noise := 0x0000#16
    rxsch := .ac2k
    rxbase := 0x0000#16
    mem := []
    inputs := []
    responses := []
    lineTrace := [] }

end Sys2Proof.Machine
end

