-- ==== Sys2Proof/Machine/Flags.lean ====
section
/-! DEFINITION. The codes of the flags and the layouts of the registers and response words that show them
(10_state.md R22 to R29, 30_encoding.md R65, R66, 60_exceptions.md R160). Each word is written most significant
field first. -/

namespace Sys2Proof.Machine

/-- A flag as a field of one bit. -/
def flagBit (b : Bool) : BitVec 1 := if b then 1#1 else 0#1

/-- LOW = 0, HIGH = 1 (R9). -/
def levelCode : Level → BitVec 1
  | .low => 0#1
  | .high => 1#1

/-- The codes of `RXEND` (R24). -/
def rxendCode : RxEnd → BitVec 2
  | .notEnded => 0#2
  | .timeout => 1#2
  | .noise => 2#2
  | .full => 3#2

/-- The fault codes (R160). -/
def faultNumber : FaultCode → BitVec 3
  | .illegal => 1#3
  | .badReg => 2#3
  | .addr => 3#3
  | .operand => 4#3
  | .overlap => 5#3

/-- `ERR[2:0]`: 0 when no fault since reset (R25). -/
def errCode : Option FaultCode → BitVec 3
  | none => 0#3
  | some c => faultNumber c

/-- The scheme codes (R65). -/
def schemeCode : Scheme → BitVec 3
  | .ac2k => 0#3
  | .ac4k => 1#3
  | .mc4k => 2#3
  | .mc8k => 3#3
  | .rl => 4#3

/-- The status codes of a response (R66). -/
def statusCode : Status → BitVec 2
  | .ok => 0#2
  | .faulted => 1#2
  | .refused => 2#2

/-- The 18-bit response word: `st` in [17:16], the value in [15:0] (R66). -/
def responseWord (r : Response) : ResponseWord := statusCode r.st ++ r.value

/-- `CRC` on the register port: the running CRC in [7:0], 0 above (R23). -/
def crcWord (s : State) : Word := 0#8 ++ s.crc

/-- `STATUS`: `FAULT` in [0], `LINE` in [1], `RXEND` in [3:2], 0 above (R24). -/
def statusWord (s : State) : Word := 0#12 ++ rxendCode s.rxend ++ levelCode s.line ++ flagBit s.fault

/-- `ERR`: the code in [2:0], 0 above (R25). -/
def errWord (s : State) : Word := 0#13 ++ errCode s.err

/-- `DECST`: `LAST` in [0], `SKIP` in [1], `RXSCH` in [4:2], 0 above (R28). -/
def decstWord (s : State) : Word := 0#11 ++ schemeCode s.rxsch ++ flagBit s.skip ++ flagBit s.last

end Sys2Proof.Machine
end

