-- ==== Sys2Proof/WellFormed.lean ====
section
/-! DEFINITION. Which instructions have legal operand fields: the conditions of 60_exceptions.md R168 steps 3 and 4,
which the word alone decides. An instruction that is not well formed in this sense still has its meaning: it raises
`BADREG` or `OPERAND` (R162, R164). -/

namespace Sys2Proof

/-- `SETR` may write the operand registers 0x00 to 0x04 and `CRC`, 0x10 (R162). -/
def writableNumber (reg : BitVec 8) : Bool := decide (reg.toNat ≤ 4) || decide (reg.toNat = 16)

/-- `GETR` may read 0x00 to 0x04 and 0x10 to 0x16 (R162). -/
def readableNumber (reg : BitVec 8) : Bool :=
  decide (reg.toNat ≤ 4) || (decide (16 ≤ reg.toNat) && decide (reg.toNat ≤ 22))

/-- `CRC.BYTE` takes 1 to 8 steps (R164). -/
def stepCountLegal (n : BitVec 4) : Bool := decide (1 ≤ n.toNat) && decide (n.toNat ≤ 8)

/-- Scheme codes 0 to 4 are assigned (R65). -/
def schemeAssigned (scheme : BitVec 3) : Bool := decide (scheme.toNat ≤ 4)

/-- `sof` is 1, 3 or 6 with schemes 0 to 3 and 0 with `RL` (R164). -/
def sofLegal (scheme sof : BitVec 3) : Bool :=
  if scheme.toNat = 4 then decide (sof.toNat = 0)
  else decide (sof.toNat = 1) || decide (sof.toNat = 3) || decide (sof.toNat = 6)

/-- The operand fields of the instruction are legal (R168 steps 3 and 4). -/
def Instr.wellFormed : Instr → Bool
  | .nop => true
  | .setr reg _ => writableNumber reg
  | .getr reg => readableNumber reg
  | .mwr _ _ => true
  | .mrd _ => true
  | .reset => true
  | .crcInit => true
  | .crcByte n _ => stepCountLegal n
  | .crcBuf => true
  | .bfbAppend => true
  | .bfbAcx => true
  | .encFrame scheme sof => schemeAssigned scheme && sofLegal scheme sof
  | .decArm scheme => schemeAssigned scheme
  | .edge _ => true
  | .timeout => true

end Sys2Proof
end

