-- ==== Sys2Proof/Decode.lean ====
section
/-! DEFINITION. Decoding of the words of the two input ports (30_encoding.md R60 to R70) and, after it, the encoder. -/

namespace Sys2Proof

/-- Why a command word stands for no command (R70, R161). Both raise `ILLEGAL`; the first is step 1 of R168, the
second step 2. -/
inductive Illegal where
  /-- the opcode is not one of the thirteen of R69 -/
  | unknownOpcode
  /-- a bit the format requires to be 0 is 1 -/
  | reservedBit
deriving DecidableEq, Repr

/-- The command, provided the must-be-zero bits of its format are 0 (R168 step 2). -/
def whenZero (zeroBits : Bool) (i : Instr) : Except Illegal Instr :=
  if zeroBits then .ok i else .error .reservedBit

/-- The opcode map of R69 over the formats Z, R, W, C, S (R61 to R65): `op` selects the row, then the must-be-zero
bits are checked, then the fields are taken as they stand (R68). -/
def decodeCommand (w : CommandWord) : Except Illegal Instr :=
  let op := w.extractLsb' 24 8
  if op = 0x00#8 then whenZero (w.extractLsb' 0 24 == 0#24) .nop
  else if op = 0x01#8 then .ok (.setr (w.extractLsb' 16 8) (w.extractLsb' 0 16))
  else if op = 0x02#8 then whenZero (w.extractLsb' 0 16 == 0#16) (.getr (w.extractLsb' 16 8))
  else if op = 0x03#8 then .ok (.mwr (w.extractLsb' 8 16) (w.extractLsb' 0 8))
  else if op = 0x04#8 then whenZero (w.extractLsb' 0 8 == 0#8) (.mrd (w.extractLsb' 8 16))
  else if op = 0x0F#8 then whenZero (w.extractLsb' 0 24 == 0#24) .reset
  else if op = 0x10#8 then whenZero (w.extractLsb' 0 24 == 0#24) .crcInit
  else if op = 0x11#8 then
    whenZero (w.extractLsb' 12 12 == 0#12) (.crcByte (w.extractLsb' 8 4) (w.extractLsb' 0 8))
  else if op = 0x12#8 then whenZero (w.extractLsb' 0 24 == 0#24) .crcBuf
  else if op = 0x20#8 then whenZero (w.extractLsb' 0 24 == 0#24) .bfbAppend
  else if op = 0x21#8 then whenZero (w.extractLsb' 0 24 == 0#24) .bfbAcx
  else if op = 0x30#8 then
    whenZero (w.extractLsb' 0 18 == 0#18) (.encFrame (w.extractLsb' 21 3) (w.extractLsb' 18 3))
  else if op = 0x40#8 then whenZero (w.extractLsb' 0 21 == 0#21) (.decArm (w.extractLsb' 21 3))
  else .error .unknownOpcode

/-- An edge-port word: bit 16 is the kind, bits [15:0] the interval, ignored in a `TIMEOUT` (R67). -/
def decodeEvent (w : EventWord) : Instr :=
  if w.extractLsb' 16 1 = 0#1 then .edge (w.extractLsb' 0 16) else .timeout

/-- What a word of either port stands for. Total: every word is an instruction or is rejected by name. -/
def decode : PortWord → Except Illegal Instr
  | .command w => decodeCommand w
  | .event w => .ok (decodeEvent w)

/-- Format Z (R61). -/
def formatZ (op : BitVec 8) : CommandWord := op ++ 0#24

/-- Format R (R62). -/
def formatR (op reg : BitVec 8) (imm16 : Word) : CommandWord := op ++ reg ++ imm16

/-- Format W (R63). -/
def formatW (op : BitVec 8) (addr16 : Word) (data8 : Byte) : CommandWord := op ++ addr16 ++ data8

/-- Format C (R64). -/
def formatC (op : BitVec 8) (n : BitVec 4) (data8 : Byte) : CommandWord := op ++ 0#12 ++ n ++ data8

/-- Format S (R65). -/
def formatS (op : BitVec 8) (scheme sof : BitVec 3) : CommandWord := op ++ scheme ++ sof ++ 0#18

/-- The word of an instruction, from the formats of R61 to R65 and R67. A `TIMEOUT` is written with its ignored bits
at 0. -/
def encode : Instr → PortWord
  | .nop => .command (formatZ 0x00#8)
  | .setr reg imm16 => .command (formatR 0x01#8 reg imm16)
  | .getr reg => .command (formatR 0x02#8 reg 0#16)
  | .mwr addr16 data8 => .command (formatW 0x03#8 addr16 data8)
  | .mrd addr16 => .command (formatW 0x04#8 addr16 0#8)
  | .reset => .command (formatZ 0x0F#8)
  | .crcInit => .command (formatZ 0x10#8)
  | .crcByte n data8 => .command (formatC 0x11#8 n data8)
  | .crcBuf => .command (formatZ 0x12#8)
  | .bfbAppend => .command (formatZ 0x20#8)
  | .bfbAcx => .command (formatZ 0x21#8)
  | .encFrame scheme sof => .command (formatS 0x30#8 scheme sof)
  | .decArm scheme => .command (formatS 0x40#8 scheme 0#3)
  | .edge interval => .event (0#1 ++ interval)
  | .timeout => .event (1#1 ++ 0#16)

/-- The port word that an opcode-table row's bits stand for (log 18): rows of up to 24 bits are the 17-bit events,
the others 32-bit commands; a number that does not fit its port is no word. -/
def tableWord (nbits w : Nat) : Option PortWord :=
  if nbits ≤ 24 then (if w < 2 ^ 17 then some (.event (BitVec.ofNat 17 w)) else none)
  else if w < 2 ^ 32 then some (.command (BitVec.ofNat 32 w)) else none

/-- The instruction the decoder reads from an opcode-table row's bits, bit 0 the least significant. -/
def decodeTableWord (nbits w : Nat) : Option Instr :=
  match tableWord nbits w with
  | none => none
  | some p =>
    match decode p with
    | .ok i => some i
    | .error _ => none

end Sys2Proof
end

