-- ==== Sys2Proof/Machine/Ops.lean ====
section
/-! DEFINITION. The shared operations: reading and writing `M` (00_scope.md R9, 20_memory.md), responding
(30_encoding.md R66), entering the fault state and leaving it (60_exceptions.md R169 to R171), the common steps of a
command (R168, R170), and taking the next word from a port (44_decoder.md R131). -/

namespace Sys2Proof.Machine

/-! ### Memory -/

/-- The byte written last at the address, `none` where nothing has been written since power-on. -/
def memLookup : Memory → Nat → Option Byte
  | [], _ => none
  | (b, v) :: rest, a => if b = a then some v else memLookup rest a

/-- The memory with the byte at the address replaced; keeps the canonical form. -/
def memInsert (a : Nat) (v : Byte) : Memory → Memory
  | [] => [(a, v)]
  | (b, w) :: rest =>
    if a < b then (a, v) :: (b, w) :: rest
    else if a = b then (a, v) :: rest
    else (b, w) :: memInsert a v rest

/-- What an unlisted address reads as: the unspecified power-on content, a free value (R180, U1; log 2). -/
def unlistedByte (powerOn a : Nat) : Byte := Config.powerOnByte powerOn a

/-- `MemRead(a, 1)` of R9. Its callers have checked the address (R163). -/
def memRead (s : State) (a : Nat) : Byte := (memLookup s.mem a).getD (unlistedByte s.powerOn a)

/-- `MemWrite(a, 1, v)` of R9. Its callers have checked the address (R163), `PutRaw` by itself (R136). -/
def memWrite (a : Nat) (v : Byte) (s : State) : State := { s with mem := memInsert a v s.mem }

/-- `GetBit(b, i)` of R9: bit index `i` of the buffer at `b` is bit `7 - i mod 8` of byte `b + i div 8` (R7). -/
def getBit (s : State) (b i : Nat) : Bool := (memRead s (b + i / 8)).getLsbD (7 - i % 8)

/-- The `n` bits from bit index `i` of the buffer at `b`, first bit first. -/
def getBits (s : State) (b i n : Nat) : List Bool := (List.range n).map fun k => getBit s b (i + k)

/-- A bit moved to the place of bit index `i` in its byte: `b << (7 - i mod 8)` (R100, R136). -/
def bitPlace (b : Bool) (i : Nat) : Byte := if b then 1#8 <<< (7 - i % 8) else 0#8

/-! ### Responses -/

/-- `Respond(st, v)` (R9, R66). -/
def respond (st : Status) (v : Word) (s : State) : State :=
  { s with responses := s.responses ++ [{ st := st, value := v }] }

/-! ### The fault state -/

/-- `raise Fault(code)`: TAKING AN EXCEPTION on this hardware. In a block with `FAULT = 0` the entry of R169: the
flag, the code and a FAULTED response, nothing else. In a faulted block the failing command is refused and `ERR`
keeps the first code (R170). -/
def raiseFault (code : FaultCode) (s : State) : State :=
  if s.fault then respond .refused 0#16 s
  else respond .faulted 0#16 { s with fault := true, err := some code }

/-- Every register and flag at its reset value, `M` and the histories kept (R85, R180): the only way OUT of the
fault state besides power-on (R171). -/
def resetRegisters (s : State) : State :=
  { s with
    dstb := State.reset.dstb
    dsto := State.reset.dsto
    srcb := State.reset.srcb
    srco := State.reset.srco
    len := State.reset.len
    crc := State.reset.crc
    fault := State.reset.fault
    err := State.reset.err
    line := State.reset.line
    rxend := State.reset.rxend
    last := State.reset.last
    skip := State.reset.skip
    mode := State.reset.mode
    rxlen := State.reset.rxlen
    noise := State.reset.noise
    rxsch := State.reset.rxsch
    rxbase := State.reset.rxbase }

/-! ### The common steps of a command -/

/-- R168 from step 3 on, for every command. `check` is the first failing step of steps 3, 4, 6, 7, if any; `served`
says that a faulted block still performs the command (R170); `effect` is what the command does and answers.
While `MODE = RX` the command is held: nothing happens (R131; log 11). -/
def command (served : Bool) (check : Option FaultCode) (effect : State → State) (s : State) :
    Host.Outcome State Fault Refusal :=
  if s.mode = .rx then .next s
  else
    match check with
    | some code => .next (raiseFault code s)
    | none => if s.fault && !served then .next (respond .refused 0#16 s) else .next (effect s)

/-- A command word that stands for no command: `ILLEGAL` in both cases (R161, R168 steps 1 and 2). -/
def rejectWord (reason : Illegal) (s : State) : State :=
  match reason with
  | .unknownOpcode => raiseFault .illegal s
  | .reservedBit => raiseFault .illegal s

/-! ### The input ports -/

/-- The first edge-port word that has arrived, and the words left, in order: command words before it stay held. -/
def takeEvent : List PortWord → Option (PortWord × List PortWord)
  | [] => none
  | .event w :: rest => some (.event w, rest)
  | .command w :: rest =>
    match takeEvent rest with
    | none => none
    | some (e, left) => some (e, .command w :: left)

/-- The word the block takes next (R131). While `MODE = IDLE` it takes whatever arrived first (an event is then
dropped by its meaning); while `MODE = RX` only the edge port is open. `none`: it waits. -/
def nextWord (s : State) : Option (PortWord × State) :=
  match s.mode with
  | .idle =>
    match s.inputs with
    | [] => none
    | w :: rest => some (w, { s with inputs := rest })
  | .rx =>
    match takeEvent s.inputs with
    | none => none
    | some (w, rest) => some (w, { s with inputs := rest })

/-- The state with one word standing first at its port, where `nextWord` takes it. A command is taken in
`MODE = IDLE` only, so the mode is set to IDLE for one; an event is taken in either mode (log 5). -/
def placeWord (p : PortWord) (s : State) : State :=
  match p with
  | .command w => { s with mode := .idle, inputs := .command w :: s.inputs }
  | .event w => { s with inputs := .event w :: s.inputs }

end Sys2Proof.Machine
end

