-- ==== Sys2Proof/Machine/Operands.lean ====
section
/-! DEFINITION. Operands: the register map (10_state.md R30), scheme codes (30_encoding.md R65), bit ranges and byte
spans (20_memory.md R40), and the checks on them (60_exceptions.md R162 to R165, R168). -/

namespace Sys2Proof.Machine

/-- The twelve registers with a number (R30). -/
inductive Reg where
  | dstb
  | dsto
  | srcb
  | srco
  | len
  | crc
  | status
  | err
  | rxlen
  | noise
  | decst
  | rxbase
deriving DecidableEq, Repr

/-- The register map (R30); `none` for the unassigned numbers 0x05 to 0x0F and 0x17 to 0xFF. -/
def regOfNumber (number : BitVec 8) : Option Reg :=
  if number = 0x00#8 then some .dstb
  else if number = 0x01#8 then some .dsto
  else if number = 0x02#8 then some .srcb
  else if number = 0x03#8 then some .srco
  else if number = 0x04#8 then some .len
  else if number = 0x10#8 then some .crc
  else if number = 0x11#8 then some .status
  else if number = 0x12#8 then some .err
  else if number = 0x13#8 then some .rxlen
  else if number = 0x14#8 then some .noise
  else if number = 0x15#8 then some .decst
  else if number = 0x16#8 then some .rxbase
  else none

/-- The access column of R30: only the operand registers and `CRC` may be written. -/
def regWritable : Reg → Bool
  | .dstb => true
  | .dsto => true
  | .srcb => true
  | .srco => true
  | .len => true
  | .crc => true
  | .status => false
  | .err => false
  | .rxlen => false
  | .noise => false
  | .decst => false
  | .rxbase => false

/-- The value a register reads as (R20, R23 to R29). -/
def readReg (s : State) : Reg → Word
  | .dstb => s.dstb
  | .dsto => s.dsto
  | .srcb => s.srcb
  | .srco => s.srco
  | .len => s.len
  | .crc => crcWord s
  | .status => statusWord s
  | .err => errWord s
  | .rxlen => s.rxlen
  | .noise => s.noise
  | .decst => decstWord s
  | .rxbase => s.rxbase

/-- A register write (R81): an operand register takes the value, `CRC` its low 8 bits (R23). The read-only registers
are never written (R162). -/
def writeReg (r : Reg) (v : Word) (s : State) : State :=
  match r with
  | .dstb => { s with dstb := v }
  | .dsto => { s with dsto := v }
  | .srcb => { s with srcb := v }
  | .srco => { s with srco := v }
  | .len => { s with len := v }
  | .crc => { s with crc := v.extractLsb' 0 8 }
  | .status => s
  | .err => s
  | .rxlen => s
  | .noise => s
  | .decst => s
  | .rxbase => s

/-- `SETR`'s check: assigned and writable, else `BADREG` (R81, R162). -/
def checkWrite (number : BitVec 8) : Option FaultCode :=
  match regOfNumber number with
  | none => some .badReg
  | some r => if regWritable r then none else some .badReg

/-- `GETR`'s check: assigned, else `BADREG` (R82, R162). -/
def checkRead (number : BitVec 8) : Option FaultCode :=
  match regOfNumber number with
  | none => some .badReg
  | some _ => none

/-- The scheme of a code; `none` for the unassigned codes 5 to 7 (R65). -/
def schemeOfCode (code : BitVec 3) : Option Scheme :=
  if code = 0#3 then some .ac2k
  else if code = 1#3 then some .ac4k
  else if code = 2#3 then some .mc4k
  else if code = 3#3 then some .mc8k
  else if code = 4#3 then some .rl
  else none

/-- The legal SOF lengths: 1, 3 or 6 for the document's four schemes, 0 for `RL` (R110, R164). -/
def sofAllowed (sch : Scheme) (sof : BitVec 3) : Bool :=
  match sch with
  | .rl => sof == 0#3
  | .ac2k => sof == 1#3 || sof == 3#3 || sof == 6#3
  | .ac4k => sof == 1#3 || sof == 3#3 || sof == 6#3
  | .mc4k => sof == 1#3 || sof == 3#3 || sof == 6#3
  | .mc8k => sof == 1#3 || sof == 3#3 || sof == 6#3

/-- The byte address lies in `M` (R40). -/
def addressInside (s : State) (a : Nat) : Bool := decide (a < s.cfg.memBytes)

/-- The inequality that says a bit range (b, i, n) is valid (R40), over the naturals: nothing wraps (R163). -/
def rangeInside (s : State) (b i n : Nat) : Bool := decide (8 * b + i + n ≤ 8 * s.cfg.memBytes)

/-- The byte spans of two bit ranges have a byte in common (R40, R165). An empty range has an empty span. -/
def spansMeet (b1 i1 n1 b2 i2 n2 : Nat) : Bool :=
  decide (0 < n1) && decide (0 < n2) &&
    decide (b1 + i1 / 8 ≤ b2 + (i2 + n2 - 1) / 8) && decide (b2 + i2 / 8 ≤ b1 + (i1 + n1 - 1) / 8)

/-- The check of `MWR` and `MRD` (R83, R84, R163). -/
def checkAddress (s : State) (addr : Word) : Option FaultCode :=
  if addressInside s addr.toNat then none else some .addr

/-- The check of a non-empty source range; the empty case leaves before it (R163, R168 step 5). -/
def checkSource (s : State) (b i n : Nat) : Option FaultCode :=
  if n = 0 then none else if rangeInside s b i n then none else some .addr

/-- R102: source range (sb, so, n) valid, destination range (db, do, c) valid, byte spans disjoint, in this order. -/
def checkCopy (s : State) (sb so n db off c : Nat) : Option FaultCode :=
  if !rangeInside s sb so n then some .addr
  else if !rangeInside s db off c then some .addr
  else if spansMeet sb so n db off c then some .overlap
  else none

end Sys2Proof.Machine
end

