-- ==== Sys2Proof/Machine/Bfb.lean ====
section
/-! DEFINITION. The bit-frame buffer unit (42_bitframe.md R100 to R104). -/

namespace Sys2Proof.Machine

/-- The mask `keep` of R100: the `off mod 8` high bits of the first destination byte. -/
def keepMask (off : Nat) : Byte := ((0xFF00#16 >>> (off % 8)) &&& 0x00FF#16).setWidth 8

/-- R100: `count` successive bytes from address `a` zeroed. -/
def zeroBytes (a : Nat) : Nat → State → State
  | 0, s => s
  | count + 1, s => zeroBytes (a + 1) count (memWrite a 0x00#8 s)

/-- R100: the bits or-ed in, from bit index `i` of the buffer at `db` on. -/
def orBits (db : Nat) : List Bool → Nat → State → State
  | [], _, s => s
  | bit :: bits, i, s =>
    orBits db bits (i + 1) (memWrite (db + i / 8) (memRead s (db + i / 8) ||| bitPlace bit i) s)

/-- The writing half of R100's `Append`, for a non-empty bit string: the first byte keeps its bits before `off` and
loses the rest, the further bytes of the span are zeroed, then the bits are or-ed in. -/
def writeBits (db off : Nat) (bits : List Bool) (s : State) : State :=
  let first := off / 8
  let last := (off + bits.length - 1) / 8
  let cleared := memWrite (db + first) (memRead s (db + first) &&& keepMask off) s
  orBits db bits off (zeroBytes (db + first + 1) (last - first) cleared)

/-- The bits are written at (`DSTB`, `DSTO`), `DSTO` advances past them, and the block answers OK (R101, R104). -/
def appendAtDestination (bits : List Bool) (s : State) : State :=
  respond .ok 0#16
    { writeBits s.dstb.toNat s.dsto.toNat bits s with dsto := BitVec.ofNat 16 (s.dsto.toNat + bits.length) }

/-- `BFB.APPEND`'s check: the empty case leaves first (R101, R168 step 5), then R102. -/
def checkAppend (s : State) : Option FaultCode :=
  if s.len.toNat = 0 then none
  else checkCopy s s.srcb.toNat s.srco.toNat s.len.toNat s.dstb.toNat s.dsto.toNat s.len.toNat

/-- `BFB.APPEND` (R101). -/
def execBfbAppend (s : State) : Host.Outcome State Fault Refusal :=
  command false (checkAppend s)
    (fun t =>
      if t.len.toNat = 0 then respond .ok 0#16 t
      else appendAtDestination (getBits t t.srcb.toNat t.srco.toNat t.len.toNat) t) s

/-- R104's `k`: how many raw bits are taken of the `n` captured, from index `skip` on. -/
def acxTaken (skip n : Nat) : Nat := (n - skip + 1) / 2

/-- R104's `fix`: the count parity appends a trailing zero bit. -/
def acxFix (skip n : Nat) : Nat := if (n - skip) % 2 = 0 then 1 else 0

/-- R104's output bits `t`: raw bits `skip`, `skip + 2`, ... below `n`, and the trailing zero. -/
def acxBits (s : State) (sb skip n : Nat) : List Bool :=
  ((List.range (acxTaken skip n)).map fun i => getBit s sb (skip + 2 * i)) ++
    List.replicate (acxFix skip n) false

/-- `BFB.ACX`'s check: no payload leaves first (R104, R168 step 5), then R102 with the source range (sb, 0, n)
and `c = k + fix` (log 8). -/
def checkAcx (s : State) : Option FaultCode :=
  if s.len.toNat < s.srco.toNat then none
  else
    checkCopy s s.srcb.toNat 0 s.len.toNat s.dstb.toNat s.dsto.toNat
      (acxTaken s.srco.toNat s.len.toNat + acxFix s.srco.toNat s.len.toNat)

/-- `BFB.ACX` (R104). -/
def execBfbAcx (s : State) : Host.Outcome State Fault Refusal :=
  command false (checkAcx s)
    (fun t =>
      if t.len.toNat < t.srco.toNat then respond .ok 0#16 t
      else appendAtDestination (acxBits t t.srcb.toNat t.srco.toNat t.len.toNat) t) s

end Sys2Proof.Machine
end

