-- ==== Sys2Proof/Machine/Crc.lean ====
section
/-! DEFINITION. The CRC-8 unit (41_crc8.md R90 to R93): preset 0xFF, polynomial 0x1D. -/

namespace Sys2Proof.Machine

/-- One shift of the byte step (R90). -/
def crcShift (c : Byte) : Byte := if c.msb then (c <<< 1) ^^^ 0x1D#8 else c <<< 1

/-- `n` shifts. -/
def crcShifts : Nat → Byte → Byte
  | 0, c => c
  | n + 1, c => crcShifts n (crcShift c)

/-- `CrcStep(c, d, n)` (R90): the whole byte is exclusive-ored in, then `n` shifts. -/
def crcStep (c d : Byte) (n : Nat) : Byte := crcShifts n (c ^^^ d)

/-- The running CRC after `q` whole bytes from address `a` (R93). -/
def crcWhole (s : State) (a : Nat) : Nat → Byte → Byte
  | 0, c => c
  | q + 1, c => crcWhole s (a + 1) q (crcStep c (memRead s a) 8)

/-- The running CRC after the `n` bits from bit index 0 of the buffer at `b` (R93): the whole bytes, then the partial
last byte if there is one. -/
def crcBuffer (s : State) (b n : Nat) (c : Byte) : Byte :=
  if n % 8 = 0 then crcWhole s b (n / 8) c
  else crcStep (crcWhole s b (n / 8) c) (memRead s (b + n / 8)) (n % 8)

/-- `CRC.BYTE`'s check on its count: 1 to 8, else `OPERAND` (R92, R164). -/
def checkStepCount (n : BitVec 4) : Option FaultCode :=
  if n.toNat = 0 then some .operand else if 8 < n.toNat then some .operand else none

/-- `CRC.INIT` (R91). -/
def execCrcInit (s : State) : Host.Outcome State Fault Refusal :=
  command false none (fun t => respond .ok 0#16 { t with crc := 0xFF#8 }) s

/-- `CRC.BYTE n, data8` (R92). -/
def execCrcByte (n : BitVec 4) (data8 : Byte) (s : State) : Host.Outcome State Fault Refusal :=
  command false (checkStepCount n)
    (fun t => respond .ok 0#16 { t with crc := crcStep t.crc data8 n.toNat }) s

/-- `CRC.BUF` (R93): `LEN` bits from bit index 0 of the buffer at `SRCB`; `SRCO` is not read. -/
def execCrcBuf (s : State) : Host.Outcome State Fault Refusal :=
  command false (checkSource s s.srcb.toNat 0 s.len.toNat)
    (fun t => respond .ok 0#16 { t with crc := crcBuffer t t.srcb.toNat t.len.toNat t.crc }) s

end Sys2Proof.Machine
end

