-- ==== Sys2Proof/Machine/Dec.lean ====
section
/-! DEFINITION. The modulation decoder (44_decoder.md R131 to R145). -/

namespace Sys2Proof.Machine

/-- The classes of an interval (R133, R135). -/
inductive IntervalClass where
  | start
  | h4
  | h3
  | h2
  | one
  | zero
  | noise
deriving DecidableEq, Repr

/-- R133's table, for the half-period codings. -/
def classifyHalfPeriods (t : HalfPeriodTiming) (n : Nat) : IntervalClass :=
  if t.ts ≤ n then .start
  else if t.t4 ≤ n then .h4
  else if t.t3 ≤ n then .h3
  else if t.t2 ≤ n then .h2
  else .noise

/-- R135's table, for the reverse link. -/
def classifyReverse (t : ReverseTiming) (n : Nat) : IntervalClass :=
  if t.ts ≤ n then .start
  else if t.ta ≤ n then .one
  else if t.tb ≤ n then .zero
  else .noise

/-- The class of an interval for the latched scheme (R134). -/
def classify (c : Config) : Scheme → Nat → IntervalClass
  | .ac2k, n => classifyHalfPeriods c.ac2k n
  | .ac4k, n => classifyHalfPeriods c.ac4k n
  | .mc4k, n => classifyHalfPeriods c.mc4k n
  | .mc8k, n => classifyHalfPeriods c.mc8k n
  | .rl, n => classifyReverse c.rl n

/-- `End(reason)` (R145): the response answers the `DEC.ARM` that began the cycle. -/
def endCycle (reason : RxEnd) (s : State) : State :=
  respond .ok 0#16 { s with rxend := reason, mode := .idle }

/-- The store of R136 without its end test: a newly touched byte is zeroed, the bit or-ed in, `RXLEN` and `LAST`
updated. -/
def storeRaw (bit : Bool) (s : State) : State :=
  let a := s.rxbase.toNat + s.rxlen.toNat / 8
  let fresh := if s.rxlen.toNat % 8 = 0 then memWrite a 0x00#8 s else s
  let stored := memWrite a (memRead fresh a ||| bitPlace bit s.rxlen.toNat) fresh
  { stored with rxlen := s.rxlen + 1#16, last := bit }

/-- `PutRaw(b)` (R136). It does nothing once the cycle has ended (R143). A store outside `M`, which R9 forbids and
R132 excludes, stops the model (log 10). -/
def putRaw (bit : Bool) (s : State) : Except Fault State :=
  if s.mode = .rx then
    if addressInside s (s.rxbase.toNat + s.rxlen.toNat / 8) then
      let stored := storeRaw bit s
      .ok (if stored.rxlen.toNat = stored.cfg.rxCapBits then endCycle .full stored else stored)
    else .error (.receiveStoreOutside (s.rxbase.toNat + s.rxlen.toNat / 8))
  else .ok s

/-- `PutRaw` twice. -/
def putRawTwo (bit1 bit2 : Bool) (s : State) : Except Fault State :=
  match putRaw bit1 s with
  | .error f => .error f
  | .ok t => putRaw bit2 t

/-- `RXLEN <- 0 ; LAST <- 1 ; SKIP <- 1`, the beginning of a frame (R137, R142). -/
def restartFrame (s : State) : State := { s with rxlen := 0#16, last := true, skip := true }

/-- Class START (R137 for Manchester and AC, where the marker stores a 1; R142 for `RL`, where it stores nothing). -/
def onStart (s : State) : Except Fault State :=
  match s.rxsch with
  | .rl => .ok (restartFrame s)
  | .ac2k => putRaw true (restartFrame s)
  | .ac4k => putRaw true (restartFrame s)
  | .mc4k => putRaw true (restartFrame s)
  | .mc8k => putRaw true (restartFrame s)

/-- Class H3 (R140): a 0, and a trailing 1 on alternating occurrences; `SKIP` toggles even if the cycle ended. -/
def onH3 (s : State) : Except Fault State :=
  match (if s.skip then putRaw false s else putRawTwo false true s) with
  | .error f => .error f
  | .ok t => .ok { t with skip := !s.skip }

/-- Class NOISE (R141). -/
def onNoise (s : State) : State :=
  let counted := { s with noise := s.noise + 1#16 }
  if counted.cfg.noiseMax < counted.noise.toNat then endCycle .noise counted else counted

/-- What one captured edge does in `MODE = RX` (R134): classify, then the rule of the class, R137 to R142. -/
def onEdge (interval : Word) (s : State) : Except Fault State :=
  match classify s.cfg s.rxsch interval.toNat with
  | .start => onStart s
  | .h4 => putRawTwo false true s
  | .h3 => onH3 s
  | .h2 => putRaw s.last s
  | .one => putRaw true s
  | .zero => putRaw false s
  | .noise => .ok (onNoise s)

/-- `DEC.ARM`'s check: scheme code, then the receive buffer inside `M` (R132, R163). -/
def checkArm (s : State) (scheme : BitVec 3) : Option FaultCode :=
  match schemeOfCode scheme with
  | none => some .operand
  | some _ => if s.dstb.toNat + s.cfg.rxCapBits / 8 ≤ s.cfg.memBytes then none else some .addr

/-- The start of a receive cycle (R132). There is no response yet. -/
def startCycle (sch : Scheme) (s : State) : State :=
  { s with
    rxsch := sch
    rxbase := s.dstb
    rxlen := 0#16
    noise := 0#16
    last := true
    skip := true
    rxend := .notEnded
    mode := .rx }

/-- `DEC.ARM scheme` (R132). -/
def execDecArm (scheme : BitVec 3) (s : State) : Host.Outcome State Fault Refusal :=
  command false (checkArm s scheme)
    (fun t =>
      match schemeOfCode scheme with
      | none => t
      | some sch => startCycle sch t) s

/-- `EDGE(n)` (R134): dropped unless `MODE = RX` (R131). -/
def execEdge (interval : Word) (s : State) : Host.Outcome State Fault Refusal :=
  if s.mode = .rx then
    match onEdge interval s with
    | .ok t => .next t
    | .error f => .fault f
  else .next s

/-- `TIMEOUT` (R144): ends the cycle, dropped unless `MODE = RX`. -/
def execTimeout (s : State) : Host.Outcome State Fault Refusal :=
  if s.mode = .rx then .next (endCycle .timeout s) else .next s

end Sys2Proof.Machine
end

