-- ==== Sys2Proof/Machine/Enc.lean ====
section
/-! DEFINITION. The modulation encoder (43_encoder.md R110 to R117). -/

namespace Sys2Proof.Machine

/-- Manchester bit pattern (R113): a one is HIGH then LOW, a zero LOW then HIGH, `h` units each. -/
def manchesterBit (h : Nat) : Bool → List (Level × Nat)
  | true => [(.high, h), (.low, h)]
  | false => [(.low, h), (.high, h)]

/-- AC bit pattern (R114): a one is two cycles of short segments, a zero one cycle of double length. -/
def acBit (h : Nat) : Bool → List (Level × Nat)
  | true => [(.high, h), (.low, h), (.high, h), (.low, h)]
  | false => [(.high, 2 * h), (.low, 2 * h)]

/-- Reverse-link bit pattern (R115): a pulse of `T_LOW`, then a rest that fills the bit's window. -/
def reverseBit (t : ReverseTiming) : Bool → List (Level × Nat)
  | true => [(.high, t.tLow), (.low, t.w1 - t.tLow)]
  | false => [(.high, t.tLow), (.low, t.w0 - t.tLow)]

/-- `EmitBit(s, b)` as the list of its segments (R112). -/
def bitSegments (c : Config) : Scheme → Bool → List (Level × Nat)
  | .ac2k, bit => acBit c.ac2k.hp bit
  | .ac4k, bit => acBit c.ac4k.hp bit
  | .mc4k, bit => manchesterBit c.mc4k.hp bit
  | .mc8k, bit => manchesterBit c.mc8k.hp bit
  | .rl, bit => reverseBit c.rl bit

/-- What follows the payload: the closing pulse of `RL`, nothing else (R110, R115). -/
def closingSegments (c : Config) : Scheme → List (Level × Nat)
  | .ac2k => []
  | .ac4k => []
  | .mc4k => []
  | .mc8k => []
  | .rl => [(.high, c.rl.tLow)]

/-- The segments of a frame in emission order: `sof` one-bits, the payload, the closing pulse (R110, R116). -/
def frameSegments (c : Config) (sch : Scheme) (sof : Nat) (payload : List Bool) : List (Level × Nat) :=
  (List.replicate sof true ++ payload).flatMap (bitSegments c sch) ++ closingSegments c sch

/-- `Emit(level, d)` (R111). -/
def emit (s : State) (segment : Level × Nat) : State :=
  { s with lineTrace := s.lineTrace ++ [.segment segment.1 segment.2], line := segment.1 }

/-- The end of a frame: the line goes LOW with no duration (R110, R111, R117). -/
def endFrame (s : State) : State := { s with lineTrace := s.lineTrace ++ [.rest], line := .low }

/-- `ENC.FRAME`'s check: scheme code, then `sof`, then the payload range (R110, R168). -/
def checkFrame (s : State) (scheme sof : BitVec 3) : Option FaultCode :=
  match schemeOfCode scheme with
  | none => some .operand
  | some sch =>
    if sofAllowed sch sof then checkSource s s.srcb.toNat s.srco.toNat s.len.toNat else some .operand

/-- `ENC.FRAME scheme, sof` (R110). -/
def execEncFrame (scheme sof : BitVec 3) (s : State) : Host.Outcome State Fault Refusal :=
  command false (checkFrame s scheme sof)
    (fun t =>
      match schemeOfCode scheme with
      | none => t
      | some sch =>
        respond .ok 0#16
          (endFrame
            ((frameSegments t.cfg sch sof.toNat (getBits t t.srcb.toNat t.srco.toNat t.len.toNat)).foldl
              emit t))) s

end Sys2Proof.Machine
end

