-- ==== Sys2Proof/Machine/System.lean ====
section
/-! DEFINITION. The system commands (40_system_ops.md R80 to R85). -/

namespace Sys2Proof.Machine

/-- `NOP` (R80): performed also in the fault state. -/
def execNop (s : State) : Host.Outcome State Fault Refusal :=
  command true none (respond .ok 0#16) s

/-- `SETR reg, imm16` (R81). -/
def execSetr (reg : BitVec 8) (imm16 : Word) (s : State) : Host.Outcome State Fault Refusal :=
  command false (checkWrite reg)
    (fun t =>
      match regOfNumber reg with
      | none => t
      | some r => respond .ok 0#16 (writeReg r imm16 t)) s

/-- `GETR reg` (R82): performed also in the fault state. -/
def execGetr (reg : BitVec 8) (s : State) : Host.Outcome State Fault Refusal :=
  command true (checkRead reg)
    (fun t =>
      match regOfNumber reg with
      | none => t
      | some r => respond .ok (readReg t r) t) s

/-- `MWR addr16, data8` (R83). -/
def execMwr (addr16 : Word) (data8 : Byte) (s : State) : Host.Outcome State Fault Refusal :=
  command false (checkAddress s addr16) (fun t => respond .ok 0#16 (memWrite addr16.toNat data8 t)) s

/-- `MRD addr16` (R84): performed also in the fault state. -/
def execMrd (addr16 : Word) (s : State) : Host.Outcome State Fault Refusal :=
  command true (checkAddress s addr16)
    (fun t => respond .ok ((memRead t addr16.toNat).zeroExtend 16) t) s

/-- `RESET` (R85): performed also in the fault state, the only command that leaves it (R171). -/
def execReset (s : State) : Host.Outcome State Fault Refusal :=
  command true none (fun t => respond .ok 0#16 (resetRegisters t)) s

end Sys2Proof.Machine
end

