-- ==== Sys2Proof/Machine/Dispatch.lean ====
section
/-! DEFINITION. What each instruction does: one arm per row of spec/opcode_table.json. -/

namespace Sys2Proof.Machine

def exec (i : Instr) (s : State) : Host.Outcome State Fault Refusal :=
  match i with
  | .nop => Sys2Proof.Machine.execNop s
  | .setr reg imm16 => Sys2Proof.Machine.execSetr reg imm16 s
  | .getr reg => Sys2Proof.Machine.execGetr reg s
  | .mwr addr16 data8 => Sys2Proof.Machine.execMwr addr16 data8 s
  | .mrd addr16 => Sys2Proof.Machine.execMrd addr16 s
  | .reset => Sys2Proof.Machine.execReset s
  | .crcInit => Sys2Proof.Machine.execCrcInit s
  | .crcByte n data8 => Sys2Proof.Machine.execCrcByte n data8 s
  | .crcBuf => Sys2Proof.Machine.execCrcBuf s
  | .bfbAppend => Sys2Proof.Machine.execBfbAppend s
  | .bfbAcx => Sys2Proof.Machine.execBfbAcx s
  | .encFrame scheme sof => Sys2Proof.Machine.execEncFrame scheme sof s
  | .decArm scheme => Sys2Proof.Machine.execDecArm scheme s
  | .edge interval => Sys2Proof.Machine.execEdge interval s
  | .timeout => Sys2Proof.Machine.execTimeout s

end Sys2Proof.Machine
end

