-- ==== Sys2Proof/Machine/Step.lean ====
section
/-! DEFINITION. One step of the block (20_memory.md R48, 44_decoder.md R131). -/

namespace Sys2Proof.Machine

/-- The block takes the next word of an open port and performs it; a word that stands for no command raises
`ILLEGAL` (R70, R161); with nothing to take it waits (R177; log 4). -/
def step (s : State) : Host.Outcome State Fault Refusal :=
  match nextWord s with
  | none => .next s
  | some (w, t) =>
    match decode w with
    | .ok i => exec i t
    | .error reason => .next (rejectWord reason t)

/-- The state in which the next step takes exactly the word of an opcode-table row (log 5, log 18); unchanged where
the bits are no word of a port. -/
def State.withFetchWord (s : State) (nbits w : Nat) : State :=
  match tableWord nbits w with
  | none => s
  | some p => placeWord p s

end Sys2Proof.Machine
end

