-- ==== Sys2Proof/Machine/Channel.lean ====
section
/-! DEFINITION. The zero-jitter loop-back channel (44_decoder.md R146): what the decoder's edge port sees of a frame
on the line. It is a definition for the round-trip law and the tests, not hardware. -/

namespace Sys2Proof.Machine

/-- The times, from the start of the first segment, at which the line goes from HIGH to LOW, given the level before;
the frame is followed by the terminating LOW (R146). -/
def fallingEdges : Level → Nat → List (Level × Nat) → List Nat
  | .high, t, [] => [t]
  | .low, _, [] => []
  | .high, t, (.low, d) :: rest => t :: fallingEdges .low (t + d) rest
  | .high, t, (.high, d) :: rest => fallingEdges .high (t + d) rest
  | .low, t, (l, d) :: rest => fallingEdges l (t + d) rest

/-- The intervals between successive times. -/
def intervals : List Nat → List Nat
  | [] => []
  | [_] => []
  | t1 :: t2 :: rest => (t2 - t1) :: intervals (t2 :: rest)

/-- An interval as the edge capture delivers it, saturated at 0xFFFF (R67). -/
def edgeEvent (n : Nat) : Instr := .edge (BitVec.ofNat 16 (min n 65535))

/-- The events of one frame: `EDGE(G)` for its first falling edge, an `EDGE` for each further one, `TIMEOUT` (R146). -/
def channel (g : Word) (segments : List (Level × Nat)) : List Instr :=
  match fallingEdges .low 0 segments with
  | [] => [.timeout]
  | t1 :: rest => .edge g :: (intervals (t1 :: rest)).map edgeEvent ++ [.timeout]

/-- The segments of a stretch of line trace. -/
def traceSegments : List LineEvent → List (Level × Nat)
  | [] => []
  | .segment l d :: rest => (l, d) :: traceSegments rest
  | .rest :: rest => traceSegments rest

end Sys2Proof.Machine
end

