-- ==== Sys2Proof/Machine/Deadline.lean ====
section
/-! DEFINITION. The deadline duty of the environment (70_reset_and_hazards.md R187, decision D25, U9): the assumption on
the event stream that a statement takes as a hypothesis. The machine itself does not rest on it (log 13). -/

namespace Sys2Proof.Machine

/-- `words` ends the receive cycle that runs in `s`, if one runs: it holds a `TIMEOUT`, or enough events to end the
cycle otherwise (R187). Command words are passed over, for they wait until the cycle ends (R131). -/
def cycleEnds (s : State) : List PortWord → Bool
  | [] => decide (s.mode = .idle)
  | .command _ :: rest => cycleEnds s rest
  | .event e :: rest =>
    match exec (decodeEvent e) s with
    | .next t => decide (t.mode = .idle) || cycleEnds t rest
    | .fault _ => false
    | .refused _ => false

/-- `k` steps, stopping at the first stop. -/
def runSteps : Nat → State → Host.Outcome State Fault Refusal
  | 0, s => .next s
  | k + 1, s =>
    match step s with
    | .next t => runSteps k t
    | .fault f => .fault f
    | .refused r => .refused r

/-- R187's assumption on the event stream, for the stream `s.inputs`: "after any `DEC.ARM` the stream holds a
`TIMEOUT` or enough events to end the cycle otherwise". Whenever the run from `s` is in a receive cycle, the one that
`s` itself may be in included, the words still to come end it. -/
def DeadlineKept (s : State) : Prop :=
  ∀ (k : Nat) (t : State), runSteps k s = .next t → t.mode = .rx → cycleEnds t t.inputs = true

end Sys2Proof.Machine
end

