-- ==== Sys2Proof/Safety.lean ====
section
/-! DEFINITION. What the spec promises of every reachable state, and what counts as a safe run: the block never stops
and every state of the run is as `State.Inv` says. -/

namespace Sys2Proof.Machine

/-- Every listed byte lies in `M` (R40). -/
def memoryInside (memBytes : Nat) (m : Memory) : Bool := m.all fun cell => decide (cell.1 < memBytes)

/-- The padding invariant of the receive buffer (R136): the bits of a partly filled last byte beyond `RXLEN` are 0. -/
def receivePadding (s : State) : Prop :=
  ∀ i, s.rxlen.toNat ≤ i → i / 8 = s.rxlen.toNat / 8 → s.rxlen.toNat % 8 ≠ 0 →
    getBit s s.rxbase.toNat i = false

/-- What holds between any two inputs of a run. -/
structure State.Inv (s : State) : Prop where
  /-- the configuration meets R6's constraints -/
  cfgValid : s.cfg.Valid
  /-- `M` is in canonical form -/
  memCanonical : Memory.wf s.mem = true
  /-- nothing was written outside `M` (R47, R163) -/
  memInside : memoryInside s.cfg.memBytes s.mem = true
  /-- `ERR` is 0 exactly when `FAULT = 0` (R25) -/
  errFault : s.err.isSome = s.fault
  /-- the line is LOW between commands (R117) -/
  lineLow : s.line = .low
  /-- 0 ≤ RXLEN ≤ RX_CAP_BITS (R26) -/
  rxlenBound : s.rxlen.toNat ≤ s.cfg.rxCapBits
  /-- `NOISE` never exceeds NOISE_MAX + 1 (R27) -/
  noiseBound : s.noise.toNat ≤ s.cfg.noiseMax + 1
  /-- a cycle runs only in a block without fault (R169, R170) -/
  rxFaultFree : s.mode = .rx → s.fault = false
  /-- the receive buffer of a running cycle lies in `M` (R46, R132) -/
  rxBuffer : s.mode = .rx → s.rxbase.toNat + s.cfg.rxCapBits / 8 ≤ s.cfg.memBytes
  /-- a running cycle has not filled the buffer (R143) -/
  rxNotFull : s.mode = .rx → s.rxlen.toNat < s.cfg.rxCapBits
  /-- a running cycle has not passed the noise limit (R141) -/
  rxNoise : s.mode = .rx → s.noise.toNat ≤ s.cfg.noiseMax
  /-- a running cycle has no end reason yet (R132, R145) -/
  rxNotEnded : s.mode = .rx → s.rxend = .notEnded
  /-- the receive buffer keeps the padding invariant at every moment of a cycle (R136) -/
  rxPadding : s.mode = .rx → receivePadding s

/-- A safe outcome of a step: the block goes on, in a state that meets the invariant. -/
def SafeOutcome (o : Host.Outcome State Fault Refusal) : Prop := ∃ t, o = .next t ∧ t.Inv

/-- Instructions performed one after another, stopping at the first stop. -/
def execAll : List Instr → State → Host.Outcome State Fault Refusal
  | [], s => .next s
  | i :: rest, s =>
    match exec i s with
    | .next t => execAll rest t
    | .fault f => .fault f
    | .refused r => .refused r

end Sys2Proof.Machine
end

