-- ==== Sys2Proof/Certificates/Slice0/Obligations.lean ====
section
/-! DEFINITION. The statements for the provers, `def Obligations.<Name> : Prop`, from the numbered rules of spec/. The
few words they share stand first, in `Sys2Proof.Claims`, written from the rules and not from the machine's own
operations. -/

namespace Sys2Proof.Claims

open Sys2Proof.Machine

/-- The block takes commands and is not in the fault state (R131, R170). -/
abbrev Ready (s : State) : Prop := s.mode = .idle ∧ s.fault = false

/-- The response `{OK, v}` and nothing else. -/
def answered (v : Word) (s : State) : State := { s with responses := s.responses ++ [⟨.ok, v⟩] }

/-- The response `{REFUSED, 0}` and nothing else (R170). -/
def refused (s : State) : State := { s with responses := s.responses ++ [⟨.refused, 0#16⟩] }

/-- The fault entry of R169: the flag, the code, the response `{FAULTED, 0}` and nothing else. -/
def faulted (code : FaultCode) (s : State) : State :=
  { s with fault := true, err := some code, responses := s.responses ++ [⟨.faulted, 0#16⟩] }

/-- Every word of a format Z opcode with a 1 among bits [23:0] is illegal (R61, R70): it faults with `ILLEGAL`, or is
refused by a faulted block, and does nothing else. -/
def RejectsReserved (op : BitVec 8) : Prop :=
  ∀ (x : BitVec 24) (s : State) (rest : List PortWord), x ≠ 0#24 → s.mode = .idle →
    s.inputs = .command (op ++ x) :: rest →
    step s = .next (if s.fault then refused { s with inputs := rest } else faulted .illegal { s with inputs := rest })

/-- The match and mask columns of the opcode map (R69). -/
def opcodeMap : List (CommandWord × CommandWord) :=
  [(0x00000000#32, 0xFFFFFFFF#32), (0x01000000#32, 0xFF000000#32), (0x02000000#32, 0xFF00FFFF#32),
   (0x03000000#32, 0xFF000000#32), (0x04000000#32, 0xFF0000FF#32), (0x0F000000#32, 0xFFFFFFFF#32),
   (0x10000000#32, 0xFFFFFFFF#32), (0x11000000#32, 0xFFFFF000#32), (0x12000000#32, 0xFFFFFFFF#32),
   (0x20000000#32, 0xFFFFFFFF#32), (0x21000000#32, 0xFFFFFFFF#32), (0x30000000#32, 0xFF03FFFF#32),
   (0x40000000#32, 0xFF1FFFFF#32)]

/-- The serial update of R94 item 2. -/
def serialUpdate (c : Byte) (bit : Bool) : Byte :=
  if (c.msb ^^ bit) then (c <<< 1) ^^^ 0x1D#8 else c <<< 1

/-- The bits of the last, partly used byte of an `n`-bit buffer at `b` beyond its end are 0 (R33 item 3). -/
def ZeroPadded (s : State) (b n : Nat) : Prop :=
  ∀ i, n ≤ i → i / 8 = n / 8 → n % 8 ≠ 0 → getBit s b i = false

/-- The byte address lies in the byte span of the bit range (b, i, n) (R40). -/
def InSpan (b i n x : Nat) : Prop := 0 < n ∧ b + i / 8 ≤ x ∧ x ≤ b + (i + n - 1) / 8

/-- The byte spans of two bit ranges have no byte in common (R102 item 3). -/
def SpansDisjoint (b1 i1 n1 b2 i2 n2 : Nat) : Prop := ∀ x, InSpan b1 i1 n1 x → ¬ InSpan b2 i2 n2 x

/-- The effects of R100 on `M`: the string `bits` stands at (db, off) in order, what lies below `off` is kept, the rest
of the last touched byte is 0, and no byte outside the span is written. -/
def BitsWritten (db off : Nat) (bits : List Bool) (s t : State) : Prop :=
  (∀ i, i < bits.length → getBit t db (off + i) = bits.getD i false) ∧
  (∀ i, i < off → getBit t db i = getBit s db i) ∧
  (∀ i, off + bits.length ≤ i → i / 8 = (off + bits.length - 1) / 8 → getBit t db i = false) ∧
  (∀ a, ¬ InSpan db off bits.length a → memRead t a = memRead s a)

/-- R104: how many output bits `BFB.ACX` writes for `n` raw bits from index `skip` on, `skip ≤ n`. -/
def acxCount (skip n : Nat) : Nat := (n - skip + 1) / 2 + (if (n - skip) % 2 = 0 then 1 else 0)

/-- The end of a receive cycle for a reason (R145). -/
def cycleEnded (reason : RxEnd) (s : State) : State :=
  { s with rxend := reason, mode := .idle, responses := s.responses ++ [⟨.ok, 0#16⟩] }

/-- `PutRaw(bit)` in a running cycle (R136, R143): what it changes outside `M`, and what `M` holds afterwards. -/
def StoresRaw (bit : Bool) (s t : State) : Prop :=
  t = (if s.rxlen.toNat + 1 = s.cfg.rxCapBits then
        cycleEnded .full { s with mem := t.mem, rxlen := s.rxlen + 1#16, last := bit }
      else { s with mem := t.mem, rxlen := s.rxlen + 1#16, last := bit }) ∧
  getBit t s.rxbase.toNat s.rxlen.toNat = bit ∧
  (∀ i, i < s.rxlen.toNat → getBit t s.rxbase.toNat i = getBit s s.rxbase.toNat i) ∧
  (∀ i, s.rxlen.toNat < i → i / 8 = s.rxlen.toNat / 8 → getBit t s.rxbase.toNat i = false) ∧
  (∀ a, a ≠ s.rxbase.toNat + s.rxlen.toNat / 8 → memRead t a = memRead s a)

/-- `PutRaw` twice: the second does nothing once the first has ended the cycle (R143). -/
def StoresRawTwice (bit1 bit2 : Bool) (s t : State) : Prop :=
  ∃ u, StoresRaw bit1 s u ∧ (u.mode = .idle → t = u) ∧ (u.mode = .rx → StoresRaw bit2 u t)

/-- The thresholds of the document's four schemes (R6). -/
def thresholds (c : Config) : Scheme → Option HalfPeriodTiming
  | .ac2k => some c.ac2k
  | .ac4k => some c.ac4k
  | .mc4k => some c.mc4k
  | .mc8k => some c.mc8k
  | .rl => none

/-- The command words among the words that wait. -/
def waitingCommands (s : State) : List PortWord := s.inputs.filter fun w => !w.isEvent

/-- 1 while the response to a `DEC.ARM` is owed (R66, R131). -/
def owedResponse (s : State) : Nat := if s.mode = .rx then 1 else 0

/-- A segment as an entry of the line trace (R111). -/
def asTrace (segment : Level × Nat) : LineEvent := .segment segment.1 segment.2

/-- How many bits of the string are ones. -/
def ones (bits : List Bool) : Nat := bits.count true

/-- How many bits of the string are zeros. -/
def zeros (bits : List Bool) : Nat := bits.count false

/-- The sum of the durations of a list of segments (R118). -/
def lasting (segments : List (Level × Nat)) : Nat := (segments.map Prod.snd).sum

/-- The segments that a step added to the line trace. -/
def newSegments (s t : State) : List (Level × Nat) := traceSegments (t.lineTrace.drop s.lineTrace.length)

end Sys2Proof.Claims

open Sys2Proof Sys2Proof.Machine Sys2Proof.Claims

/-! ### Encoding -/

/-- R60 to R65, R67, R68: decoding the word of any instruction, with every operand at every value, gives it back. -/
def Obligations.DecodeInvertsEncode : Prop := ∀ i : Instr, decode (encode i) = .ok i

/-- R60, R68, R70 ("no encoding that behaves as another"): a command word that decodes is the word of its command. -/
def Obligations.CommandWordsAreUnique : Prop :=
  ∀ (w : CommandWord) (i : Instr), decode (.command w) = .ok i → encode i = .command w

/-- R69, R70: a command word decodes exactly when it matches a row of the opcode map under the row's mask. -/
def Obligations.LegalWordsMatchOpcodeMap : Prop :=
  ∀ w : CommandWord, (∃ i, decode (.command w) = .ok i) ↔ ∃ row ∈ opcodeMap, w &&& row.2 = row.1

/-- R67: bit 16 is the kind of an edge-port word; the interval is taken as it stands, and ignored in a TIMEOUT. -/
def Obligations.EventWordsDecode : Prop :=
  ∀ n : Word, decode (.event (0#1 ++ n)) = .ok (.edge n) ∧ decode (.event (1#1 ++ n)) = .ok .timeout

/-- The command words the spec prints with their meaning (R69, R72, the examples of R81, R83, R84, R92, R110, R132 and
the programs P1 and P4): together with the statements about `NOP`, `RESET` and `CRC.INIT`, one word of every row. -/
def Obligations.PrintedWordsDecode : Prop :=
  decode (.command 0x01040025#32) = .ok (.setr 0x04#8 37#16) ∧
  decode (.command 0x02100000#32) = .ok (.getr 0x10#8) ∧
  decode (.command 0x030010AB#32) = .ok (.mwr 0x0010#16 0xAB#8) ∧
  decode (.command 0x04001000#32) = .ok (.mrd 0x0010#16) ∧
  decode (.command 0x110005F8#32) = .ok (.crcByte 5#4 0xF8#8) ∧
  decode (.command 0x12000000#32) = .ok .crcBuf ∧
  decode (.command 0x20000000#32) = .ok .bfbAppend ∧
  decode (.command 0x21000000#32) = .ok .bfbAcx ∧
  decode (.command 0x30580000#32) = .ok (.encFrame 2#3 6#3) ∧
  decode (.command 0x40400000#32) = .ok (.decArm 2#3)

/-- R66: the 18-bit response word. -/
def Obligations.ResponseWordLayout : Prop :=
  ∀ r : Response, (responseWord r).extractLsb' 0 16 = r.value ∧
    ((responseWord r).extractLsb' 16 2 = 0#2 ↔ r.st = .ok) ∧
    ((responseWord r).extractLsb' 16 2 = 1#2 ↔ r.st = .faulted) ∧
    ((responseWord r).extractLsb' 16 2 = 2#2 ↔ r.st = .refused)

/-! ### The step -/

/-- A step runs the decoded instruction: in IDLE the first word that has arrived, in RX the first event, past the
commands held before it, which stay. R131 says which port is open and that held commands wait, R48 that one thing is
performed at a time. That the words of both ports stand in one list in the order of their arrival, so that an event
ahead of a command takes a step of its own in IDLE, is the model's choice (log 3): the spec does not number the
interleaving of the two streams. -/
def Obligations.StepRunsDecodedInstruction : Prop :=
  (∀ (s : State) (w : PortWord) (rest : List PortWord) (i : Instr), s.mode = .idle → s.inputs = w :: rest →
    decode w = .ok i → step s = exec i { s with inputs := rest }) ∧
  (∀ (s : State) (held : List PortWord) (e : EventWord) (rest : List PortWord) (i : Instr), s.mode = .rx →
    (∀ w ∈ held, w.isEvent = false) → s.inputs = held ++ .event e :: rest → decode (.event e) = .ok i →
    step s = exec i { s with inputs := held ++ rest })

/-- R70, R161, R169, R170: an illegal word faults, or is refused by a faulted block, and does nothing else. -/
def Obligations.IllegalWordsFault : Prop :=
  ∀ (s : State) (w : CommandWord) (rest : List PortWord) (why : Illegal), s.mode = .idle →
    s.inputs = .command w :: rest → decode (.command w) = .error why →
    (s.fault = false → step s = .next (faulted .illegal { s with inputs := rest })) ∧
    (s.fault = true → step s = .next (refused { s with inputs := rest }))

/-- R177, R131: with nothing to take the block waits with all state kept. That a waiting step answers the same state is
the model's choice (log 4). -/
def Obligations.WaitingKeepsState : Prop :=
  ∀ s : State, (s.mode = .idle → s.inputs = [] → step s = .next s) ∧
    (s.mode = .rx → (∀ w ∈ s.inputs, w.isEvent = false) → step s = .next s)

/-- R131: while `MODE = RX` a command is not consumed, not refused and not answered: it waits. While `MODE = IDLE`
every edge-port event is dropped without any effect. The second clause, that `exec` of a command in `MODE = RX` answers
the same state, is the model's choice (log 11): no step gives `exec` a command there. -/
def Obligations.PortGating : Prop :=
  (∀ s t : State, s.mode = .rx → step s = .next t → waitingCommands t = waitingCommands s) ∧
  (∀ (s : State) (i : Instr), s.mode = .rx → i.isEvent = false → exec i s = .next s) ∧
  (∀ (s : State) (i : Instr), s.mode = .idle → i.isEvent = true → exec i s = .next s)

/-! ### Invariants and rules of the whole machine -/

/-- Every step keeps the invariant, from every state that meets it. The canonical form of `M` is the model's own
(log 2). -/
def Obligations.EveryStepKeepsInvariant : Prop := ∀ s t : State, s.Inv → step s = .next t → t.Inv

/-- The machine after power-on meets the invariant. Its configuration is the model's choice (log 1). -/
def Obligations.ResetMeetsInvariant : Prop := State.reset.Inv

/-- R163, R134: no operation can itself fail on a memory access and no event can fault: from every state that meets
the invariant the block goes on. -/
def Obligations.NoStepStops : Prop := ∀ s : State, s.Inv → ∃ t, step s = .next t

/-- R66: one response per consumed command, `DEC.ARM`'s at the end of its cycle: responses given, the response owed
and commands waiting add up to the same number after every step. That the waiting commands stand in `State.inputs` is
the model's choice (log 3). -/
def Obligations.EveryCommandIsAnsweredOnce : Prop :=
  ∀ s t : State, step s = .next t →
    t.responses.length + owedResponse t + (waitingCommands t).length =
      s.responses.length + owedResponse s + (waitingCommands s).length

/-- R34: the output streams only grow; R31: the configuration never changes. That `powerOn` never changes is the
model's choice (log 2): it is the model's own field, which stands for the one power-on of a run (R180). -/
def Obligations.HistoriesGrowAndParametersStay : Prop :=
  ∀ s t : State, step s = .next t →
    (∃ r, t.responses = s.responses ++ r) ∧ (∃ l, t.lineTrace = s.lineTrace ++ l) ∧
      t.cfg = s.cfg ∧ t.powerOn = s.powerOn

/-- R111, R117: nothing but `ENC.FRAME` emits a segment, and nothing but `ENC.FRAME` and `RESET` drives the line. That
`RESET`, which drives the line LOW, adds no entry to the trace, no end mark either, is the model's reading of R85 (log
16). -/
def Obligations.OnlyEncoderDrivesLine : Prop :=
  ∀ (i : Instr) (s t : State), exec i s = .next t → (∀ scheme sof, i ≠ .encFrame scheme sof) →
    t.lineTrace = s.lineTrace ∧ (i ≠ .reset → t.line = s.line)

/-- R32: `M` is written by `MWR`, `BFB.APPEND`, `BFB.ACX` and the decoder only. -/
def Obligations.OnlyWritersChangeMemory : Prop :=
  ∀ (i : Instr) (s t : State), exec i s = .next t → (∀ a d, i ≠ .mwr a d) → i ≠ .bfbAppend → i ≠ .bfbAcx →
    (∀ n, i ≠ .edge n) → t.mem = s.mem

/-- R23, R186: `CRC` is written by `SETR`, the CRC commands and `RESET` only. -/
def Obligations.OnlyCrcCommandsChangeCrc : Prop :=
  ∀ (i : Instr) (s t : State), exec i s = .next t → (∀ r v, i ≠ .setr r v) → i ≠ .reset → i ≠ .crcInit →
    (∀ n d, i ≠ .crcByte n d) → i ≠ .crcBuf → t.crc = s.crc

/-- R145: what a cycle left is kept until the next `DEC.ARM` or reset. -/
def Obligations.CycleResultKept : Prop :=
  ∀ (i : Instr) (s t : State), s.mode = .idle → exec i s = .next t → (∀ scheme, i ≠ .decArm scheme) →
    i ≠ .reset →
    t.rxlen = s.rxlen ∧ t.noise = s.noise ∧ t.last = s.last ∧ t.skip = s.skip ∧ t.rxsch = s.rxsch ∧
      t.rxbase = s.rxbase ∧ t.rxend = s.rxend ∧ t.mode = s.mode

/-! ### Reset and the fault state -/

/-- R180: the values after power-on reset. -/
def Obligations.PowerOnResetValues : Prop :=
  State.reset.dstb = 0#16 ∧ State.reset.dsto = 0#16 ∧ State.reset.srcb = 0#16 ∧ State.reset.srco = 0#16 ∧
  State.reset.len = 0#16 ∧ State.reset.crc = 0xFF#8 ∧ State.reset.fault = false ∧ State.reset.err = none ∧
  State.reset.line = .low ∧ State.reset.rxend = .notEnded ∧ State.reset.rxlen = 0#16 ∧
  State.reset.noise = 0#16 ∧ State.reset.last = true ∧ State.reset.skip = true ∧ State.reset.rxsch = .ac2k ∧
  State.reset.rxbase = 0#16 ∧ State.reset.mode = .idle ∧ State.reset.lineTrace = [] ∧ State.reset.responses = [] ∧
  statusWord State.reset = 0x0000#16 ∧ decstWord State.reset = 0x0003#16

/-- R85, R171: `RESET` puts every register and flag at its reset value, in the fault state too, and keeps `M` and the
histories; a word with a 1 in [23:0] is illegal. That the line trace gains no entry, in a state with `LINE` HIGH too, is
the model's reading of R85 (log 16). -/
def Obligations.ResetCommandClearsRegisters : Prop :=
  (∀ s : State, s.mode = .idle →
    exec .reset s = .next (answered 0#16
      { s with dstb := 0#16, dsto := 0#16, srcb := 0#16, srco := 0#16, len := 0#16, crc := 0xFF#8, fault := false,
               err := none, line := .low, rxend := .notEnded, rxlen := 0#16, noise := 0#16, last := true,
               skip := true, rxsch := .ac2k, rxbase := 0#16, mode := .idle })) ∧
  decode (.command 0x0F000000#32) = .ok .reset ∧ RejectsReserved 0x0F#8

/-- R169: the fault entry is precise, happens in `MODE = IDLE` only and does nothing else; the fault is sticky until
reset. R170 and R171: `ERR` keeps the first code. The first two clauses are about an instruction, the last two about a
step, illegal words included, which besides takes its word from the port. -/
def Obligations.FaultEntryIsPrecise : Prop :=
  (∀ (i : Instr) (s t : State), s.fault = false → exec i s = .next t → t.fault = true →
    s.mode = .idle ∧ ∃ code, t = faulted code s) ∧
  (∀ (i : Instr) (s t : State), s.fault = true → i ≠ .reset → exec i s = .next t →
    t.fault = true ∧ t.err = s.err) ∧
  (∀ s t : State, s.fault = false → step s = .next t → t.fault = true →
    s.mode = .idle ∧ ∃ code w left, s.inputs = w :: left ∧ t = faulted code { s with inputs := left }) ∧
  (∀ s t : State, s.fault = true → step s = .next t →
    (t.fault = true ∧ t.err = s.err) ∨ ∃ rest, s.inputs = .command 0x0F000000#32 :: rest)

/-- R170: what a faulted block does with every command: `NOP`, `GETR` and `MRD` that pass their checks and `RESET` are
performed, everything else, an illegal word included, is refused and changes nothing; events are dropped. That the
empty cases of `CRC.BUF`, `BFB.APPEND` and `BFB.ACX`, which R168 step 5 answers with OK, are refused too is the model's
reading (log 7). -/
def Obligations.FaultedBlockServesReadsOnly : Prop :=
  ∀ s : State, s.mode = .idle → s.fault = true →
    exec .nop s = .next (answered 0#16 s) ∧
    (∀ (reg : BitVec 8) (r : Reg), regOfNumber reg = some r → exec (.getr reg) s = .next (answered (readReg s r) s)) ∧
    (∀ reg : BitVec 8, regOfNumber reg = none → exec (.getr reg) s = .next (refused s)) ∧
    (∀ a : Word, exec (.mrd a) s =
      .next (if a.toNat < s.cfg.memBytes then answered ((memRead s a.toNat).setWidth 16) s else refused s)) ∧
    exec .reset s = exec .reset { s with fault := false, err := none } ∧
    (∃ t, exec .reset s = .next t ∧ t.fault = false ∧ t.err = none) ∧
    (∀ i : Instr, i ≠ .nop → (∀ reg, i ≠ .getr reg) → (∀ a, i ≠ .mrd a) → i ≠ .reset → i.isEvent = false →
      exec i s = .next (refused s)) ∧
    (∀ (w : CommandWord) (rest : List PortWord) (why : Illegal), s.inputs = .command w :: rest →
      decode (.command w) = .error why → step s = .next (refused { s with inputs := rest })) ∧
    (∀ i : Instr, i.isEvent = true → exec i s = .next s)

/-! ### System commands -/

/-- R80: `NOP` answers OK and changes nothing, in the fault state too. -/
def Obligations.NopOnlyAnswers : Prop :=
  (∀ s : State, s.mode = .idle → exec .nop s = .next (answered 0#16 s)) ∧
  decode (.command 0x00000000#32) = .ok .nop ∧ RejectsReserved 0x00#8

/-- R81, R23: `SETR` writes the operand register or the low 8 bits of `CRC`, and nothing else. -/
def Obligations.SetrWritesRegister : Prop :=
  ∀ (s : State) (v : Word), Ready s →
    exec (.setr 0x00#8 v) s = .next (answered 0#16 { s with dstb := v }) ∧
    exec (.setr 0x01#8 v) s = .next (answered 0#16 { s with dsto := v }) ∧
    exec (.setr 0x02#8 v) s = .next (answered 0#16 { s with srcb := v }) ∧
    exec (.setr 0x03#8 v) s = .next (answered 0#16 { s with srco := v }) ∧
    exec (.setr 0x04#8 v) s = .next (answered 0#16 { s with len := v }) ∧
    exec (.setr 0x10#8 v) s = .next (answered 0#16 { s with crc := v.setWidth 8 })

/-- R162: `SETR` and `GETR` raise `BADREG` exactly for the register numbers outside their sets. -/
def Obligations.BadRegisterNumbersFault : Prop :=
  ∀ (s : State) (reg : BitVec 8) (v : Word), Ready s →
    ((4 < reg.toNat ∧ reg.toNat ≠ 16) ↔ exec (.setr reg v) s = .next (faulted .badReg s)) ∧
    ((4 < reg.toNat ∧ (reg.toNat < 16 ∨ 22 < reg.toNat)) ↔ exec (.getr reg) s = .next (faulted .badReg s))

/-- R82, R20, R23, R26, R27, R29: `GETR` answers the register and changes nothing, in the fault state too. -/
def Obligations.GetrReadsRegister : Prop :=
  ∀ s : State, s.mode = .idle →
    exec (.getr 0x00#8) s = .next (answered s.dstb s) ∧
    exec (.getr 0x01#8) s = .next (answered s.dsto s) ∧
    exec (.getr 0x02#8) s = .next (answered s.srcb s) ∧
    exec (.getr 0x03#8) s = .next (answered s.srco s) ∧
    exec (.getr 0x04#8) s = .next (answered s.len s) ∧
    exec (.getr 0x10#8) s = .next (answered (s.crc.setWidth 16) s) ∧
    exec (.getr 0x13#8) s = .next (answered s.rxlen s) ∧
    exec (.getr 0x14#8) s = .next (answered s.noise s) ∧
    exec (.getr 0x16#8) s = .next (answered s.rxbase s)

/-- R24, R25, R28: the layouts of `STATUS`, `ERR` and `DECST`. -/
def Obligations.GetrReadsFlags : Prop :=
  ∀ s : State, s.mode = .idle →
    (∃ v : Word, exec (.getr 0x11#8) s = .next (answered v s) ∧
      v.getLsbD 0 = s.fault ∧ v.getLsbD 1 = decide (s.line = .high) ∧
      (v.extractLsb' 2 2 = 0#2 ↔ s.rxend = .notEnded) ∧ (v.extractLsb' 2 2 = 1#2 ↔ s.rxend = .timeout) ∧
      (v.extractLsb' 2 2 = 2#2 ↔ s.rxend = .noise) ∧ (v.extractLsb' 2 2 = 3#2 ↔ s.rxend = .full) ∧
      v.extractLsb' 4 12 = 0#12) ∧
    (∃ v : Word, exec (.getr 0x12#8) s = .next (answered v s) ∧
      (v.extractLsb' 0 3 = 0#3 ↔ s.err = none) ∧ (v.extractLsb' 0 3 = 1#3 ↔ s.err = some .illegal) ∧
      (v.extractLsb' 0 3 = 2#3 ↔ s.err = some .badReg) ∧ (v.extractLsb' 0 3 = 3#3 ↔ s.err = some .addr) ∧
      (v.extractLsb' 0 3 = 4#3 ↔ s.err = some .operand) ∧ (v.extractLsb' 0 3 = 5#3 ↔ s.err = some .overlap) ∧
      v.extractLsb' 3 13 = 0#13) ∧
    (∃ v : Word, exec (.getr 0x15#8) s = .next (answered v s) ∧
      v.getLsbD 0 = s.last ∧ v.getLsbD 1 = s.skip ∧
      (v.extractLsb' 2 3 = 0#3 ↔ s.rxsch = .ac2k) ∧ (v.extractLsb' 2 3 = 1#3 ↔ s.rxsch = .ac4k) ∧
      (v.extractLsb' 2 3 = 2#3 ↔ s.rxsch = .mc4k) ∧ (v.extractLsb' 2 3 = 3#3 ↔ s.rxsch = .mc8k) ∧
      (v.extractLsb' 2 3 = 4#3 ↔ s.rxsch = .rl) ∧ v.extractLsb' 5 11 = 0#11)

/-- R83: `MWR` stores the byte at the address and nowhere else, and changes nothing else. -/
def Obligations.MwrStoresByte : Prop :=
  ∀ (s : State) (a : Word) (d : Byte), Ready s →
    (a.toNat < s.cfg.memBytes →
      ∃ t, exec (.mwr a d) s = .next t ∧ t = answered 0#16 { s with mem := t.mem } ∧
        memRead t a.toNat = d ∧ ∀ x, x ≠ a.toNat → memRead t x = memRead s x) ∧
    (s.cfg.memBytes ≤ a.toNat → exec (.mwr a d) s = .next (faulted .addr s))

/-- R84: `MRD` answers the byte, zero-extended, and changes nothing; also in the fault state. -/
def Obligations.MrdReadsByte : Prop :=
  ∀ (s : State) (a : Word), s.mode = .idle →
    (a.toNat < s.cfg.memBytes → exec (.mrd a) s = .next (answered ((memRead s a.toNat).setWidth 16) s)) ∧
    (s.cfg.memBytes ≤ a.toNat → s.fault = false → exec (.mrd a) s = .next (faulted .addr s))

/-! ### CRC unit -/

/-- R91: `CRC.INIT` presets the running CRC to its reset value; it is refused in the fault state. -/
def Obligations.CrcInitPresets : Prop :=
  State.reset.crc = 0xFF#8 ∧
  (∀ s : State, Ready s → exec .crcInit s = .next (answered 0#16 { s with crc := 0xFF#8 })) ∧
  (∀ s : State, s.mode = .idle → s.fault = true → exec .crcInit s = .next (refused s)) ∧
  decode (.command 0x10000000#32) = .ok .crcInit ∧ RejectsReserved 0x10#8

/-- R90, R92, R164: the byte step, shift by shift (the whole byte enters by exclusive-or, each shift drops bit 7 and,
where it was 1, exclusive-ors 0x1D in); `CRC.BYTE` performs 1 to 8 of them, and raises `OPERAND` for every other
count. -/
def Obligations.CrcByteSteps : Prop :=
  (∀ c d : Byte, crcStep c d 0 = c ^^^ d) ∧
  (∀ (c d : Byte) (n : Nat), crcStep c d (n + 1) =
    if (crcStep c d n).getLsbD 7 then (crcStep c d n <<< 1) ^^^ 0x1D#8 else crcStep c d n <<< 1) ∧
  (∀ (s : State) (n : BitVec 4) (d : Byte), Ready s →
    (1 ≤ n.toNat → n.toNat ≤ 8 →
      exec (.crcByte n d) s = .next (answered 0#16 { s with crc := crcStep s.crc d n.toNat })) ∧
    (n.toNat = 0 ∨ 8 < n.toNat → exec (.crcByte n d) s = .next (faulted .operand s)))

/-- R94 item 2: with zero padding the byte step is the serial update over the byte's first `n` bits. -/
def Obligations.CrcStepIsBitSerial : Prop :=
  ∀ (c d : Byte) (n : Nat), 1 ≤ n → n ≤ 8 → (∀ k, k < 8 - n → d.getLsbD k = false) →
    crcStep c d n = ((List.range n).map fun k => d.getLsbD (7 - k)).foldl serialUpdate c

/-- R93: `CRC.BUF` steps through the whole bytes and then the partial byte, changes only `CRC`, and faults exactly when
a non-empty range is not valid. -/
def Obligations.CrcBufStepsThroughBytes : Prop :=
  ∀ s : State, Ready s →
    (8 * s.srcb.toNat + s.len.toNat ≤ 8 * s.cfg.memBytes →
      exec .crcBuf s = .next (answered 0#16
        { s with crc :=
            let whole := (List.range (s.len.toNat / 8)).foldl
              (fun c j => crcStep c (memRead s (s.srcb.toNat + j)) 8) s.crc
            if 0 < s.len.toNat % 8 then
              crcStep whole (memRead s (s.srcb.toNat + s.len.toNat / 8)) (s.len.toNat % 8)
            else whole })) ∧
    (0 < s.len.toNat → 8 * s.cfg.memBytes < 8 * s.srcb.toNat + s.len.toNat →
      exec .crcBuf s = .next (faulted .addr s))

/-- R94 items 2 and 3, R184: over a buffer with zero padding `CRC.BUF` is the serial CRC of its bits. -/
def Obligations.CrcBufIsBitSerial : Prop :=
  ∀ s : State, Ready s → 8 * s.srcb.toNat + s.len.toNat ≤ 8 * s.cfg.memBytes →
    ZeroPadded s s.srcb.toNat s.len.toNat →
    exec .crcBuf s = .next (answered 0#16
      { s with crc := (getBits s s.srcb.toNat 0 s.len.toNat).foldl serialUpdate s.crc })

/-- R94 item 3: incremental composability, at every split point. -/
def Obligations.CrcComposes : Prop :=
  ∀ (s : State) (a b ab na nb nab : Word), Ready s → nab.toNat = na.toNat + nb.toNat →
    8 * a.toNat + na.toNat ≤ 8 * s.cfg.memBytes → 8 * b.toNat + nb.toNat ≤ 8 * s.cfg.memBytes →
    8 * ab.toNat + nab.toNat ≤ 8 * s.cfg.memBytes →
    ZeroPadded s a.toNat na.toNat → ZeroPadded s b.toNat nb.toNat → ZeroPadded s ab.toNat nab.toNat →
    getBits s ab.toNat 0 nab.toNat = getBits s a.toNat 0 na.toNat ++ getBits s b.toNat 0 nb.toNat →
    ∃ t u v, exec .crcBuf { s with srcb := a, len := na } = .next t ∧
      exec .crcBuf { t with srcb := b, len := nb } = .next u ∧
      exec .crcBuf { s with srcb := ab, len := nab } = .next v ∧ u.crc = v.crc

/-! ### Bit-frame buffer unit -/

/-- R168 step 5: the empty cases answer OK, change nothing and cannot fault. -/
def Obligations.EmptyCasesChangeNothing : Prop :=
  ∀ s : State, Ready s →
    (s.len = 0#16 → exec .crcBuf s = .next (answered 0#16 s)) ∧
    (s.len = 0#16 → exec .bfbAppend s = .next (answered 0#16 s)) ∧
    (s.len.toNat < s.srco.toNat → exec .bfbAcx s = .next (answered 0#16 s))

/-- R100, R101: `BFB.APPEND` writes the source bits in order at the destination, advances `DSTO`, and changes nothing
else; the source is not changed. -/
def Obligations.AppendCopiesBits : Prop :=
  ∀ s : State, Ready s → s.cfg.Valid → 0 < s.len.toNat →
    8 * s.srcb.toNat + s.srco.toNat + s.len.toNat ≤ 8 * s.cfg.memBytes →
    8 * s.dstb.toNat + s.dsto.toNat + s.len.toNat ≤ 8 * s.cfg.memBytes →
    SpansDisjoint s.srcb.toNat s.srco.toNat s.len.toNat s.dstb.toNat s.dsto.toNat s.len.toNat →
    ∃ t, exec .bfbAppend s = .next t ∧
      t = answered 0#16 { s with dsto := t.dsto, mem := t.mem } ∧
      t.dsto.toNat = s.dsto.toNat + s.len.toNat ∧
      BitsWritten s.dstb.toNat s.dsto.toNat (getBits s s.srcb.toNat s.srco.toNat s.len.toNat) s t ∧
      ∀ i, i < s.len.toNat → getBit t s.srcb.toNat (s.srco.toNat + i) = getBit s s.srcb.toNat (s.srco.toNat + i)

/-- R102, R163, R165: the checks of `BFB.APPEND` and `BFB.ACX`, in their order; a valid destination range keeps `DSTO`
within 16 bits. That `BFB.ACX` checks its source range also where `LEN` and `SRCO` are 0, though R40 calls an empty
range always valid, is the model's reading of R102 and R163 (log 8). -/
def Obligations.CopyChecksInOrder : Prop :=
  ∀ s : State, Ready s → s.cfg.Valid →
    (0 < s.len.toNat →
      (8 * s.cfg.memBytes < 8 * s.srcb.toNat + s.srco.toNat + s.len.toNat →
        exec .bfbAppend s = .next (faulted .addr s)) ∧
      (8 * s.cfg.memBytes < 8 * s.dstb.toNat + s.dsto.toNat + s.len.toNat →
        exec .bfbAppend s = .next (faulted .addr s)) ∧
      (8 * s.srcb.toNat + s.srco.toNat + s.len.toNat ≤ 8 * s.cfg.memBytes →
        8 * s.dstb.toNat + s.dsto.toNat + s.len.toNat ≤ 8 * s.cfg.memBytes →
        s.dsto.toNat + s.len.toNat < 65536 ∧
        (¬ SpansDisjoint s.srcb.toNat s.srco.toNat s.len.toNat s.dstb.toNat s.dsto.toNat s.len.toNat →
          exec .bfbAppend s = .next (faulted .overlap s)))) ∧
    (s.srco.toNat ≤ s.len.toNat →
      (8 * s.cfg.memBytes < 8 * s.srcb.toNat + s.len.toNat → exec .bfbAcx s = .next (faulted .addr s)) ∧
      (8 * s.cfg.memBytes < 8 * s.dstb.toNat + s.dsto.toNat + acxCount s.srco.toNat s.len.toNat →
        exec .bfbAcx s = .next (faulted .addr s)) ∧
      (8 * s.srcb.toNat + s.len.toNat ≤ 8 * s.cfg.memBytes →
        8 * s.dstb.toNat + s.dsto.toNat + acxCount s.srco.toNat s.len.toNat ≤ 8 * s.cfg.memBytes →
        s.dsto.toNat + acxCount s.srco.toNat s.len.toNat < 65536 ∧
        (¬ SpansDisjoint s.srcb.toNat 0 s.len.toNat s.dstb.toNat s.dsto.toNat
            (acxCount s.srco.toNat s.len.toNat) →
          exec .bfbAcx s = .next (faulted .overlap s))))

/-- R106 item 1: a field appended and then extracted with a second append is the field again. -/
def Obligations.AppendThenExtractRoundTrip : Prop :=
  ∀ (s : State) (fb : Word), Ready s → s.cfg.Valid → 0 < s.len.toNat →
    8 * s.srcb.toNat + s.srco.toNat + s.len.toNat ≤ 8 * s.cfg.memBytes →
    8 * s.dstb.toNat + s.dsto.toNat + s.len.toNat ≤ 8 * s.cfg.memBytes →
    8 * fb.toNat + s.len.toNat ≤ 8 * s.cfg.memBytes →
    SpansDisjoint s.srcb.toNat s.srco.toNat s.len.toNat s.dstb.toNat s.dsto.toNat s.len.toNat →
    SpansDisjoint s.dstb.toNat s.dsto.toNat s.len.toNat fb.toNat 0 s.len.toNat →
    ∃ t u, exec .bfbAppend s = .next t ∧
      exec .bfbAppend { t with srcb := s.dstb, srco := s.dsto, dstb := fb, dsto := 0#16 } = .next u ∧
      u.dsto = s.len ∧
      ∀ i, i < s.len.toNat → getBit u fb.toNat i = getBit s s.srcb.toNat (s.srco.toNat + i)

/-- R106 item 2: two successive appends of the halves of a field leave what one append of the field leaves. -/
def Obligations.AppendConcatenates : Prop :=
  ∀ (s : State) (n1 n2 : Word), Ready s → s.cfg.Valid → 0 < n1.toNat → 0 < n2.toNat →
    s.len.toNat = n1.toNat + n2.toNat →
    8 * s.srcb.toNat + s.srco.toNat + s.len.toNat ≤ 8 * s.cfg.memBytes →
    8 * s.dstb.toNat + s.dsto.toNat + s.len.toNat ≤ 8 * s.cfg.memBytes →
    SpansDisjoint s.srcb.toNat s.srco.toNat s.len.toNat s.dstb.toNat s.dsto.toNat s.len.toNat →
    ∃ t u v, exec .bfbAppend { s with len := n1 } = .next t ∧
      exec .bfbAppend { t with srco := s.srco + n1, len := n2 } = .next u ∧
      exec .bfbAppend s = .next v ∧ u.dsto = v.dsto ∧ ∀ a, memRead u a = memRead v a

/-- R104: `BFB.ACX` writes every second raw bit from `skip` on, and a trailing 0 where the count parity says so. -/
def Obligations.AcxExtractsBits : Prop :=
  ∀ s : State, Ready s → s.cfg.Valid → s.srco.toNat ≤ s.len.toNat →
    8 * s.srcb.toNat + s.len.toNat ≤ 8 * s.cfg.memBytes →
    8 * s.dstb.toNat + s.dsto.toNat + acxCount s.srco.toNat s.len.toNat ≤ 8 * s.cfg.memBytes →
    SpansDisjoint s.srcb.toNat 0 s.len.toNat s.dstb.toNat s.dsto.toNat (acxCount s.srco.toNat s.len.toNat) →
    ∃ t bits, exec .bfbAcx s = .next t ∧
      t = answered 0#16 { s with dsto := t.dsto, mem := t.mem } ∧
      t.dsto.toNat = s.dsto.toNat + acxCount s.srco.toNat s.len.toNat ∧
      bits.length = acxCount s.srco.toNat s.len.toNat ∧
      (∀ i, s.srco.toNat + 2 * i < s.len.toNat →
        bits.getD i true = getBit s s.srcb.toNat (s.srco.toNat + 2 * i)) ∧
      (∀ i, i < bits.length → s.len.toNat ≤ s.srco.toNat + 2 * i → bits.getD i true = false) ∧
      BitsWritten s.dstb.toNat s.dsto.toNat bits s t

/-! ### Encoder -/

/-- R113, R114, R115: the bit patterns of the five codings, for every configuration. -/
def Obligations.BitPatterns : Prop :=
  ∀ c : Config,
    bitSegments c .mc4k true = [(.high, c.mc4k.hp), (.low, c.mc4k.hp)] ∧
    bitSegments c .mc4k false = [(.low, c.mc4k.hp), (.high, c.mc4k.hp)] ∧
    bitSegments c .mc8k true = [(.high, c.mc8k.hp), (.low, c.mc8k.hp)] ∧
    bitSegments c .mc8k false = [(.low, c.mc8k.hp), (.high, c.mc8k.hp)] ∧
    bitSegments c .ac2k true = [(.high, c.ac2k.hp), (.low, c.ac2k.hp), (.high, c.ac2k.hp), (.low, c.ac2k.hp)] ∧
    bitSegments c .ac2k false = [(.high, 2 * c.ac2k.hp), (.low, 2 * c.ac2k.hp)] ∧
    bitSegments c .ac4k true = [(.high, c.ac4k.hp), (.low, c.ac4k.hp), (.high, c.ac4k.hp), (.low, c.ac4k.hp)] ∧
    bitSegments c .ac4k false = [(.high, 2 * c.ac4k.hp), (.low, 2 * c.ac4k.hp)] ∧
    bitSegments c .rl false = [(.high, c.rl.tLow), (.low, c.rl.w0 - c.rl.tLow)] ∧
    bitSegments c .rl true = [(.high, c.rl.tLow), (.low, c.rl.w1 - c.rl.tLow)]

/-- R110, R111, R116, R117: `ENC.FRAME` emits the SOF ones, the payload bits and the closing pulse of `RL`, ends LOW, and
changes nothing else. -/
def Obligations.EncFrameEmitsFrame : Prop :=
  ∀ (s : State) (sof : BitVec 3), Ready s →
    (s.len.toNat = 0 ∨ 8 * s.srcb.toNat + s.srco.toNat + s.len.toNat ≤ 8 * s.cfg.memBytes) →
    (∀ (code : BitVec 3) (sch : Scheme),
      (code, sch) ∈ [(0#3, Scheme.ac2k), (1#3, Scheme.ac4k), (2#3, Scheme.mc4k), (3#3, Scheme.mc8k)] →
      sof ∈ [1#3, 3#3, 6#3] →
      exec (.encFrame code sof) s = .next (answered 0#16
        { s with
          line := .low
          lineTrace := s.lineTrace ++
            ((List.replicate sof.toNat true ++ getBits s s.srcb.toNat s.srco.toNat s.len.toNat).flatMap
              (bitSegments s.cfg sch)).map asTrace ++ [.rest] })) ∧
    exec (.encFrame 4#3 0#3) s = .next (answered 0#16
      { s with
        line := .low
        lineTrace := s.lineTrace ++
          ((getBits s s.srcb.toNat s.srco.toNat s.len.toNat).flatMap (bitSegments s.cfg .rl) ++
            [(Level.high, s.cfg.rl.tLow)]).map asTrace ++ [.rest] })

/-- R110, R164, R168: the faults of `ENC.FRAME`, scheme code before `sof` before the address. -/
def Obligations.EncFrameFaults : Prop :=
  ∀ (s : State) (code sof : BitVec 3), Ready s →
    (4 < code.toNat → exec (.encFrame code sof) s = .next (faulted .operand s)) ∧
    (code.toNat ≤ 3 → sof.toNat ≠ 1 → sof.toNat ≠ 3 → sof.toNat ≠ 6 →
      exec (.encFrame code sof) s = .next (faulted .operand s)) ∧
    (code.toNat = 4 → sof.toNat ≠ 0 → exec (.encFrame code sof) s = .next (faulted .operand s)) ∧
    ((Instr.encFrame code sof).wellFormed = true → 0 < s.len.toNat →
      8 * s.cfg.memBytes < 8 * s.srcb.toNat + s.srco.toNat + s.len.toNat →
      exec (.encFrame code sof) s = .next (faulted .addr s))

/-- R118: how many segments a frame has and how long it lasts. -/
def Obligations.FrameLengths : Prop :=
  ∀ (c : Config) (sof : Nat) (bits : List Bool),
    ((frameSegments c .mc4k sof bits).length = 2 * (sof + ones bits + zeros bits) ∧
      lasting (frameSegments c .mc4k sof bits) = 2 * c.mc4k.hp * (sof + ones bits + zeros bits)) ∧
    ((frameSegments c .mc8k sof bits).length = 2 * (sof + ones bits + zeros bits) ∧
      lasting (frameSegments c .mc8k sof bits) = 2 * c.mc8k.hp * (sof + ones bits + zeros bits)) ∧
    ((frameSegments c .ac2k sof bits).length = 4 * (sof + ones bits) + 2 * zeros bits ∧
      lasting (frameSegments c .ac2k sof bits) = 4 * c.ac2k.hp * (sof + ones bits + zeros bits)) ∧
    ((frameSegments c .ac4k sof bits).length = 4 * (sof + ones bits) + 2 * zeros bits ∧
      lasting (frameSegments c .ac4k sof bits) = 4 * c.ac4k.hp * (sof + ones bits + zeros bits)) ∧
    (c.Valid → (frameSegments c .rl 0 bits).length = 2 * (ones bits + zeros bits) + 1 ∧
      lasting (frameSegments c .rl 0 bits) = c.rl.w1 * ones bits + c.rl.w0 * zeros bits + c.rl.tLow)

/-! ### Decoder -/

/-- R132, R163, R164: `DEC.ARM` starts a cycle with no response yet; `M` and the operand registers are not changed. A
receive buffer outside `M` raises `ADDR`, an unassigned scheme code `OPERAND`. -/
def Obligations.DecArmStartsCycle : Prop :=
  ∀ (s : State) (code : BitVec 3), Ready s →
    (∀ sch : Scheme, (code, sch) ∈ [(0#3, Scheme.ac2k), (1#3, Scheme.ac4k), (2#3, Scheme.mc4k),
        (3#3, Scheme.mc8k), (4#3, Scheme.rl)] →
      (s.dstb.toNat + s.cfg.rxCapBits / 8 ≤ s.cfg.memBytes →
        exec (.decArm code) s = .next
          { s with rxsch := sch, rxbase := s.dstb, rxlen := 0#16, noise := 0#16, last := true, skip := true,
                   rxend := .notEnded, mode := .rx }) ∧
      (s.cfg.memBytes < s.dstb.toNat + s.cfg.rxCapBits / 8 →
        exec (.decArm code) s = .next (faulted .addr s))) ∧
    (4 < code.toNat → exec (.decArm code) s = .next (faulted .operand s))

/-- R133, R135: the interval classes of the half-period codings and of the reverse link. -/
def Obligations.IntervalClasses : Prop :=
  (∀ (c : Config) (sch : Scheme) (t : HalfPeriodTiming) (n : Nat), thresholds c sch = some t →
    t.t2 < t.t3 → t.t3 < t.t4 → t.t4 < t.ts →
    (classify c sch n = .start ↔ t.ts ≤ n) ∧ (classify c sch n = .h4 ↔ t.t4 ≤ n ∧ n < t.ts) ∧
    (classify c sch n = .h3 ↔ t.t3 ≤ n ∧ n < t.t4) ∧ (classify c sch n = .h2 ↔ t.t2 ≤ n ∧ n < t.t3) ∧
    (classify c sch n = .noise ↔ n < t.t2)) ∧
  (∀ (c : Config) (n : Nat), c.rl.tb < c.rl.ta → c.rl.ta < c.rl.ts →
    (classify c .rl n = .start ↔ c.rl.ts ≤ n) ∧ (classify c .rl n = .one ↔ c.rl.ta ≤ n ∧ n < c.rl.ts) ∧
    (classify c .rl n = .zero ↔ c.rl.tb ≤ n ∧ n < c.rl.ta) ∧ (classify c .rl n = .noise ↔ n < c.rl.tb))

/-- R137, R142: a start marker begins the frame again; it stores a 1 for Manchester and AC, nothing for `RL`. -/
def Obligations.StartMarkerBeginsFrame : Prop :=
  ∀ (s : State) (n : Word), s.Inv → s.mode = .rx → classify s.cfg s.rxsch n.toNat = .start →
    (s.rxsch = .rl →
      exec (.edge n) s = .next { s with rxlen := 0#16, last := true, skip := true }) ∧
    (s.rxsch ≠ .rl →
      ∃ t, exec (.edge n) s = .next t ∧
        t = { s with rxlen := 1#16, last := true, skip := true, mem := t.mem } ∧
        memRead t s.rxbase.toNat = 0x80#8 ∧ ∀ a, a ≠ s.rxbase.toNat → memRead t a = memRead s a)

/-- R139, R142, with R136 and R143: a two-half-period interval stores the last bit again; in `RL` the classes ONE and
ZERO store a one and a zero. -/
def Obligations.SingleBitClassesStore : Prop :=
  ∀ (s : State) (n : Word), s.Inv → s.mode = .rx →
    (classify s.cfg s.rxsch n.toNat = .h2 → ∃ t, exec (.edge n) s = .next t ∧ StoresRaw s.last s t) ∧
    (classify s.cfg s.rxsch n.toNat = .one → ∃ t, exec (.edge n) s = .next t ∧ StoresRaw true s t) ∧
    (classify s.cfg s.rxsch n.toNat = .zero → ∃ t, exec (.edge n) s = .next t ∧ StoresRaw false s t)

/-- R138, R143: four half-periods store 0 then 1; the 1 is lost where the 0 filled the buffer. -/
def Obligations.FourHalfPeriodsStoreZeroOne : Prop :=
  ∀ (s : State) (n : Word), s.Inv → s.mode = .rx → classify s.cfg s.rxsch n.toNat = .h4 →
    ∃ t, exec (.edge n) s = .next t ∧ StoresRawTwice false true s t

/-- R140: three half-periods store a 0, and a trailing 1 on alternating occurrences; `SKIP` toggles in every case. -/
def Obligations.ThreeHalfPeriodsAlternate : Prop :=
  ∀ (s : State) (n : Word), s.Inv → s.mode = .rx → classify s.cfg s.rxsch n.toNat = .h3 →
    (s.skip = true → ∃ u, StoresRaw false s u ∧ exec (.edge n) s = .next { u with skip := false }) ∧
    (s.skip = false → ∃ u, StoresRawTwice false true s u ∧ exec (.edge n) s = .next { u with skip := true })

/-- R141: a noise interval is counted and nothing is stored; the cycle ends when the count exceeds `NOISE_MAX`. -/
def Obligations.NoiseIsCounted : Prop :=
  ∀ (s : State) (n : Word), s.Inv → s.mode = .rx → classify s.cfg s.rxsch n.toNat = .noise →
    (s.noise.toNat < s.cfg.noiseMax → exec (.edge n) s = .next { s with noise := s.noise + 1#16 }) ∧
    (s.noise.toNat = s.cfg.noiseMax →
      exec (.edge n) s = .next (cycleEnded .noise { s with noise := s.noise + 1#16 }))

/-- R144, R145: `TIMEOUT` ends the cycle, answers the `DEC.ARM` and keeps everything else; outside a cycle it is
dropped. -/
def Obligations.TimeoutEndsCycle : Prop :=
  ∀ s : State, (s.mode = .rx → exec .timeout s = .next (cycleEnded .timeout s)) ∧
    (s.mode = .idle → exec .timeout s = .next s)

/-- R187: the block leaves `MODE = RX` only on TIMEOUT, on too much noise or on a full buffer. -/
def Obligations.CycleEndsForThreeReasons : Prop :=
  ∀ s t : State, s.Inv → s.mode = .rx → step s = .next t → t.mode = .idle →
    t.rxend = .timeout ∨ (t.rxend = .noise ∧ t.noise.toNat = s.cfg.noiseMax + 1) ∨
      (t.rxend = .full ∧ t.rxlen.toNat = s.cfg.rxCapBits)

/-- R187 with D25 and U9: under the assumption on the event stream, `DeadlineKept`, the block takes every word that
waits, ends in `MODE = IDLE` and answers every command. Any stream that holds a `TIMEOUT` ends the running cycle. That
the streams stand in `State.inputs` in the order of their arrival is the model's choice (log 3). -/
def Obligations.DeadlineGivesProgress : Prop :=
  (∀ s : State, s.Inv → DeadlineKept s →
    ∃ t, runSteps s.inputs.length s = .next t ∧ t.mode = .idle ∧ t.inputs = [] ∧
      t.responses.length = s.responses.length + owedResponse s + (waitingCommands s).length) ∧
  (∀ (s : State) (words : List PortWord) (e : EventWord), s.Inv → .event e ∈ words → decodeEvent e = .timeout →
    cycleEnds s words = true)

/-- R132, R189: an event changes no operand register, not `CRC`, not the fault state, not the line, and no byte of `M`
outside the receive buffer. -/
def Obligations.EdgeFrame : Prop :=
  ∀ (s t : State) (n : Word), s.Inv → s.mode = .rx → exec (.edge n) s = .next t →
    t.dstb = s.dstb ∧ t.dsto = s.dsto ∧ t.srcb = s.srcb ∧ t.srco = s.srco ∧ t.len = s.len ∧ t.crc = s.crc ∧
    t.fault = s.fault ∧ t.err = s.err ∧ t.line = s.line ∧ t.lineTrace = s.lineTrace ∧ t.rxsch = s.rxsch ∧
    t.rxbase = s.rxbase ∧ t.inputs = s.inputs ∧
    ∀ a, a < s.rxbase.toNat ∨ s.rxbase.toNat + s.cfg.rxCapBits / 8 ≤ a → memRead t a = memRead s a

/-! ### The round-trip law -/

/-- R147 for Manchester, through the channel of R146 and the unpack step of R105. Where the capture fills the buffer
exactly the cycle ends FULL by R143 (log 20); that every `TS` fits an interval word is a premise (log 24). -/
def Obligations.ManchesterRoundTrip : Prop :=
  ∀ (s : State) (code sof : BitVec 3) (sch : Scheme) (tm : HalfPeriodTiming) (g raw fb : Word),
    s.Inv → Ready s → s.cfg.StartFits →
    (code, sch) ∈ [(2#3, Scheme.mc4k), (3#3, Scheme.mc8k)] → thresholds s.cfg sch = some tm →
    sof ∈ [1#3, 3#3, 6#3] → tm.ts ≤ g.toNat →
    8 * s.srcb.toNat + s.srco.toNat + s.len.toNat ≤ 8 * s.cfg.memBytes →
    sof.toNat + s.len.toNat ≤ s.cfg.rxCapBits →
    raw.toNat + s.cfg.rxCapBits / 8 ≤ s.cfg.memBytes →
    8 * fb.toNat + s.len.toNat ≤ 8 * s.cfg.memBytes →
    (fb.toNat + (s.len.toNat + 7) / 8 ≤ raw.toNat ∨ raw.toNat + s.cfg.rxCapBits / 8 ≤ fb.toNat) →
    ∃ t u w, exec (.encFrame code sof) s = .next t ∧
      execAll (.decArm code :: channel g (newSegments s t)) { t with dstb := raw } = .next u ∧
      u.noise = 0#16 ∧ u.rxlen.toNat = sof.toNat + s.len.toNat ∧
      u.rxend = (if u.rxlen.toNat = s.cfg.rxCapBits then .full else .timeout) ∧
      exec .bfbAppend { u with dstb := fb, dsto := 0#16, srcb := raw, srco := sof.setWidth 16, len := s.len } =
        .next w ∧
      w.dsto = s.len ∧
      ∀ i, i < s.len.toNat → getBit w fb.toNat i = getBit s s.srcb.toNat (s.srco.toNat + i)

/-- R147 and R148 for AC: the capture is two raw bits a bit, less the last one where the payload ends in 0, and
`BFB.ACX` with `skip = 2·sof + 1` gives the payload back. See log 20 and log 24. -/
def Obligations.AcRoundTrip : Prop :=
  ∀ (s : State) (code sof : BitVec 3) (sch : Scheme) (tm : HalfPeriodTiming) (g raw fb : Word),
    s.Inv → Ready s → s.cfg.StartFits →
    (code, sch) ∈ [(0#3, Scheme.ac2k), (1#3, Scheme.ac4k)] → thresholds s.cfg sch = some tm →
    sof ∈ [1#3, 3#3, 6#3] → tm.ts ≤ g.toNat →
    8 * s.srcb.toNat + s.srco.toNat + s.len.toNat ≤ 8 * s.cfg.memBytes →
    2 * sof.toNat + 2 * s.len.toNat ≤ s.cfg.rxCapBits →
    raw.toNat + s.cfg.rxCapBits / 8 ≤ s.cfg.memBytes →
    8 * fb.toNat + s.len.toNat ≤ 8 * s.cfg.memBytes →
    (fb.toNat + (s.len.toNat + 7) / 8 ≤ raw.toNat ∨ raw.toNat + s.cfg.rxCapBits / 8 ≤ fb.toNat) →
    ∃ t u w, exec (.encFrame code sof) s = .next t ∧
      execAll (.decArm code :: channel g (newSegments s t)) { t with dstb := raw } = .next u ∧
      u.noise = 0#16 ∧
      (s.len.toNat = 0 ∨ getBit s s.srcb.toNat (s.srco.toNat + s.len.toNat - 1) = true →
        u.rxlen.toNat = 2 * sof.toNat + 2 * s.len.toNat) ∧
      (0 < s.len.toNat → getBit s s.srcb.toNat (s.srco.toNat + s.len.toNat - 1) = false →
        u.rxlen.toNat + 1 = 2 * sof.toNat + 2 * s.len.toNat) ∧
      u.rxend = (if u.rxlen.toNat = s.cfg.rxCapBits then .full else .timeout) ∧
      exec .bfbAcx { u with dstb := fb, dsto := 0#16, srcb := raw,
                            srco := BitVec.ofNat 16 (2 * sof.toNat + 1), len := u.rxlen } = .next w ∧
      w.dsto = s.len ∧
      ∀ i, i < s.len.toNat → getBit w fb.toNat i = getBit s s.srcb.toNat (s.srco.toNat + i)

/-- R147 for the reverse link: the capture is the payload. See log 20 and log 24. -/
def Obligations.ReverseLinkRoundTrip : Prop :=
  ∀ (s : State) (g raw : Word), s.Inv → Ready s → s.cfg.StartFits → s.cfg.rl.ts ≤ g.toNat →
    8 * s.srcb.toNat + s.srco.toNat + s.len.toNat ≤ 8 * s.cfg.memBytes →
    s.len.toNat ≤ s.cfg.rxCapBits → raw.toNat + s.cfg.rxCapBits / 8 ≤ s.cfg.memBytes →
    ∃ t u, exec (.encFrame 4#3 0#3) s = .next t ∧
      execAll (.decArm 4#3 :: channel g (newSegments s t)) { t with dstb := raw } = .next u ∧
      u.noise = 0#16 ∧ u.rxlen = s.len ∧
      u.rxend = (if u.rxlen.toNat = s.cfg.rxCapBits then .full else .timeout) ∧
      ∀ i, i < s.len.toNat → getBit u raw.toNat i = getBit s s.srcb.toNat (s.srco.toNat + i)
end

