-- ==== Sys2Proof/Laws/State.lean ====
section
/-! SUPPORT. What each named update of the state does to each field: one lemma per field per update, by `rfl`. -/

namespace Sys2Proof.Machine

/-! ### memWrite -/

@[simp] theorem memWrite_cfg (a : Nat) (v : Byte) (s : State) : (memWrite a v s).cfg = s.cfg := rfl
@[simp] theorem memWrite_powerOn (a : Nat) (v : Byte) (s : State) : (memWrite a v s).powerOn = s.powerOn := rfl
@[simp] theorem memWrite_dstb (a : Nat) (v : Byte) (s : State) : (memWrite a v s).dstb = s.dstb := rfl
@[simp] theorem memWrite_dsto (a : Nat) (v : Byte) (s : State) : (memWrite a v s).dsto = s.dsto := rfl
@[simp] theorem memWrite_srcb (a : Nat) (v : Byte) (s : State) : (memWrite a v s).srcb = s.srcb := rfl
@[simp] theorem memWrite_srco (a : Nat) (v : Byte) (s : State) : (memWrite a v s).srco = s.srco := rfl
@[simp] theorem memWrite_len (a : Nat) (v : Byte) (s : State) : (memWrite a v s).len = s.len := rfl
@[simp] theorem memWrite_crc (a : Nat) (v : Byte) (s : State) : (memWrite a v s).crc = s.crc := rfl
@[simp] theorem memWrite_fault (a : Nat) (v : Byte) (s : State) : (memWrite a v s).fault = s.fault := rfl
@[simp] theorem memWrite_err (a : Nat) (v : Byte) (s : State) : (memWrite a v s).err = s.err := rfl
@[simp] theorem memWrite_line (a : Nat) (v : Byte) (s : State) : (memWrite a v s).line = s.line := rfl
@[simp] theorem memWrite_rxend (a : Nat) (v : Byte) (s : State) : (memWrite a v s).rxend = s.rxend := rfl
@[simp] theorem memWrite_last (a : Nat) (v : Byte) (s : State) : (memWrite a v s).last = s.last := rfl
@[simp] theorem memWrite_skip (a : Nat) (v : Byte) (s : State) : (memWrite a v s).skip = s.skip := rfl
@[simp] theorem memWrite_mode (a : Nat) (v : Byte) (s : State) : (memWrite a v s).mode = s.mode := rfl
@[simp] theorem memWrite_rxlen (a : Nat) (v : Byte) (s : State) : (memWrite a v s).rxlen = s.rxlen := rfl
@[simp] theorem memWrite_noise (a : Nat) (v : Byte) (s : State) : (memWrite a v s).noise = s.noise := rfl
@[simp] theorem memWrite_rxsch (a : Nat) (v : Byte) (s : State) : (memWrite a v s).rxsch = s.rxsch := rfl
@[simp] theorem memWrite_rxbase (a : Nat) (v : Byte) (s : State) : (memWrite a v s).rxbase = s.rxbase := rfl
@[simp] theorem memWrite_mem (a : Nat) (v : Byte) (s : State) : (memWrite a v s).mem = memInsert a v s.mem := rfl
@[simp] theorem memWrite_inputs (a : Nat) (v : Byte) (s : State) : (memWrite a v s).inputs = s.inputs := rfl
@[simp] theorem memWrite_responses (a : Nat) (v : Byte) (s : State) : (memWrite a v s).responses = s.responses := rfl
@[simp] theorem memWrite_lineTrace (a : Nat) (v : Byte) (s : State) : (memWrite a v s).lineTrace = s.lineTrace := rfl

/-! ### respond -/

@[simp] theorem respond_cfg (st : Status) (v : Word) (s : State) : (respond st v s).cfg = s.cfg := rfl
@[simp] theorem respond_powerOn (st : Status) (v : Word) (s : State) : (respond st v s).powerOn = s.powerOn := rfl
@[simp] theorem respond_dstb (st : Status) (v : Word) (s : State) : (respond st v s).dstb = s.dstb := rfl
@[simp] theorem respond_dsto (st : Status) (v : Word) (s : State) : (respond st v s).dsto = s.dsto := rfl
@[simp] theorem respond_srcb (st : Status) (v : Word) (s : State) : (respond st v s).srcb = s.srcb := rfl
@[simp] theorem respond_srco (st : Status) (v : Word) (s : State) : (respond st v s).srco = s.srco := rfl
@[simp] theorem respond_len (st : Status) (v : Word) (s : State) : (respond st v s).len = s.len := rfl
@[simp] theorem respond_crc (st : Status) (v : Word) (s : State) : (respond st v s).crc = s.crc := rfl
@[simp] theorem respond_fault (st : Status) (v : Word) (s : State) : (respond st v s).fault = s.fault := rfl
@[simp] theorem respond_err (st : Status) (v : Word) (s : State) : (respond st v s).err = s.err := rfl
@[simp] theorem respond_line (st : Status) (v : Word) (s : State) : (respond st v s).line = s.line := rfl
@[simp] theorem respond_rxend (st : Status) (v : Word) (s : State) : (respond st v s).rxend = s.rxend := rfl
@[simp] theorem respond_last (st : Status) (v : Word) (s : State) : (respond st v s).last = s.last := rfl
@[simp] theorem respond_skip (st : Status) (v : Word) (s : State) : (respond st v s).skip = s.skip := rfl
@[simp] theorem respond_mode (st : Status) (v : Word) (s : State) : (respond st v s).mode = s.mode := rfl
@[simp] theorem respond_rxlen (st : Status) (v : Word) (s : State) : (respond st v s).rxlen = s.rxlen := rfl
@[simp] theorem respond_noise (st : Status) (v : Word) (s : State) : (respond st v s).noise = s.noise := rfl
@[simp] theorem respond_rxsch (st : Status) (v : Word) (s : State) : (respond st v s).rxsch = s.rxsch := rfl
@[simp] theorem respond_rxbase (st : Status) (v : Word) (s : State) : (respond st v s).rxbase = s.rxbase := rfl
@[simp] theorem respond_mem (st : Status) (v : Word) (s : State) : (respond st v s).mem = s.mem := rfl
@[simp] theorem respond_inputs (st : Status) (v : Word) (s : State) : (respond st v s).inputs = s.inputs := rfl
@[simp] theorem respond_responses (st : Status) (v : Word) (s : State) : (respond st v s).responses = s.responses ++ [Response.mk st v] := rfl
@[simp] theorem respond_lineTrace (st : Status) (v : Word) (s : State) : (respond st v s).lineTrace = s.lineTrace := rfl

/-! ### resetRegisters -/

@[simp] theorem resetRegisters_cfg (s : State) : (resetRegisters s).cfg = s.cfg := rfl
@[simp] theorem resetRegisters_powerOn (s : State) : (resetRegisters s).powerOn = s.powerOn := rfl
@[simp] theorem resetRegisters_dstb (s : State) : (resetRegisters s).dstb = 0#16 := rfl
@[simp] theorem resetRegisters_dsto (s : State) : (resetRegisters s).dsto = 0#16 := rfl
@[simp] theorem resetRegisters_srcb (s : State) : (resetRegisters s).srcb = 0#16 := rfl
@[simp] theorem resetRegisters_srco (s : State) : (resetRegisters s).srco = 0#16 := rfl
@[simp] theorem resetRegisters_len (s : State) : (resetRegisters s).len = 0#16 := rfl
@[simp] theorem resetRegisters_crc (s : State) : (resetRegisters s).crc = 0xFF#8 := rfl
@[simp] theorem resetRegisters_fault (s : State) : (resetRegisters s).fault = false := rfl
@[simp] theorem resetRegisters_err (s : State) : (resetRegisters s).err = none := rfl
@[simp] theorem resetRegisters_line (s : State) : (resetRegisters s).line = Level.low := rfl
@[simp] theorem resetRegisters_rxend (s : State) : (resetRegisters s).rxend = RxEnd.notEnded := rfl
@[simp] theorem resetRegisters_last (s : State) : (resetRegisters s).last = true := rfl
@[simp] theorem resetRegisters_skip (s : State) : (resetRegisters s).skip = true := rfl
@[simp] theorem resetRegisters_mode (s : State) : (resetRegisters s).mode = Mode.idle := rfl
@[simp] theorem resetRegisters_rxlen (s : State) : (resetRegisters s).rxlen = 0#16 := rfl
@[simp] theorem resetRegisters_noise (s : State) : (resetRegisters s).noise = 0#16 := rfl
@[simp] theorem resetRegisters_rxsch (s : State) : (resetRegisters s).rxsch = Scheme.ac2k := rfl
@[simp] theorem resetRegisters_rxbase (s : State) : (resetRegisters s).rxbase = 0#16 := rfl
@[simp] theorem resetRegisters_mem (s : State) : (resetRegisters s).mem = s.mem := rfl
@[simp] theorem resetRegisters_inputs (s : State) : (resetRegisters s).inputs = s.inputs := rfl
@[simp] theorem resetRegisters_responses (s : State) : (resetRegisters s).responses = s.responses := rfl
@[simp] theorem resetRegisters_lineTrace (s : State) : (resetRegisters s).lineTrace = s.lineTrace := rfl

/-! ### emit -/

@[simp] theorem emit_cfg (s : State) (g : Level × Nat) : (emit s g).cfg = s.cfg := rfl
@[simp] theorem emit_powerOn (s : State) (g : Level × Nat) : (emit s g).powerOn = s.powerOn := rfl
@[simp] theorem emit_dstb (s : State) (g : Level × Nat) : (emit s g).dstb = s.dstb := rfl
@[simp] theorem emit_dsto (s : State) (g : Level × Nat) : (emit s g).dsto = s.dsto := rfl
@[simp] theorem emit_srcb (s : State) (g : Level × Nat) : (emit s g).srcb = s.srcb := rfl
@[simp] theorem emit_srco (s : State) (g : Level × Nat) : (emit s g).srco = s.srco := rfl
@[simp] theorem emit_len (s : State) (g : Level × Nat) : (emit s g).len = s.len := rfl
@[simp] theorem emit_crc (s : State) (g : Level × Nat) : (emit s g).crc = s.crc := rfl
@[simp] theorem emit_fault (s : State) (g : Level × Nat) : (emit s g).fault = s.fault := rfl
@[simp] theorem emit_err (s : State) (g : Level × Nat) : (emit s g).err = s.err := rfl
@[simp] theorem emit_line (s : State) (g : Level × Nat) : (emit s g).line = g.1 := rfl
@[simp] theorem emit_rxend (s : State) (g : Level × Nat) : (emit s g).rxend = s.rxend := rfl
@[simp] theorem emit_last (s : State) (g : Level × Nat) : (emit s g).last = s.last := rfl
@[simp] theorem emit_skip (s : State) (g : Level × Nat) : (emit s g).skip = s.skip := rfl
@[simp] theorem emit_mode (s : State) (g : Level × Nat) : (emit s g).mode = s.mode := rfl
@[simp] theorem emit_rxlen (s : State) (g : Level × Nat) : (emit s g).rxlen = s.rxlen := rfl
@[simp] theorem emit_noise (s : State) (g : Level × Nat) : (emit s g).noise = s.noise := rfl
@[simp] theorem emit_rxsch (s : State) (g : Level × Nat) : (emit s g).rxsch = s.rxsch := rfl
@[simp] theorem emit_rxbase (s : State) (g : Level × Nat) : (emit s g).rxbase = s.rxbase := rfl
@[simp] theorem emit_mem (s : State) (g : Level × Nat) : (emit s g).mem = s.mem := rfl
@[simp] theorem emit_inputs (s : State) (g : Level × Nat) : (emit s g).inputs = s.inputs := rfl
@[simp] theorem emit_responses (s : State) (g : Level × Nat) : (emit s g).responses = s.responses := rfl
@[simp] theorem emit_lineTrace (s : State) (g : Level × Nat) : (emit s g).lineTrace = s.lineTrace ++ [LineEvent.segment g.1 g.2] := rfl

/-! ### endFrame -/

@[simp] theorem endFrame_cfg (s : State) : (endFrame s).cfg = s.cfg := rfl
@[simp] theorem endFrame_powerOn (s : State) : (endFrame s).powerOn = s.powerOn := rfl
@[simp] theorem endFrame_dstb (s : State) : (endFrame s).dstb = s.dstb := rfl
@[simp] theorem endFrame_dsto (s : State) : (endFrame s).dsto = s.dsto := rfl
@[simp] theorem endFrame_srcb (s : State) : (endFrame s).srcb = s.srcb := rfl
@[simp] theorem endFrame_srco (s : State) : (endFrame s).srco = s.srco := rfl
@[simp] theorem endFrame_len (s : State) : (endFrame s).len = s.len := rfl
@[simp] theorem endFrame_crc (s : State) : (endFrame s).crc = s.crc := rfl
@[simp] theorem endFrame_fault (s : State) : (endFrame s).fault = s.fault := rfl
@[simp] theorem endFrame_err (s : State) : (endFrame s).err = s.err := rfl
@[simp] theorem endFrame_line (s : State) : (endFrame s).line = Level.low := rfl
@[simp] theorem endFrame_rxend (s : State) : (endFrame s).rxend = s.rxend := rfl
@[simp] theorem endFrame_last (s : State) : (endFrame s).last = s.last := rfl
@[simp] theorem endFrame_skip (s : State) : (endFrame s).skip = s.skip := rfl
@[simp] theorem endFrame_mode (s : State) : (endFrame s).mode = s.mode := rfl
@[simp] theorem endFrame_rxlen (s : State) : (endFrame s).rxlen = s.rxlen := rfl
@[simp] theorem endFrame_noise (s : State) : (endFrame s).noise = s.noise := rfl
@[simp] theorem endFrame_rxsch (s : State) : (endFrame s).rxsch = s.rxsch := rfl
@[simp] theorem endFrame_rxbase (s : State) : (endFrame s).rxbase = s.rxbase := rfl
@[simp] theorem endFrame_mem (s : State) : (endFrame s).mem = s.mem := rfl
@[simp] theorem endFrame_inputs (s : State) : (endFrame s).inputs = s.inputs := rfl
@[simp] theorem endFrame_responses (s : State) : (endFrame s).responses = s.responses := rfl
@[simp] theorem endFrame_lineTrace (s : State) : (endFrame s).lineTrace = s.lineTrace ++ [LineEvent.rest] := rfl

/-! ### endCycle -/

@[simp] theorem endCycle_cfg (r : RxEnd) (s : State) : (endCycle r s).cfg = s.cfg := rfl
@[simp] theorem endCycle_powerOn (r : RxEnd) (s : State) : (endCycle r s).powerOn = s.powerOn := rfl
@[simp] theorem endCycle_dstb (r : RxEnd) (s : State) : (endCycle r s).dstb = s.dstb := rfl
@[simp] theorem endCycle_dsto (r : RxEnd) (s : State) : (endCycle r s).dsto = s.dsto := rfl
@[simp] theorem endCycle_srcb (r : RxEnd) (s : State) : (endCycle r s).srcb = s.srcb := rfl
@[simp] theorem endCycle_srco (r : RxEnd) (s : State) : (endCycle r s).srco = s.srco := rfl
@[simp] theorem endCycle_len (r : RxEnd) (s : State) : (endCycle r s).len = s.len := rfl
@[simp] theorem endCycle_crc (r : RxEnd) (s : State) : (endCycle r s).crc = s.crc := rfl
@[simp] theorem endCycle_fault (r : RxEnd) (s : State) : (endCycle r s).fault = s.fault := rfl
@[simp] theorem endCycle_err (r : RxEnd) (s : State) : (endCycle r s).err = s.err := rfl
@[simp] theorem endCycle_line (r : RxEnd) (s : State) : (endCycle r s).line = s.line := rfl
@[simp] theorem endCycle_rxend (r : RxEnd) (s : State) : (endCycle r s).rxend = r := rfl
@[simp] theorem endCycle_last (r : RxEnd) (s : State) : (endCycle r s).last = s.last := rfl
@[simp] theorem endCycle_skip (r : RxEnd) (s : State) : (endCycle r s).skip = s.skip := rfl
@[simp] theorem endCycle_mode (r : RxEnd) (s : State) : (endCycle r s).mode = Mode.idle := rfl
@[simp] theorem endCycle_rxlen (r : RxEnd) (s : State) : (endCycle r s).rxlen = s.rxlen := rfl
@[simp] theorem endCycle_noise (r : RxEnd) (s : State) : (endCycle r s).noise = s.noise := rfl
@[simp] theorem endCycle_rxsch (r : RxEnd) (s : State) : (endCycle r s).rxsch = s.rxsch := rfl
@[simp] theorem endCycle_rxbase (r : RxEnd) (s : State) : (endCycle r s).rxbase = s.rxbase := rfl
@[simp] theorem endCycle_mem (r : RxEnd) (s : State) : (endCycle r s).mem = s.mem := rfl
@[simp] theorem endCycle_inputs (r : RxEnd) (s : State) : (endCycle r s).inputs = s.inputs := rfl
@[simp] theorem endCycle_responses (r : RxEnd) (s : State) : (endCycle r s).responses = s.responses ++ [Response.mk .ok 0#16] := rfl
@[simp] theorem endCycle_lineTrace (r : RxEnd) (s : State) : (endCycle r s).lineTrace = s.lineTrace := rfl

/-! ### restartFrame -/

@[simp] theorem restartFrame_cfg (s : State) : (restartFrame s).cfg = s.cfg := rfl
@[simp] theorem restartFrame_powerOn (s : State) : (restartFrame s).powerOn = s.powerOn := rfl
@[simp] theorem restartFrame_dstb (s : State) : (restartFrame s).dstb = s.dstb := rfl
@[simp] theorem restartFrame_dsto (s : State) : (restartFrame s).dsto = s.dsto := rfl
@[simp] theorem restartFrame_srcb (s : State) : (restartFrame s).srcb = s.srcb := rfl
@[simp] theorem restartFrame_srco (s : State) : (restartFrame s).srco = s.srco := rfl
@[simp] theorem restartFrame_len (s : State) : (restartFrame s).len = s.len := rfl
@[simp] theorem restartFrame_crc (s : State) : (restartFrame s).crc = s.crc := rfl
@[simp] theorem restartFrame_fault (s : State) : (restartFrame s).fault = s.fault := rfl
@[simp] theorem restartFrame_err (s : State) : (restartFrame s).err = s.err := rfl
@[simp] theorem restartFrame_line (s : State) : (restartFrame s).line = s.line := rfl
@[simp] theorem restartFrame_rxend (s : State) : (restartFrame s).rxend = s.rxend := rfl
@[simp] theorem restartFrame_last (s : State) : (restartFrame s).last = true := rfl
@[simp] theorem restartFrame_skip (s : State) : (restartFrame s).skip = true := rfl
@[simp] theorem restartFrame_mode (s : State) : (restartFrame s).mode = s.mode := rfl
@[simp] theorem restartFrame_rxlen (s : State) : (restartFrame s).rxlen = 0#16 := rfl
@[simp] theorem restartFrame_noise (s : State) : (restartFrame s).noise = s.noise := rfl
@[simp] theorem restartFrame_rxsch (s : State) : (restartFrame s).rxsch = s.rxsch := rfl
@[simp] theorem restartFrame_rxbase (s : State) : (restartFrame s).rxbase = s.rxbase := rfl
@[simp] theorem restartFrame_mem (s : State) : (restartFrame s).mem = s.mem := rfl
@[simp] theorem restartFrame_inputs (s : State) : (restartFrame s).inputs = s.inputs := rfl
@[simp] theorem restartFrame_responses (s : State) : (restartFrame s).responses = s.responses := rfl
@[simp] theorem restartFrame_lineTrace (s : State) : (restartFrame s).lineTrace = s.lineTrace := rfl

/-! ### startCycle -/

@[simp] theorem startCycle_cfg (sch : Scheme) (s : State) : (startCycle sch s).cfg = s.cfg := rfl
@[simp] theorem startCycle_powerOn (sch : Scheme) (s : State) : (startCycle sch s).powerOn = s.powerOn := rfl
@[simp] theorem startCycle_dstb (sch : Scheme) (s : State) : (startCycle sch s).dstb = s.dstb := rfl
@[simp] theorem startCycle_dsto (sch : Scheme) (s : State) : (startCycle sch s).dsto = s.dsto := rfl
@[simp] theorem startCycle_srcb (sch : Scheme) (s : State) : (startCycle sch s).srcb = s.srcb := rfl
@[simp] theorem startCycle_srco (sch : Scheme) (s : State) : (startCycle sch s).srco = s.srco := rfl
@[simp] theorem startCycle_len (sch : Scheme) (s : State) : (startCycle sch s).len = s.len := rfl
@[simp] theorem startCycle_crc (sch : Scheme) (s : State) : (startCycle sch s).crc = s.crc := rfl
@[simp] theorem startCycle_fault (sch : Scheme) (s : State) : (startCycle sch s).fault = s.fault := rfl
@[simp] theorem startCycle_err (sch : Scheme) (s : State) : (startCycle sch s).err = s.err := rfl
@[simp] theorem startCycle_line (sch : Scheme) (s : State) : (startCycle sch s).line = s.line := rfl
@[simp] theorem startCycle_rxend (sch : Scheme) (s : State) : (startCycle sch s).rxend = RxEnd.notEnded := rfl
@[simp] theorem startCycle_last (sch : Scheme) (s : State) : (startCycle sch s).last = true := rfl
@[simp] theorem startCycle_skip (sch : Scheme) (s : State) : (startCycle sch s).skip = true := rfl
@[simp] theorem startCycle_mode (sch : Scheme) (s : State) : (startCycle sch s).mode = Mode.rx := rfl
@[simp] theorem startCycle_rxlen (sch : Scheme) (s : State) : (startCycle sch s).rxlen = 0#16 := rfl
@[simp] theorem startCycle_noise (sch : Scheme) (s : State) : (startCycle sch s).noise = 0#16 := rfl
@[simp] theorem startCycle_rxsch (sch : Scheme) (s : State) : (startCycle sch s).rxsch = sch := rfl
@[simp] theorem startCycle_rxbase (sch : Scheme) (s : State) : (startCycle sch s).rxbase = s.dstb := rfl
@[simp] theorem startCycle_mem (sch : Scheme) (s : State) : (startCycle sch s).mem = s.mem := rfl
@[simp] theorem startCycle_inputs (sch : Scheme) (s : State) : (startCycle sch s).inputs = s.inputs := rfl
@[simp] theorem startCycle_responses (sch : Scheme) (s : State) : (startCycle sch s).responses = s.responses := rfl
@[simp] theorem startCycle_lineTrace (sch : Scheme) (s : State) : (startCycle sch s).lineTrace = s.lineTrace := rfl

end Sys2Proof.Machine
end

