-- ==== Sys2Proof/Laws/Memory.lean ====
section
/-! SUPPORT. Laws of the buffer memory: read after write, the canonical form, bits and bytes. -/

namespace Sys2Proof.Machine

/-- A lookup after a write gives the value written at that address and leaves every other address alone. -/
@[simp] theorem memLookup_memInsert (m : Memory) (a : Nat) (v : Byte) (x : Nat) :
    memLookup (memInsert a v m) x = if a = x then some v else memLookup m x := by
  induction m with
  | nil => simp [memInsert, memLookup]
  | cons cell rest ih =>
    obtain ⟨b, w⟩ := cell
    simp only [memInsert]
    split
    · simp [memLookup]
    · split
      · subst_vars
        simp only [memLookup]
        split <;> rfl
      · simp only [memLookup, ih]
        split <;> split <;> simp_all

/-- Read after write (R48: every read sees the latest write). -/
@[simp] theorem memRead_memWrite (a : Nat) (v : Byte) (s : State) (x : Nat) :
    memRead (memWrite a v s) x = if a = x then v else memRead s x := by
  simp only [memRead, memWrite, memLookup_memInsert]
  split <;> rfl

/-- The canonical form, one cell at a time: the head lies below every later address. -/
theorem memory_wf_cons (x : Host.Cell) (m : Memory) :
    Memory.wf (x :: m) = true ↔ (∀ y ∈ m.head?, x.1 < y.1) ∧ Memory.wf m = true := by
  cases m with
  | nil => simp [Memory.wf]
  | cons y rest => simp [Memory.wf]

/-- The first address after a write is the old first one or the one written. -/
theorem head_memInsert (m : Memory) (a : Nat) (v : Byte) (n : Nat) (hn : n < a)
    (h : ∀ y ∈ m.head?, n < y.1) : ∀ y ∈ (memInsert a v m).head?, n < y.1 := by
  cases m with
  | nil => simpa [memInsert] using hn
  | cons cell rest =>
    simp only [memInsert]
    split
    · simpa using hn
    · split
      · simpa using hn
      · simpa using h

/-- A write keeps the canonical form. -/
theorem memInsert_wf (m : Memory) (a : Nat) (v : Byte) (h : Memory.wf m = true) :
    Memory.wf (memInsert a v m) = true := by
  induction m with
  | nil => rfl
  | cons cell rest ih =>
    obtain ⟨b, w⟩ := cell
    obtain ⟨hb, hr⟩ := (memory_wf_cons _ _).mp h
    simp only [memInsert]
    split
    · next hab => exact (memory_wf_cons _ _).mpr ⟨by simpa using hab, h⟩
    · split
      · next hab =>
        subst hab
        exact (memory_wf_cons _ _).mpr ⟨hb, hr⟩
      · next h1 h2 =>
        exact (memory_wf_cons _ _).mpr ⟨head_memInsert rest a v b (by omega) hb, ih hr⟩

/-- A write inside `M` keeps every listed byte inside `M`. -/
theorem memInsert_inside (n : Nat) (m : Memory) (a : Nat) (v : Byte) (ha : a < n)
    (h : memoryInside n m = true) : memoryInside n (memInsert a v m) = true := by
  induction m with
  | nil => simpa [memInsert, memoryInside] using ha
  | cons cell rest ih =>
    simp only [memoryInside, List.all_cons, Bool.and_eq_true] at h ih ⊢
    simp only [memInsert]
    split
    · simp only [List.all_cons, Bool.and_eq_true]
      exact ⟨by simpa using ha, h⟩
    · split
      · simp only [List.all_cons, Bool.and_eq_true]
        exact ⟨by simpa using ha, h.2⟩
      · simp only [List.all_cons, Bool.and_eq_true]
        exact ⟨h.1, ih h.2⟩

/-- Two pairs name the same bit location when they agree in `8·b + i` (R40). -/
theorem getBit_global (s : State) (b i : Nat) : getBit s b i = getBit s 0 (8 * b + i) := by
  have h1 : 0 + (8 * b + i) / 8 = b + i / 8 := by omega
  have h2 : (8 * b + i) % 8 = i % 8 := by omega
  simp only [getBit, h1, h2]

/-- A bit after a byte write. -/
theorem getBit_memWrite (a : Nat) (v : Byte) (s : State) (b i : Nat) :
    getBit (memWrite a v s) b i = if a = b + i / 8 then v.getLsbD (7 - i % 8) else getBit s b i := by
  simp only [getBit, memRead_memWrite]
  split <;> rfl

/-- A byte is its eight bits. -/
theorem memRead_eq_of_bits (s t : State) (a : Nat)
    (h : ∀ g, g / 8 = a → getBit t 0 g = getBit s 0 g) : memRead t a = memRead s a := by
  apply BitVec.eq_of_getLsbD_eq
  intro k hk
  have hg := h (8 * a + (7 - k)) (by omega)
  have h1 : 0 + (8 * a + (7 - k)) / 8 = a := by omega
  have h2 : 7 - (8 * a + (7 - k)) % 8 = k := by omega
  simpa only [getBit, h1, h2] using hg

/-- Reading depends on `M` and the power-on only. -/
theorem memRead_congr (s t : State) (hm : t.mem = s.mem) (hp : t.powerOn = s.powerOn) (a : Nat) :
    memRead t a = memRead s a := by
  simp only [memRead, hm, hp]

/-- A bit depends on `M` and the power-on only. -/
theorem getBit_congr (s t : State) (hm : t.mem = s.mem) (hp : t.powerOn = s.powerOn) (b i : Nat) :
    getBit t b i = getBit s b i := by
  simp only [getBit, memRead_congr s t hm hp]

end Sys2Proof.Machine
end

