-- ==== Sys2Proof/Laws/Bits.lean ====
section
/-! SUPPORT. What the packer writes (42_bitframe.md R100), bit by bit. Bits are named by their global index, bit `g`
being bit index `g` of the buffer at address 0 (`getBit_global`). -/

namespace Sys2Proof.Machine

/-- `bitPlace` puts its bit at the place of the index and nothing elsewhere. -/
theorem getLsbD_bitPlace (bit : Bool) (i k : Nat) (hk : k < 8) :
    (bitPlace bit i).getLsbD k = (bit && decide (k = 7 - i % 8)) := by
  have h : ∀ b : Bool, ∀ m < 8, ∀ j < 8,
      (if b = true then 1#8 <<< (7 - m) else 0#8).getLsbD j = (b && decide (j = 7 - m)) := by decide
  exact h bit (i % 8) (Nat.mod_lt _ (by omega)) k hk

/-- `keepMask` keeps the `off mod 8` high bits (R100). -/
theorem getLsbD_keepMask (off k : Nat) (hk : k < 8) :
    (keepMask off).getLsbD (7 - k) = decide (k < off % 8) := by
  have h : ∀ m < 8, ∀ j < 8,
      (((0xFF00#16 >>> m) &&& 0x00FF#16).setWidth 8).getLsbD (7 - j) = decide (j < m) := by decide
  exact h (off % 8) (Nat.mod_lt _ (by omega)) k hk

/-! ### Only `M` changes -/

/-- `zeroBytes` changes nothing but `M`. -/
theorem zeroBytes_eq (count : Nat) : ∀ (a : Nat) (s : State),
    zeroBytes a count s = { s with mem := (zeroBytes a count s).mem } := by
  induction count with
  | zero => intro a s; rfl
  | succ n ih =>
    intro a s
    have h := ih (a + 1) (memWrite a 0x00#8 s)
    simp only [zeroBytes]
    rw [h]
    rfl

/-- `orBits` changes nothing but `M`. -/
theorem orBits_eq (db : Nat) (bits : List Bool) : ∀ (i : Nat) (s : State),
    orBits db bits i s = { s with mem := (orBits db bits i s).mem } := by
  induction bits with
  | nil => intro i s; rfl
  | cons bit rest ih =>
    intro i s
    have h := ih (i + 1) (memWrite (db + i / 8) (memRead s (db + i / 8) ||| bitPlace bit i) s)
    simp only [orBits]
    rw [h]
    rfl

/-- `writeBits` changes nothing but `M`. -/
theorem writeBits_eq (db off : Nat) (bits : List Bool) (s : State) :
    writeBits db off bits s = { s with mem := (writeBits db off bits s).mem } := by
  simp only [writeBits]
  rw [orBits_eq, zeroBytes_eq]
  rfl

/-! ### What is read afterwards -/

/-- The bytes zeroed read 0, every other byte as before. -/
theorem memRead_zeroBytes (count : Nat) : ∀ (a : Nat) (s : State) (x : Nat),
    memRead (zeroBytes a count s) x = if a ≤ x ∧ x < a + count then 0x00#8 else memRead s x := by
  induction count with
  | zero =>
    intro a s x
    rw [if_neg (by omega)]
    rfl
  | succ n ih =>
    intro a s x
    simp only [zeroBytes, ih, memRead_memWrite]
    by_cases h1 : a + 1 ≤ x ∧ x < a + 1 + n
    · rw [if_pos h1, if_pos (by omega)]
    · rw [if_neg h1]
      by_cases h2 : a = x
      · rw [if_pos h2, if_pos (by omega)]
      · rw [if_neg h2, if_neg (by omega)]

/-- The bits or-ed in are read as set where the string has a one, every other bit as before. -/
theorem getBit_orBits (db : Nat) (bits : List Bool) : ∀ (i : Nat) (s : State) (g : Nat),
    getBit (orBits db bits i s) 0 g =
      (getBit s 0 g || (decide (8 * db + i ≤ g) && (bits[g - (8 * db + i)]?).getD false)) := by
  induction bits with
  | nil => intro i s g; simp [orBits]
  | cons bit rest ih =>
    intro i s g
    simp only [orBits, ih, getBit_memWrite]
    by_cases hbyte : db + i / 8 = 0 + g / 8
    · rw [if_pos hbyte]
      have hk : 7 - g % 8 < 8 := by omega
      have hread : (memRead s (db + i / 8)).getLsbD (7 - g % 8) = getBit s 0 g := by
        simp only [getBit, hbyte]
      rw [BitVec.getLsbD_or, getLsbD_bitPlace bit i _ hk, hread]
      by_cases hg : g = 8 * db + i
      · have h7 : 7 - g % 8 = 7 - i % 8 := by omega
        have hn : ¬ 8 * db + (i + 1) ≤ g := by omega
        have hp : 8 * db + i ≤ g := by omega
        have hz : g - (8 * db + i) = 0 := by omega
        simp [h7, hn, hp, hz]
      · have h7 : ¬ 7 - g % 8 = 7 - i % 8 := by omega
        by_cases hle : 8 * db + i ≤ g
        · have hle' : 8 * db + (i + 1) ≤ g := by omega
          have hs : g - (8 * db + i) = (g - (8 * db + (i + 1))) + 1 := by omega
          simp [h7, hle, hle', hs]
        · have hle' : ¬ 8 * db + (i + 1) ≤ g := by omega
          simp [h7, hle, hle']
    · rw [if_neg hbyte]
      by_cases hle : 8 * db + i ≤ g
      · have hle' : 8 * db + (i + 1) ≤ g := by omega
        have hs : g - (8 * db + i) = (g - (8 * db + (i + 1))) + 1 := by omega
        simp [hle, hle', hs]
      · have hle' : ¬ 8 * db + (i + 1) ≤ g := by omega
        simp [hle, hle']

/-- What `writeBits` leaves (R100): the bits of the string in their places, the rest of the last touched byte 0 (the
padding), every other bit of `M` as before. -/
theorem getBit_writeBits (db off : Nat) (bits : List Bool) (s : State) (hne : 0 < bits.length) (g : Nat) :
    getBit (writeBits db off bits s) 0 g =
      if 8 * db + off ≤ g ∧ g < 8 * db + off + bits.length then
        (bits[g - (8 * db + off)]?).getD false
      else if 8 * db + off + bits.length ≤ g ∧ g / 8 = db + (off + bits.length - 1) / 8 then false
      else getBit s 0 g := by
  have hzero : ∀ k, (0x00#8 : Byte).getLsbD k = false := by intro k; simp
  simp only [writeBits, getBit_orBits]
  have hcleared : getBit (zeroBytes (db + off / 8 + 1) ((off + bits.length - 1) / 8 - off / 8)
        (memWrite (db + off / 8) (memRead s (db + off / 8) &&& keepMask off) s)) 0 g =
      if 8 * db + off ≤ g ∧ g / 8 ≤ db + (off + bits.length - 1) / 8 then false else getBit s 0 g := by
    simp only [getBit, memRead_zeroBytes, memRead_memWrite]
    by_cases h1 : db + off / 8 + 1 ≤ 0 + g / 8 ∧
        0 + g / 8 < db + off / 8 + 1 + ((off + bits.length - 1) / 8 - off / 8)
    · rw [if_pos h1, if_pos (by omega)]
      exact hzero _
    · rw [if_neg h1]
      by_cases h2 : db + off / 8 = 0 + g / 8
      · rw [if_pos h2, BitVec.getLsbD_and, getLsbD_keepMask off (g % 8) (by omega), h2]
        by_cases h3 : 8 * db + off ≤ g
        · have h4 : ¬ g % 8 < off % 8 := by omega
          rw [if_pos (by omega)]
          simp [h4]
        · have h4 : g % 8 < off % 8 := by omega
          rw [if_neg (by omega)]
          simp [h4]
      · rw [if_neg h2, if_neg (by omega)]
  rw [hcleared]
  by_cases hin : 8 * db + off ≤ g ∧ g < 8 * db + off + bits.length
  · rw [if_pos hin, if_pos (by omega)]
    simp [hin.1]
  · rw [if_neg hin]
    by_cases hpad : 8 * db + off + bits.length ≤ g ∧ g / 8 = db + (off + bits.length - 1) / 8
    · rw [if_pos hpad, if_pos (by omega)]
      have hlen : bits.length ≤ g - (8 * db + off) := by omega
      simp [List.getElem?_eq_none hlen]
    · rw [if_neg hpad, if_neg (by omega)]
      by_cases hle : 8 * db + off ≤ g
      · have hlen : bits.length ≤ g - (8 * db + off) := by omega
        simp [List.getElem?_eq_none hlen]
      · simp [hle]

/-- Bytes outside the destination span are not written (R100). -/
theorem memRead_writeBits_outside (db off : Nat) (bits : List Bool) (s : State) (hne : 0 < bits.length) (a : Nat)
    (ha : a < db + off / 8 ∨ db + (off + bits.length - 1) / 8 < a) :
    memRead (writeBits db off bits s) a = memRead s a := by
  apply memRead_eq_of_bits
  intro g hg
  rw [getBit_writeBits db off bits s hne g, if_neg (by omega), if_neg (by omega)]

/-! ### The canonical form -/

/-- `zeroBytes` keeps the canonical form. -/
theorem zeroBytes_wf (count : Nat) : ∀ (a : Nat) (s : State), Memory.wf s.mem = true →
    Memory.wf (zeroBytes a count s).mem = true := by
  induction count with
  | zero => intro a s h; exact h
  | succ n ih => intro a s h; exact ih (a + 1) _ (memInsert_wf _ _ _ h)

/-- `orBits` keeps the canonical form. -/
theorem orBits_wf (db : Nat) (bits : List Bool) : ∀ (i : Nat) (s : State), Memory.wf s.mem = true →
    Memory.wf (orBits db bits i s).mem = true := by
  induction bits with
  | nil => intro i s h; exact h
  | cons bit rest ih => intro i s h; exact ih (i + 1) _ (memInsert_wf _ _ _ h)

/-- `writeBits` keeps the canonical form. -/
theorem writeBits_wf (db off : Nat) (bits : List Bool) (s : State) (h : Memory.wf s.mem = true) :
    Memory.wf (writeBits db off bits s).mem = true := by
  simp only [writeBits]
  exact orBits_wf _ _ _ _ (zeroBytes_wf _ _ _ (memInsert_wf _ _ _ h))

/-- `zeroBytes` inside `M` keeps every listed byte inside `M`. -/
theorem zeroBytes_inside (n count : Nat) : ∀ (a : Nat) (s : State), a + count ≤ n →
    memoryInside n s.mem = true → memoryInside n (zeroBytes a count s).mem = true := by
  induction count with
  | zero => intro a s _ h; exact h
  | succ k ih => intro a s ha h; exact ih (a + 1) _ (by omega) (memInsert_inside _ _ _ _ (by omega) h)

/-- `orBits` inside `M` keeps every listed byte inside `M`. -/
theorem orBits_inside (n db : Nat) (bits : List Bool) : ∀ (i : Nat) (s : State),
    8 * db + i + bits.length ≤ 8 * n → memoryInside n s.mem = true →
    memoryInside n (orBits db bits i s).mem = true := by
  induction bits with
  | nil => intro i s _ h; exact h
  | cons bit rest ih =>
    intro i s ha h
    simp only [List.length_cons] at ha
    exact ih (i + 1) _ (by omega) (memInsert_inside _ _ _ _ (by omega) h)

/-- `writeBits` on a valid destination range keeps every listed byte inside `M` (R163). -/
theorem writeBits_inside (n db off : Nat) (bits : List Bool) (s : State) (hne : 0 < bits.length)
    (ha : 8 * db + off + bits.length ≤ 8 * n) (h : memoryInside n s.mem = true) :
    memoryInside n (writeBits db off bits s).mem = true := by
  simp only [writeBits]
  exact orBits_inside n db bits off _ ha
    (zeroBytes_inside n _ _ _ (by omega) (memInsert_inside _ _ _ _ (by omega) h))

end Sys2Proof.Machine
end

