-- ==== Sys2Proof/Laws/Checks.lean ====
section
/-! SUPPORT. What each check answers (60_exceptions.md R162 to R165, R168), and what `appendAtDestination` does. -/

namespace Sys2Proof.Machine

/-- The address check passes inside `M` only. -/
theorem checkAddress_none_iff (s : State) (a : Word) : checkAddress s a = none ↔ a.toNat < s.cfg.memBytes := by
  by_cases h : a.toNat < s.cfg.memBytes <;> simp [checkAddress, addressInside, h]

/-- The address check raises nothing but `ADDR`. -/
theorem checkAddress_some_iff (s : State) (a : Word) (code : FaultCode) :
    checkAddress s a = some code ↔ s.cfg.memBytes ≤ a.toNat ∧ code = .addr := by
  by_cases h : a.toNat < s.cfg.memBytes
  · simp [checkAddress, addressInside, h]
  · have h' : s.cfg.memBytes ≤ a.toNat := by omega
    simp [checkAddress, addressInside, h, h', eq_comm]

/-- The source check passes on an empty range and on a valid one. -/
theorem checkSource_none_iff (s : State) (b i n : Nat) :
    checkSource s b i n = none ↔ n = 0 ∨ 8 * b + i + n ≤ 8 * s.cfg.memBytes := by
  by_cases h0 : n = 0 <;> by_cases h : 8 * b + i + n ≤ 8 * s.cfg.memBytes <;>
    simp [checkSource, rangeInside, h0, h]

/-- The spans meet where some byte lies in both (R40, R165). -/
theorem spansMeet_iff (b1 i1 n1 b2 i2 n2 : Nat) :
    spansMeet b1 i1 n1 b2 i2 n2 = true ↔
      0 < n1 ∧ 0 < n2 ∧ ∃ x, b1 + i1 / 8 ≤ x ∧ x ≤ b1 + (i1 + n1 - 1) / 8 ∧ b2 + i2 / 8 ≤ x ∧
        x ≤ b2 + (i2 + n2 - 1) / 8 := by
  simp only [spansMeet, Bool.and_eq_true, decide_eq_true_eq]
  constructor
  · rintro ⟨⟨⟨h1, h2⟩, h3⟩, h4⟩
    by_cases hle : b1 + i1 / 8 ≤ b2 + i2 / 8
    · exact ⟨h1, h2, b2 + i2 / 8, by omega⟩
    · exact ⟨h1, h2, b1 + i1 / 8, by omega⟩
  · rintro ⟨h1, h2, x, h3, h4, h5, h6⟩
    exact ⟨⟨⟨h1, h2⟩, by omega⟩, by omega⟩

/-- The copy check passes when both ranges are valid and the spans are disjoint (R102). -/
theorem checkCopy_none_iff (s : State) (sb so n db off c : Nat) :
    checkCopy s sb so n db off c = none ↔
      8 * sb + so + n ≤ 8 * s.cfg.memBytes ∧ 8 * db + off + c ≤ 8 * s.cfg.memBytes ∧
        spansMeet sb so n db off c = false := by
  by_cases h1 : 8 * sb + so + n ≤ 8 * s.cfg.memBytes <;>
    by_cases h2 : 8 * db + off + c ≤ 8 * s.cfg.memBytes <;>
      cases h3 : spansMeet sb so n db off c <;> simp [checkCopy, rangeInside, h1, h2, h3]

/-- The copy check raises `ADDR` for a range that is not valid, and `OVERLAP` after it (R102, R168). -/
theorem checkCopy_some_iff (s : State) (sb so n db off c : Nat) (code : FaultCode) :
    checkCopy s sb so n db off c = some code ↔
      ((8 * s.cfg.memBytes < 8 * sb + so + n ∨ 8 * s.cfg.memBytes < 8 * db + off + c) ∧ code = .addr) ∨
      (8 * sb + so + n ≤ 8 * s.cfg.memBytes ∧ 8 * db + off + c ≤ 8 * s.cfg.memBytes ∧
        spansMeet sb so n db off c = true ∧ code = .overlap) := by
  by_cases h1 : 8 * sb + so + n ≤ 8 * s.cfg.memBytes <;>
    by_cases h2 : 8 * db + off + c ≤ 8 * s.cfg.memBytes <;>
      cases h3 : spansMeet sb so n db off c <;>
        simp [checkCopy, rangeInside, h1, h2, h3, eq_comm] <;> omega

/-- A passed write check names a register. -/
theorem reg_of_checkWrite {number : BitVec 8} (h : checkWrite number = none) :
    ∃ r, regOfNumber number = some r ∧ regWritable r = true := by
  simp only [checkWrite] at h
  cases hr : regOfNumber number with
  | none => simp [hr] at h
  | some r =>
    cases hw : regWritable r with
    | false => simp [hr, hw] at h
    | true => exact ⟨r, rfl, hw⟩

/-- A passed read check names a register. -/
theorem reg_of_checkRead {number : BitVec 8} (h : checkRead number = none) : ∃ r, regOfNumber number = some r := by
  simp only [checkRead] at h
  cases hr : regOfNumber number with
  | none => simp [hr] at h
  | some r => exact ⟨r, rfl⟩

/-- A passed frame check names a scheme. -/
theorem scheme_of_checkFrame {s : State} {scheme sof : BitVec 3} (h : checkFrame s scheme sof = none) :
    ∃ sch, schemeOfCode scheme = some sch ∧ sofAllowed sch sof = true ∧
      checkSource s s.srcb.toNat s.srco.toNat s.len.toNat = none := by
  simp only [checkFrame] at h
  cases hx : schemeOfCode scheme with
  | none => simp [hx] at h
  | some sch =>
    cases ha : sofAllowed sch sof with
    | false => simp [hx, ha] at h
    | true => exact ⟨sch, rfl, ha, by simpa [hx, ha] using h⟩

/-- A passed arm check names a scheme, and the receive buffer lies in `M`. -/
theorem scheme_of_checkArm {s : State} {scheme : BitVec 3} (h : checkArm s scheme = none) :
    ∃ sch, schemeOfCode scheme = some sch ∧ s.dstb.toNat + s.cfg.rxCapBits / 8 ≤ s.cfg.memBytes := by
  simp only [checkArm] at h
  cases hx : schemeOfCode scheme with
  | none => simp [hx] at h
  | some sch =>
    by_cases hb : s.dstb.toNat + s.cfg.rxCapBits / 8 ≤ s.cfg.memBytes
    · exact ⟨sch, rfl, hb⟩
    · simp [hx, hb] at h

/-- `getBits` gives as many bits as it is asked for. -/
@[simp] theorem getBits_length (s : State) (b i n : Nat) : (getBits s b i n).length = n := by simp [getBits]

/-- The `k`-th of the bits read. -/
theorem getBits_getElem? (s : State) (b i n k : Nat) (h : k < n) :
    (getBits s b i n)[k]? = some (getBit s b (i + k)) := by
  simp [getBits, h]

/-- `BFB.ACX` writes `k + fix` bits (R104). -/
@[simp] theorem acxBits_length (s : State) (sb skip n : Nat) :
    (acxBits s sb skip n).length = acxTaken skip n + acxFix skip n := by
  simp [acxBits]

/-- Past its empty case `BFB.ACX` writes at least one bit. -/
theorem acx_count_pos (skip n : Nat) : 0 < acxTaken skip n + acxFix skip n := by
  unfold acxTaken acxFix
  split <;> omega

/-- `appendAtDestination` changes `M`, `DSTO` and the responses, nothing else. -/
theorem appendAtDestination_eq (bits : List Bool) (s : State) :
    appendAtDestination bits s =
      { s with
        mem := (writeBits s.dstb.toNat s.dsto.toNat bits s).mem
        dsto := BitVec.ofNat 16 (s.dsto.toNat + bits.length)
        responses := s.responses ++ [⟨.ok, 0#16⟩] } := by
  simp only [appendAtDestination, respond]
  rw [writeBits_eq]

end Sys2Proof.Machine
end

