-- ==== Sys2Proof/Laws/Command.lean ====
section
/-! SUPPORT. The common steps of a command and the fault state (60_exceptions.md R168 to R171): everything `command`
and `raiseFault` can do. -/

namespace Sys2Proof.Machine

/-- A mode is IDLE or RX. -/
theorem mode_idle_or_rx (s : State) : s.mode = .idle ∨ s.mode = .rx := by
  cases s.mode <;> simp

/-- In a block without fault, the entry of R169. -/
theorem raiseFault_of_faultFree (code : FaultCode) (s : State) (h : s.fault = false) :
    raiseFault code s =
      { s with fault := true, err := some code, responses := s.responses ++ [⟨.faulted, 0#16⟩] } := by
  simp [raiseFault, h, respond]

/-- In a faulted block, a refusal (R170). -/
theorem raiseFault_of_faulted (code : FaultCode) (s : State) (h : s.fault = true) :
    raiseFault code s = { s with responses := s.responses ++ [⟨.refused, 0#16⟩] } := by
  simp [raiseFault, h, respond]

/-- A command is held while `MODE = RX` (R131). -/
theorem command_of_rx (served : Bool) (check : Option FaultCode) (effect : State → State) (s : State)
    (h : s.mode = .rx) : command served check effect s = .next s := by
  simp [command, h]

/-- A command that fails a step raises that step's fault (R168). -/
theorem command_of_check (served : Bool) (code : FaultCode) (effect : State → State) (s : State)
    (h : s.mode = .idle) : command served (some code) effect s = .next (raiseFault code s) := by
  simp [command, h]

/-- A command that passes its checks in a block without fault is performed (R168 step 9). -/
theorem command_of_faultFree (served : Bool) (effect : State → State) (s : State) (h : s.mode = .idle)
    (hf : s.fault = false) : command served none effect s = .next (effect s) := by
  simp [command, h, hf]

/-- The commands a faulted block still serves are performed when they pass their checks (R170). -/
theorem command_of_served (effect : State → State) (s : State) (h : s.mode = .idle) :
    command true none effect s = .next (effect s) := by
  simp [command, h]

/-- Every other command is refused by a faulted block (R170). -/
theorem command_of_faulted (check : Option FaultCode) (effect : State → State) (s : State) (h : s.mode = .idle)
    (hf : s.fault = true) :
    command false check effect s = .next { s with responses := s.responses ++ [⟨.refused, 0#16⟩] } := by
  cases check with
  | none => simp [command, h, hf, respond]
  | some code => simp [command, h, raiseFault_of_faulted _ _ hf]

/-- Everything `command` can answer. -/
theorem command_cases {served : Bool} {check : Option FaultCode} {effect : State → State} {s t : State}
    (h : command served check effect s = .next t) :
    (s.mode = .rx ∧ t = s) ∨
    (s.mode = .idle ∧ ∃ code, check = some code ∧ t = raiseFault code s) ∨
    (s.mode = .idle ∧ check = none ∧ s.fault = true ∧ served = false ∧ t = respond .refused 0#16 s) ∨
    (s.mode = .idle ∧ check = none ∧ (s.fault = false ∨ served = true) ∧ t = effect s) := by
  rcases mode_idle_or_rx s with hm | hm
  · cases check with
    | some code =>
      rw [command_of_check _ _ _ _ hm] at h
      exact .inr (.inl ⟨hm, code, rfl, (Host.Outcome.next.inj h).symm⟩)
    | none =>
      cases hf : s.fault <;> cases hs : served <;> simp [command, hm, hf, hs] at h
      · exact .inr (.inr (.inr ⟨hm, rfl, .inl rfl, h.symm⟩))
      · exact .inr (.inr (.inr ⟨hm, rfl, .inl rfl, h.symm⟩))
      · exact .inr (.inr (.inl ⟨hm, rfl, rfl, rfl, h.symm⟩))
      · exact .inr (.inr (.inr ⟨hm, rfl, .inr rfl, h.symm⟩))
  · rw [command_of_rx _ _ _ _ hm] at h
    exact .inl ⟨hm, (Host.Outcome.next.inj h).symm⟩

/-- `command` always answers a next state. -/
theorem command_next (served : Bool) (check : Option FaultCode) (effect : State → State) (s : State) :
    ∃ t, command served check effect s = .next t := by
  unfold command
  split
  · exact ⟨_, rfl⟩
  · split
    · exact ⟨_, rfl⟩
    · split <;> exact ⟨_, rfl⟩

end Sys2Proof.Machine
end

