-- ==== Sys2Proof/Laws/Decoder.lean ====
section
/-! SUPPORT. What storing a raw bit does (44_decoder.md R136): `storeRaw` field by field and bit by bit, and
everything `putRaw` can do. -/

namespace Sys2Proof.Machine

/-- `storeRaw` changes nothing but `M`, `RXLEN` and `LAST`. -/
theorem storeRaw_eq (bit : Bool) (s : State) :
    storeRaw bit s = { s with mem := (storeRaw bit s).mem, rxlen := s.rxlen + 1#16, last := bit } := by
  simp only [storeRaw]
  split <;> rfl

/-- `RXLEN` counts the stored bit (R26). -/
@[simp] theorem storeRaw_rxlen (bit : Bool) (s : State) : (storeRaw bit s).rxlen = s.rxlen + 1#16 := by
  rw [storeRaw_eq]

/-- `LAST` is the bit stored (R136). -/
@[simp] theorem storeRaw_last (bit : Bool) (s : State) : (storeRaw bit s).last = bit := by
  rw [storeRaw_eq]

/-- `storeRaw` keeps the configuration. -/
@[simp] theorem storeRaw_cfg (bit : Bool) (s : State) : (storeRaw bit s).cfg = s.cfg := by
  rw [storeRaw_eq]

/-- `storeRaw` keeps the mode. -/
@[simp] theorem storeRaw_mode (bit : Bool) (s : State) : (storeRaw bit s).mode = s.mode := by
  rw [storeRaw_eq]

/-- `storeRaw` keeps the buffer's place. -/
@[simp] theorem storeRaw_rxbase (bit : Bool) (s : State) : (storeRaw bit s).rxbase = s.rxbase := by
  rw [storeRaw_eq]

/-- `storeRaw` keeps the power-on. -/
@[simp] theorem storeRaw_powerOn (bit : Bool) (s : State) : (storeRaw bit s).powerOn = s.powerOn := by
  rw [storeRaw_eq]

/-- `storeRaw` keeps `DSTB`. -/
@[simp] theorem storeRaw_dstb (bit : Bool) (s : State) : (storeRaw bit s).dstb = s.dstb := by
  rw [storeRaw_eq]

/-- `storeRaw` keeps `DSTO`. -/
@[simp] theorem storeRaw_dsto (bit : Bool) (s : State) : (storeRaw bit s).dsto = s.dsto := by
  rw [storeRaw_eq]

/-- `storeRaw` keeps `SRCB`. -/
@[simp] theorem storeRaw_srcb (bit : Bool) (s : State) : (storeRaw bit s).srcb = s.srcb := by
  rw [storeRaw_eq]

/-- `storeRaw` keeps `SRCO`. -/
@[simp] theorem storeRaw_srco (bit : Bool) (s : State) : (storeRaw bit s).srco = s.srco := by
  rw [storeRaw_eq]

/-- `storeRaw` keeps `LEN`. -/
@[simp] theorem storeRaw_len (bit : Bool) (s : State) : (storeRaw bit s).len = s.len := by
  rw [storeRaw_eq]

/-- `storeRaw` keeps `CRC`. -/
@[simp] theorem storeRaw_crc (bit : Bool) (s : State) : (storeRaw bit s).crc = s.crc := by
  rw [storeRaw_eq]

/-- `storeRaw` keeps `FAULT`. -/
@[simp] theorem storeRaw_fault (bit : Bool) (s : State) : (storeRaw bit s).fault = s.fault := by
  rw [storeRaw_eq]

/-- `storeRaw` keeps `ERR`. -/
@[simp] theorem storeRaw_err (bit : Bool) (s : State) : (storeRaw bit s).err = s.err := by
  rw [storeRaw_eq]

/-- `storeRaw` keeps `LINE`. -/
@[simp] theorem storeRaw_line (bit : Bool) (s : State) : (storeRaw bit s).line = s.line := by
  rw [storeRaw_eq]

/-- `storeRaw` keeps `RXEND`. -/
@[simp] theorem storeRaw_rxend (bit : Bool) (s : State) : (storeRaw bit s).rxend = s.rxend := by
  rw [storeRaw_eq]

/-- `storeRaw` keeps `SKIP`. -/
@[simp] theorem storeRaw_skip (bit : Bool) (s : State) : (storeRaw bit s).skip = s.skip := by
  rw [storeRaw_eq]

/-- `storeRaw` keeps `NOISE`. -/
@[simp] theorem storeRaw_noise (bit : Bool) (s : State) : (storeRaw bit s).noise = s.noise := by
  rw [storeRaw_eq]

/-- `storeRaw` keeps the scheme. -/
@[simp] theorem storeRaw_rxsch (bit : Bool) (s : State) : (storeRaw bit s).rxsch = s.rxsch := by
  rw [storeRaw_eq]

/-- `storeRaw` keeps the ports. -/
@[simp] theorem storeRaw_inputs (bit : Bool) (s : State) : (storeRaw bit s).inputs = s.inputs := by
  rw [storeRaw_eq]

/-- `storeRaw` keeps the responses. -/
@[simp] theorem storeRaw_responses (bit : Bool) (s : State) : (storeRaw bit s).responses = s.responses := by
  rw [storeRaw_eq]

/-- `storeRaw` keeps the line trace. -/
@[simp] theorem storeRaw_lineTrace (bit : Bool) (s : State) : (storeRaw bit s).lineTrace = s.lineTrace := by
  rw [storeRaw_eq]

/-- The bits of `M` after a store: the new bit in its place, a newly touched byte otherwise zero, every other bit as
before. -/
theorem getBit_storeRaw (bit : Bool) (s : State) (g : Nat) :
    getBit (storeRaw bit s) 0 g =
      if g = 8 * s.rxbase.toNat + s.rxlen.toNat then
        (bit || (decide (s.rxlen.toNat % 8 ≠ 0) && getBit s 0 g))
      else if s.rxlen.toNat % 8 = 0 ∧ g / 8 = s.rxbase.toNat + s.rxlen.toNat / 8 then false
      else getBit s 0 g := by
  have hread : ∀ t : State, getBit { t with rxlen := s.rxlen + 1#16, last := bit } 0 g = getBit t 0 g :=
    fun t => getBit_congr _ _ rfl rfl 0 g
  have hk : 7 - g % 8 < 8 := by omega
  by_cases hfresh : s.rxlen.toNat % 8 = 0
  · have hz : (0x00#8 : Byte).getLsbD (7 - g % 8) = false := by simp
    simp only [storeRaw, if_pos hfresh, hread, getBit_memWrite, BitVec.getLsbD_or, getLsbD_bitPlace bit _ _ hk,
      memRead_memWrite, hz]
    by_cases hbyte : s.rxbase.toNat + s.rxlen.toNat / 8 = 0 + g / 8
    · rw [if_pos hbyte]
      by_cases hg : g = 8 * s.rxbase.toNat + s.rxlen.toNat
      · rw [if_pos hg]
        have h7 : 7 - g % 8 = 7 - s.rxlen.toNat % 8 := by omega
        simp [h7, hfresh]
      · have hp : s.rxlen.toNat % 8 = 0 ∧ g / 8 = s.rxbase.toNat + s.rxlen.toNat / 8 := ⟨hfresh, by omega⟩
        rw [if_neg hg, if_pos hp]
        have h7 : ¬ 7 - g % 8 = 7 - s.rxlen.toNat % 8 := by omega
        simp [h7]
    · have hg : g ≠ 8 * s.rxbase.toNat + s.rxlen.toNat := by omega
      have hp : ¬ (s.rxlen.toNat % 8 = 0 ∧ g / 8 = s.rxbase.toNat + s.rxlen.toNat / 8) := by omega
      rw [if_neg hbyte, if_neg hbyte, if_neg hg, if_neg hp]
  · simp only [storeRaw, if_neg hfresh, hread, getBit_memWrite, BitVec.getLsbD_or, getLsbD_bitPlace bit _ _ hk]
    have hp : ¬ (s.rxlen.toNat % 8 = 0 ∧ g / 8 = s.rxbase.toNat + s.rxlen.toNat / 8) := fun h => hfresh h.1
    rw [if_neg hp]
    by_cases hbyte : s.rxbase.toNat + s.rxlen.toNat / 8 = 0 + g / 8
    · have hrd : (memRead s (s.rxbase.toNat + s.rxlen.toNat / 8)).getLsbD (7 - g % 8) = getBit s 0 g := by
        simp only [getBit, hbyte]
      rw [if_pos hbyte, hrd]
      by_cases hg : g = 8 * s.rxbase.toNat + s.rxlen.toNat
      · rw [if_pos hg]
        have h7 : 7 - g % 8 = 7 - s.rxlen.toNat % 8 := by omega
        rw [h7, Bool.or_comm]
        simp [hfresh]
      · rw [if_neg hg]
        have h7 : ¬ 7 - g % 8 = 7 - s.rxlen.toNat % 8 := by omega
        simp [h7]
    · have hg : g ≠ 8 * s.rxbase.toNat + s.rxlen.toNat := by omega
      rw [if_neg hbyte, if_neg hg]

/-- Bytes other than the one stored to are as before. -/
theorem memRead_storeRaw_outside (bit : Bool) (s : State) (a : Nat)
    (ha : a ≠ s.rxbase.toNat + s.rxlen.toNat / 8) : memRead (storeRaw bit s) a = memRead s a := by
  apply memRead_eq_of_bits
  intro g hg
  rw [getBit_storeRaw, if_neg (by omega), if_neg (by omega)]

/-- A store keeps the canonical form. -/
theorem storeRaw_wf (bit : Bool) (s : State) (h : Memory.wf s.mem = true) :
    Memory.wf (storeRaw bit s).mem = true := by
  simp only [storeRaw]
  split
  · exact memInsert_wf _ _ _ (memInsert_wf _ _ _ h)
  · exact memInsert_wf _ _ _ h

/-- A store inside `M` keeps every listed byte inside `M`. -/
theorem storeRaw_inside (n : Nat) (bit : Bool) (s : State) (ha : s.rxbase.toNat + s.rxlen.toNat / 8 < n)
    (h : memoryInside n s.mem = true) : memoryInside n (storeRaw bit s).mem = true := by
  simp only [storeRaw]
  split
  · exact memInsert_inside _ _ _ _ ha (memInsert_inside _ _ _ _ ha h)
  · exact memInsert_inside _ _ _ _ ha h

/-- Outside a cycle `PutRaw` does nothing (R136, R143). -/
theorem putRaw_of_idle (bit : Bool) (s : State) (h : s.mode = .idle) : putRaw bit s = .ok s := by
  simp [putRaw, h]

/-- In a cycle, with the byte inside `M`, `PutRaw` stores and ends the cycle when the buffer is full (R136, R143). -/
theorem putRaw_of_rx (bit : Bool) (s : State) (h : s.mode = .rx)
    (ha : s.rxbase.toNat + s.rxlen.toNat / 8 < s.cfg.memBytes) :
    putRaw bit s = .ok (if (s.rxlen + 1#16).toNat = s.cfg.rxCapBits then endCycle .full (storeRaw bit s)
      else storeRaw bit s) := by
  simp [putRaw, h, addressInside, ha]

/-- Everything `putRaw` can answer. -/
theorem putRaw_cases {bit : Bool} {s t : State} (h : putRaw bit s = .ok t) :
    (s.mode = .idle ∧ t = s) ∨
    (s.mode = .rx ∧ s.rxbase.toNat + s.rxlen.toNat / 8 < s.cfg.memBytes ∧
      (((s.rxlen + 1#16).toNat = s.cfg.rxCapBits ∧ t = endCycle .full (storeRaw bit s)) ∨
       ((s.rxlen + 1#16).toNat ≠ s.cfg.rxCapBits ∧ t = storeRaw bit s))) := by
  cases hm : s.mode with
  | idle =>
    rw [putRaw_of_idle _ _ hm] at h
    exact .inl ⟨rfl, (Except.ok.inj h).symm⟩
  | rx =>
    by_cases ha : s.rxbase.toNat + s.rxlen.toNat / 8 < s.cfg.memBytes
    · rw [putRaw_of_rx _ _ hm ha] at h
      have ht := (Except.ok.inj h).symm
      by_cases hc : (s.rxlen + 1#16).toNat = s.cfg.rxCapBits
      · rw [if_pos hc] at ht
        exact .inr ⟨rfl, ha, .inl ⟨hc, ht⟩⟩
      · rw [if_neg hc] at ht
        exact .inr ⟨rfl, ha, .inr ⟨hc, ht⟩⟩
    · simp [putRaw, hm, addressInside, ha] at h

end Sys2Proof.Machine
end

