-- ==== Sys2Proof/Laws/Encoder.lean ====
section
/-! SUPPORT. What a whole frame does to the line and its trace (43_encoder.md R110, R111). -/

namespace Sys2Proof.Machine

/-- A segment as an entry of the line trace. -/
def traceEntry (g : Level × Nat) : LineEvent := .segment g.1 g.2

/-- Emitting a list of segments appends them to the trace; nothing but the trace and the level changes. -/
theorem foldl_emit (segments : List (Level × Nat)) : ∀ s : State,
    segments.foldl emit s =
      { s with
        lineTrace := s.lineTrace ++ segments.map traceEntry
        line := (segments.foldl emit s).line } := by
  induction segments with
  | nil => intro s; simp
  | cons g rest ih =>
    intro s
    have h := ih (emit s g)
    simp only [List.foldl_cons]
    rw [h]
    simp [emit, traceEntry]

/-- A frame adds its segments and the end mark to the trace and leaves the line LOW (R110, R117). -/
theorem endFrame_foldl_emit (segments : List (Level × Nat)) (s : State) :
    endFrame (segments.foldl emit s) =
      { s with
        lineTrace := s.lineTrace ++ segments.map traceEntry ++ [.rest]
        line := .low } := by
  rw [foldl_emit]
  rfl

end Sys2Proof.Machine
end

