-- ==== Sys2Proof/Laws/Exec.lean ====
section
/-! SUPPORT. What an instruction can do, said once: every command is `command` with its check and its effect, every
event is `execEdge` or `execTimeout`; and what the step takes from the ports. -/

namespace Sys2Proof.Machine

/-- The commands a faulted block performs (R170). -/
def servedInFault : Instr → Bool
  | .nop => true
  | .setr _ _ => false
  | .getr _ => true
  | .mwr _ _ => false
  | .mrd _ => true
  | .reset => true
  | .crcInit => false
  | .crcByte _ _ => false
  | .crcBuf => false
  | .bfbAppend => false
  | .bfbAcx => false
  | .encFrame _ _ => false
  | .decArm _ => false
  | .edge _ => false
  | .timeout => false

/-- The first failing check of a command (R168 steps 3 to 7). -/
def checkOf (s : State) : Instr → Option FaultCode
  | .nop => none
  | .setr reg _ => checkWrite reg
  | .getr reg => checkRead reg
  | .mwr addr16 _ => checkAddress s addr16
  | .mrd addr16 => checkAddress s addr16
  | .reset => none
  | .crcInit => none
  | .crcByte n _ => checkStepCount n
  | .crcBuf => checkSource s s.srcb.toNat 0 s.len.toNat
  | .bfbAppend => checkAppend s
  | .bfbAcx => checkAcx s
  | .encFrame scheme sof => checkFrame s scheme sof
  | .decArm scheme => checkArm s scheme
  | .edge _ => none
  | .timeout => none

/-- What a command that passes its checks does. -/
def effectOf : Instr → State → State
  | .nop => respond .ok 0#16
  | .setr reg imm16 => fun t =>
    match regOfNumber reg with
    | none => t
    | some r => respond .ok 0#16 (writeReg r imm16 t)
  | .getr reg => fun t =>
    match regOfNumber reg with
    | none => t
    | some r => respond .ok (readReg t r) t
  | .mwr addr16 data8 => fun t => respond .ok 0#16 (memWrite addr16.toNat data8 t)
  | .mrd addr16 => fun t => respond .ok ((memRead t addr16.toNat).zeroExtend 16) t
  | .reset => fun t => respond .ok 0#16 (resetRegisters t)
  | .crcInit => fun t => respond .ok 0#16 { t with crc := 0xFF#8 }
  | .crcByte n data8 => fun t => respond .ok 0#16 { t with crc := crcStep t.crc data8 n.toNat }
  | .crcBuf => fun t => respond .ok 0#16 { t with crc := crcBuffer t t.srcb.toNat t.len.toNat t.crc }
  | .bfbAppend => fun t =>
    if t.len.toNat = 0 then respond .ok 0#16 t
    else appendAtDestination (getBits t t.srcb.toNat t.srco.toNat t.len.toNat) t
  | .bfbAcx => fun t =>
    if t.len.toNat < t.srco.toNat then respond .ok 0#16 t
    else appendAtDestination (acxBits t t.srcb.toNat t.srco.toNat t.len.toNat) t
  | .encFrame scheme sof => fun t =>
    match schemeOfCode scheme with
    | none => t
    | some sch =>
      respond .ok 0#16
        (endFrame
          ((frameSegments t.cfg sch sof.toNat (getBits t t.srcb.toNat t.srco.toNat t.len.toNat)).foldl emit t))
  | .decArm scheme => fun t =>
    match schemeOfCode scheme with
    | none => t
    | some sch => startCycle sch t
  | .edge _ => fun t => t
  | .timeout => fun t => t

/-- Every command has the common steps of R168 with its own check and effect. -/
theorem exec_command (i : Instr) (s : State) (h : i.isEvent = false) :
    exec i s = command (servedInFault i) (checkOf s i) (effectOf i) s := by
  cases i with
  | edge n => exact absurd h (by simp [Instr.isEvent])
  | timeout => exact absurd h (by simp [Instr.isEvent])
  | _ => rfl

/-- A command is held while `MODE = RX` (R131). -/
theorem exec_held (i : Instr) (s : State) (hm : s.mode = .rx) (h : i.isEvent = false) : exec i s = .next s := by
  rw [exec_command i s h]
  exact command_of_rx _ _ _ _ hm

/-- An event is dropped while `MODE = IDLE` (R131). -/
theorem exec_dropped (i : Instr) (s : State) (hm : s.mode = .idle) (h : i.isEvent = true) : exec i s = .next s := by
  cases i with
  | edge n => simp [exec, execEdge, hm]
  | timeout => simp [exec, execTimeout, hm]
  | _ => exact absurd h (by simp [Instr.isEvent])

/-- Everything an instruction can do. -/
theorem exec_cases {i : Instr} {s t : State} (h : exec i s = .next t) :
    t = s ∨
    (s.mode = .idle ∧ i.isEvent = false ∧ ∃ code, checkOf s i = some code ∧ t = raiseFault code s) ∨
    (s.mode = .idle ∧ i.isEvent = false ∧ checkOf s i = none ∧ s.fault = true ∧ servedInFault i = false ∧
      t = respond .refused 0#16 s) ∨
    (s.mode = .idle ∧ i.isEvent = false ∧ checkOf s i = none ∧ (s.fault = false ∨ servedInFault i = true) ∧
      t = effectOf i s) ∨
    (s.mode = .rx ∧ i = .timeout ∧ t = endCycle .timeout s) ∨
    (s.mode = .rx ∧ ∃ n, i = .edge n ∧ onEdge n s = .ok t) := by
  cases he : i.isEvent with
  | false =>
    rw [exec_command i s he] at h
    rcases command_cases h with ⟨_, ht⟩ | ⟨hm, code, hc, ht⟩ | ⟨hm, hc, hf, hs, ht⟩ | ⟨hm, hc, hf, ht⟩
    · exact .inl ht
    · exact .inr (.inl ⟨hm, rfl, code, hc, ht⟩)
    · exact .inr (.inr (.inl ⟨hm, rfl, hc, hf, hs, ht⟩))
    · exact .inr (.inr (.inr (.inl ⟨hm, rfl, hc, hf, ht⟩)))
  | true =>
    rcases mode_idle_or_rx s with hm | hm
    · rw [exec_dropped i s hm he] at h
      exact .inl (Host.Outcome.next.inj h).symm
    · cases i with
      | timeout =>
        simp only [exec, execTimeout, hm, if_true] at h
        exact .inr (.inr (.inr (.inr (.inl ⟨hm, rfl, (Host.Outcome.next.inj h).symm⟩))))
      | edge n =>
        simp only [exec, execEdge, hm, if_true] at h
        cases hn : onEdge n s with
        | error f => simp [hn] at h
        | ok u =>
          simp only [hn] at h
          have hu := Host.Outcome.next.inj h
          subst hu
          exact .inr (.inr (.inr (.inr (.inr ⟨hm, n, rfl, hn⟩))))
      | _ => exact absurd he (by simp [Instr.isEvent])

/-! ### The ports -/

/-- Command words before the first event stay held, in order (R131). -/
theorem takeEvent_append (held : List PortWord) (hh : ∀ w ∈ held, w.isEvent = false) (e : EventWord)
    (rest : List PortWord) : takeEvent (held ++ .event e :: rest) = some (.event e, held ++ rest) := by
  induction held with
  | nil => rfl
  | cons w ws ih =>
    cases w with
    | event x => exact absurd (hh _ (List.mem_cons_self ..)) (by simp [PortWord.isEvent])
    | command c =>
      have h := ih fun w hw => hh w (List.mem_cons_of_mem _ hw)
      simp [takeEvent, h]

/-- Where only commands wait there is no event to take. -/
theorem takeEvent_of_commands (held : List PortWord) (hh : ∀ w ∈ held, w.isEvent = false) :
    takeEvent held = none := by
  induction held with
  | nil => rfl
  | cons w ws ih =>
    cases w with
    | event x => exact absurd (hh _ (List.mem_cons_self ..)) (by simp [PortWord.isEvent])
    | command c =>
      have h := ih fun w hw => hh w (List.mem_cons_of_mem _ hw)
      simp [takeEvent, h]

/-- What `takeEvent` takes is an event, and every command word waits as before. -/
theorem takeEvent_cases {inputs left : List PortWord} {w : PortWord} (h : takeEvent inputs = some (w, left)) :
    (∃ e, w = .event e) ∧ (left.filter fun p => !p.isEvent) = inputs.filter fun p => !p.isEvent := by
  induction inputs generalizing left with
  | nil => simp [takeEvent] at h
  | cons x xs ih =>
    cases x with
    | event e =>
      simp only [takeEvent, Option.some.injEq, Prod.mk.injEq] at h
      obtain ⟨rfl, rfl⟩ := h
      exact ⟨⟨e, rfl⟩, by simp [PortWord.isEvent]⟩
    | command c =>
      simp only [takeEvent] at h
      cases ht : takeEvent xs with
      | none => simp [ht] at h
      | some p =>
        obtain ⟨e, l⟩ := p
        simp only [ht, Option.some.injEq, Prod.mk.injEq] at h
        obtain ⟨rfl, rfl⟩ := h
        have hi := ih ht
        exact ⟨hi.1, by simpa [PortWord.isEvent] using hi.2⟩

/-- A must-be-zero check does not change the command. -/
theorem whenZero_ok {z : Bool} {i j : Instr} (h : whenZero z i = .ok j) : j = i := by
  cases z
  · simp [whenZero] at h
  · simp only [whenZero, if_true, Except.ok.injEq] at h
    exact h.symm

/-- One row of the opcode map: its answer or that of the rows after it. -/
theorem ite_ok {p : Prop} [Decidable p] {a b : Except Illegal Instr} {i : Instr} (h : (if p then a else b) = .ok i) :
    a = .ok i ∨ b = .ok i := by
  by_cases hp : p
  · exact .inl (by rwa [if_pos hp] at h)
  · exact .inr (by rwa [if_neg hp] at h)

/-- The command port carries no event (R60, R69). -/
theorem decodeCommand_isEvent {w : CommandWord} {i : Instr} (h : decodeCommand w = .ok i) : i.isEvent = false := by
  rcases ite_ok h with h | h
  · rw [whenZero_ok h]; rfl
  rcases ite_ok h with h | h
  · cases h; rfl
  rcases ite_ok h with h | h
  · rw [whenZero_ok h]; rfl
  rcases ite_ok h with h | h
  · cases h; rfl
  iterate 9
    rcases ite_ok h with h | h
    · rw [whenZero_ok h]; rfl
  cases h

/-- The edge port carries no command (R67, R69). -/
theorem decodeEvent_isEvent (e : EventWord) : (decodeEvent e).isEvent = true := by
  simp only [decodeEvent]
  split <;> rfl

/-- In IDLE the first word that arrived is taken. -/
theorem nextWord_of_idle (s : State) (w : PortWord) (left : List PortWord) (hm : s.mode = .idle)
    (hi : s.inputs = w :: left) : nextWord s = some (w, { s with inputs := left }) := by
  simp [nextWord, hm, hi]

/-- In IDLE with nothing waiting nothing is taken. -/
theorem nextWord_of_idle_empty (s : State) (hm : s.mode = .idle) (hi : s.inputs = []) : nextWord s = none := by
  simp [nextWord, hm, hi]

/-- In RX what `takeEvent` finds is taken. -/
theorem nextWord_of_rx (s : State) (hm : s.mode = .rx) :
    nextWord s = (takeEvent s.inputs).map fun p => (p.1, { s with inputs := p.2 }) := by
  simp only [nextWord, hm]
  cases takeEvent s.inputs <;> simp

/-- Everything a step can do: wait, take a word of an open port and perform it, or reject it. -/
theorem step_cases {s t : State} (h : step s = .next t) :
    (t = s) ∨
    (∃ w left, s.mode = .idle ∧ s.inputs = w :: left ∧
      ((∃ i, decode w = .ok i ∧ exec i { s with inputs := left } = .next t) ∨
       (∃ why, decode w = .error why ∧ t = raiseFault .illegal { s with inputs := left }))) ∨
    (∃ e left, s.mode = .rx ∧ takeEvent s.inputs = some (.event e, left) ∧
      exec (decodeEvent e) { s with inputs := left } = .next t) := by
  rcases mode_idle_or_rx s with hm | hm
  · cases hi : s.inputs with
    | nil =>
      simp only [step, nextWord_of_idle_empty s hm hi] at h
      exact .inl (Host.Outcome.next.inj h).symm
    | cons w left =>
      simp only [step, nextWord_of_idle s w left hm hi] at h
      cases hd : decode w with
      | ok i =>
        simp only [hd] at h
        exact .inr (.inl ⟨w, left, hm, rfl, .inl ⟨i, hd, h⟩⟩)
      | error why =>
        simp only [hd] at h
        refine .inr (.inl ⟨w, left, hm, rfl, .inr ⟨why, hd, ?_⟩⟩)
        cases why <;> exact (Host.Outcome.next.inj h).symm
  · cases ht : takeEvent s.inputs with
    | none =>
      simp only [step, nextWord_of_rx s hm, ht, Option.map_none] at h
      exact .inl (Host.Outcome.next.inj h).symm
    | some p =>
      obtain ⟨w, left⟩ := p
      obtain ⟨⟨e, rfl⟩, _⟩ := takeEvent_cases ht
      simp only [step, nextWord_of_rx s hm, ht, Option.map_some, decode] at h
      exact .inr (.inr ⟨e, left, hm, rfl, h⟩)

end Sys2Proof.Machine
end

