-- ==== Sys2Proof/Laws/Deadline.lean ====
section
/-! SUPPORT. What `cycleEnds`, `runSteps` and `DeadlineKept` say (70_reset_and_hazards.md R187). -/

namespace Sys2Proof.Machine

/-- One step and then `k`. -/
theorem runSteps_succ {s t : State} (h : step s = .next t) (k : Nat) : runSteps (k + 1) s = runSteps k t := by
  simp only [runSteps, h]

/-- The deadline stays kept along a run. -/
theorem DeadlineKept_step {s t : State} (hd : DeadlineKept s) (h : step s = .next t) : DeadlineKept t := by
  intro k u hu hm
  exact hd (k + 1) u (by rw [runSteps_succ h]; exact hu) hm

/-- With the deadline kept, the words that wait in a running cycle end it. -/
theorem DeadlineKept_now {s : State} (hd : DeadlineKept s) (hm : s.mode = .rx) : cycleEnds s s.inputs = true :=
  hd 0 s rfl hm

/-- Words that end a running cycle hold an event, the one the step takes. -/
theorem takeEvent_of_cycleEnds {s : State} (hm : s.mode = .rx) (words : List PortWord)
    (h : cycleEnds s words = true) : ∃ e left, takeEvent words = some (.event e, left) ∧
      left.length + 1 = words.length := by
  induction words with
  | nil => simp [cycleEnds, hm] at h
  | cons w rest ih =>
    cases w with
    | event e => exact ⟨e, rest, rfl, rfl⟩
    | command c =>
      obtain ⟨e, left, ht, hl⟩ := ih h
      exact ⟨e, .command c :: left, by simp [takeEvent, ht], by simp [hl]⟩

end Sys2Proof.Machine
end

