-- ==== Sys2Proof/Laws/Encoding.lean ====
section
/-! SUPPORT. The formats as numbers (30_encoding.md R61 to R65, R67): each field at its place. -/

namespace Sys2Proof

/-- Concatenation as a number. -/
theorem toNat_append_eq {m n : Nat} (x : BitVec m) (y : BitVec n) :
    (x ++ y).toNat = x.toNat * 2 ^ n + y.toNat := by
  rw [BitVec.toNat_append, ← Nat.shiftLeft_add_eq_or_of_lt y.isLt, Nat.shiftLeft_eq]

/-- A field as a number. -/
theorem toNat_field {w : Nat} (x : BitVec w) (lo n : Nat) :
    (x.extractLsb' lo n).toNat = x.toNat / 2 ^ lo % 2 ^ n := by
  rw [BitVec.extractLsb'_toNat, Nat.shiftRight_eq_div_pow]

/-- Format Z as a number. -/
theorem formatZ_toNat (op : BitVec 8) : (formatZ op).toNat = op.toNat * 2 ^ 24 := by
  have h := toNat_append_eq op 0#24
  simpa [formatZ] using h

/-- Format R as a number. -/
theorem formatR_toNat (op reg : BitVec 8) (imm16 : Word) :
    (formatR op reg imm16).toNat = (op.toNat * 2 ^ 8 + reg.toNat) * 2 ^ 16 + imm16.toNat := by
  have h1 := toNat_append_eq op reg
  have h2 := toNat_append_eq (op ++ reg) imm16
  rw [h1] at h2
  exact h2

/-- Format W as a number. -/
theorem formatW_toNat (op : BitVec 8) (addr16 : Word) (data8 : Byte) :
    (formatW op addr16 data8).toNat = (op.toNat * 2 ^ 16 + addr16.toNat) * 2 ^ 8 + data8.toNat := by
  have h1 := toNat_append_eq op addr16
  have h2 := toNat_append_eq (op ++ addr16) data8
  rw [h1] at h2
  exact h2

/-- Format C as a number. -/
theorem formatC_toNat (op : BitVec 8) (n : BitVec 4) (data8 : Byte) :
    (formatC op n data8).toNat = (op.toNat * 2 ^ 12 * 2 ^ 4 + n.toNat) * 2 ^ 8 + data8.toNat := by
  have h1 := toNat_append_eq op 0#12
  have h2 := toNat_append_eq (op ++ 0#12) n
  have h3 := toNat_append_eq (op ++ 0#12 ++ n) data8
  rw [h2, h1] at h3
  simpa [formatC] using h3

/-- Format S as a number. -/
theorem formatS_toNat (op : BitVec 8) (scheme sof : BitVec 3) :
    (formatS op scheme sof).toNat = ((op.toNat * 2 ^ 3 + scheme.toNat) * 2 ^ 3 + sof.toNat) * 2 ^ 18 := by
  have h1 := toNat_append_eq op scheme
  have h2 := toNat_append_eq (op ++ scheme) sof
  have h3 := toNat_append_eq (op ++ scheme ++ sof) 0#18
  rw [h2, h1] at h3
  simpa [formatS] using h3

end Sys2Proof
end

