-- ==== Sys2Proof/Laws/Invariant.lean ====
section
/-! SUPPORT. The shared operations keep `State.Inv`, and in states that meet it no store of the decoder can fail. -/

namespace Sys2Proof.Machine

/-- In IDLE the invariant says nothing about a running cycle. -/
theorem inv_of_idle {s t : State} (hs : s.Inv) (hm : t.mode = .idle) (hc : t.cfg = s.cfg)
    (hw : Memory.wf t.mem = true) (hi : memoryInside s.cfg.memBytes t.mem = true)
    (he : t.err.isSome = t.fault) (hl : t.line = .low) (hr : t.rxlen.toNat ≤ s.cfg.rxCapBits)
    (hn : t.noise.toNat ≤ s.cfg.noiseMax + 1) : t.Inv := by
  have hx : ¬ t.mode = .rx := by rw [hm]; exact fun h => Mode.noConfusion h
  refine ⟨by rw [hc]; exact hs.cfgValid, hw, by rw [hc]; exact hi, he, hl, by rw [hc]; exact hr,
    by rw [hc]; exact hn, ?_, ?_, ?_, ?_, ?_, ?_⟩ <;> exact fun h => absurd h hx

/-- The ports do not matter to the invariant. -/
theorem inv_inputs {s : State} (hs : s.Inv) (words : List PortWord) : State.Inv { s with inputs := words } :=
  ⟨hs.1, hs.2, hs.3, hs.4, hs.5, hs.6, hs.7, hs.8, hs.9, hs.10, hs.11, hs.12, hs.13⟩

/-- The responses do not matter to the invariant. -/
theorem inv_responses {s : State} (hs : s.Inv) (r : List Response) : State.Inv { s with responses := r } :=
  ⟨hs.1, hs.2, hs.3, hs.4, hs.5, hs.6, hs.7, hs.8, hs.9, hs.10, hs.11, hs.12, hs.13⟩

/-- `SKIP` does not matter to the invariant. -/
theorem inv_skip {s : State} (hs : s.Inv) (b : Bool) : State.Inv { s with skip := b } :=
  ⟨hs.1, hs.2, hs.3, hs.4, hs.5, hs.6, hs.7, hs.8, hs.9, hs.10, hs.11, hs.12, hs.13⟩

/-- The fault entry keeps the invariant. -/
theorem raiseFault_inv {s : State} (hs : s.Inv) (hm : s.mode = .idle) (code : FaultCode) :
    (raiseFault code s).Inv := by
  cases hf : s.fault with
  | false =>
    rw [raiseFault_of_faultFree _ _ hf]
    exact inv_of_idle hs hm rfl hs.2 hs.3 rfl hs.5 hs.6 hs.7
  | true =>
    rw [raiseFault_of_faulted _ _ hf]
    exact inv_responses hs _

/-- Writing bits at a valid destination keeps the invariant. -/
theorem appendAtDestination_inv {s : State} (hs : s.Inv) (hm : s.mode = .idle) (bits : List Bool)
    (hn : 0 < bits.length) (hb : 8 * s.dstb.toNat + s.dsto.toNat + bits.length ≤ 8 * s.cfg.memBytes) :
    (appendAtDestination bits s).Inv := by
  rw [appendAtDestination_eq]
  exact inv_of_idle hs hm rfl (writeBits_wf _ _ _ _ hs.2) (writeBits_inside _ _ _ _ _ hn hb hs.3) hs.4 hs.5 hs.6 hs.7

/-- In a running cycle the next raw bit has its place inside `M`, and `RXLEN` does not wrap. -/
theorem receive_place {s : State} (hs : s.Inv) (hm : s.mode = .rx) :
    s.rxbase.toNat + s.rxlen.toNat / 8 < s.cfg.memBytes ∧ (s.rxlen + 1#16).toNat = s.rxlen.toNat + 1 := by
  have h1 := hs.rxBuffer hm
  have h2 := hs.rxNotFull hm
  have h3 := hs.cfgValid.2.1
  have h4 := hs.cfgValid.1
  refine ⟨by omega, ?_⟩
  rw [BitVec.toNat_add, BitVec.toNat_ofNat]
  omega

/-- In a running cycle `NOISE` does not wrap. -/
theorem noise_succ {s : State} (hs : s.Inv) (hm : s.mode = .rx) : (s.noise + 1#16).toNat = s.noise.toNat + 1 := by
  have h1 := hs.rxNoise hm
  have h2 := hs.cfgValid.2.2.1
  rw [BitVec.toNat_add, BitVec.toNat_ofNat]
  omega

/-- A store keeps the padding of the receive buffer (R136). -/
theorem storeRaw_padding {s : State} (hp : receivePadding s)
    (hl : (s.rxlen + 1#16).toNat = s.rxlen.toNat + 1) (bit : Bool) : receivePadding (storeRaw bit s) := by
  intro i h1 h2 h3
  simp only [storeRaw_rxlen, storeRaw_rxbase] at *
  rw [getBit_global, getBit_storeRaw]
  rw [hl] at h1 h2 h3
  rw [if_neg (by omega)]
  by_cases h : s.rxlen.toNat % 8 = 0
  · rw [if_pos (by omega)]
  · rw [if_neg (by omega), ← getBit_global]
    exact hp i (by omega) (by omega) h

/-- `PutRaw` keeps the invariant. -/
theorem putRaw_inv {s t : State} {bit : Bool} (hs : s.Inv) (h : putRaw bit s = .ok t) : t.Inv := by
  rcases putRaw_cases h with ⟨_, rfl⟩ | ⟨hm, ha, ⟨hc, rfl⟩ | ⟨hc, rfl⟩⟩
  · exact hs
  · have hlen := (receive_place hs hm).2
    refine inv_of_idle hs (endCycle_mode _ _) ?_ ?_ ?_ ?_ ?_ ?_ ?_
    · rw [endCycle_cfg, storeRaw_cfg]
    · rw [endCycle_mem]; exact storeRaw_wf _ _ hs.2
    · rw [endCycle_mem]; exact storeRaw_inside _ _ _ ha hs.3
    · rw [endCycle_err, endCycle_fault, storeRaw_err, storeRaw_fault]; exact hs.4
    · rw [endCycle_line, storeRaw_line]; exact hs.5
    · rw [endCycle_rxlen, storeRaw_rxlen]; omega
    · rw [endCycle_noise, storeRaw_noise]; exact hs.7
  · have hlen := (receive_place hs hm).2
    have hfull := hs.rxNotFull hm
    refine ⟨?_, storeRaw_wf _ _ hs.2, ?_, ?_, ?_, ?_, ?_, ?_, ?_, ?_, ?_, ?_, ?_⟩
    · rw [storeRaw_cfg]; exact hs.1
    · rw [storeRaw_cfg]; exact storeRaw_inside _ _ _ ha hs.3
    · rw [storeRaw_err, storeRaw_fault]; exact hs.4
    · rw [storeRaw_line]; exact hs.5
    · rw [storeRaw_rxlen, storeRaw_cfg]; omega
    · rw [storeRaw_noise, storeRaw_cfg]; exact hs.7
    · intro _; rw [storeRaw_fault]; exact hs.8 hm
    · intro _; rw [storeRaw_rxbase, storeRaw_cfg]; exact hs.9 hm
    · intro _; rw [storeRaw_rxlen, storeRaw_cfg]; omega
    · intro _; rw [storeRaw_noise, storeRaw_cfg]; exact hs.11 hm
    · intro _; rw [storeRaw_rxend]; exact hs.12 hm
    · intro _; exact storeRaw_padding (hs.13 hm) hlen bit

/-- `PutRaw` twice keeps the invariant. -/
theorem putRawTwo_inv {s t : State} {bit1 bit2 : Bool} (hs : s.Inv) (h : putRawTwo bit1 bit2 s = .ok t) : t.Inv := by
  simp only [putRawTwo] at h
  cases h1 : putRaw bit1 s with
  | error f => simp [h1] at h
  | ok u =>
    simp only [h1] at h
    exact putRaw_inv (putRaw_inv hs h1) h

/-- A frame that begins again keeps the invariant. -/
theorem restartFrame_inv {s : State} (hs : s.Inv) : (restartFrame s).Inv := by
  have h8 := hs.cfgValid.2.1
  have hpos : 0 < s.cfg.rxCapBits := by omega
  exact ⟨hs.1, hs.2, hs.3, hs.4, hs.5, Nat.zero_le _, hs.7, hs.8, hs.9, fun _ => hpos, hs.11, hs.12,
    fun _ _ _ _ h => absurd rfl h⟩

/-- `PutRaw` cannot fail. -/
theorem putRaw_total {s : State} (hs : s.Inv) (bit : Bool) : ∃ t, putRaw bit s = .ok t := by
  rcases mode_idle_or_rx s with hm | hm
  · exact ⟨_, putRaw_of_idle _ _ hm⟩
  · exact ⟨_, putRaw_of_rx _ _ hm (receive_place hs hm).1⟩

/-- `PutRaw` twice cannot fail. -/
theorem putRawTwo_total {s : State} (hs : s.Inv) (bit1 bit2 : Bool) : ∃ t, putRawTwo bit1 bit2 s = .ok t := by
  obtain ⟨t, ht⟩ := putRaw_total hs bit1
  obtain ⟨u, hu⟩ := putRaw_total (putRaw_inv hs ht) bit2
  exact ⟨u, by simp [putRawTwo, ht, hu]⟩

/-- An edge of a running cycle keeps the invariant. -/
theorem onEdge_inv {s t : State} {n : Word} (hs : s.Inv) (hm : s.mode = .rx) (h : onEdge n s = .ok t) : t.Inv := by
  simp only [onEdge] at h
  split at h
  · simp only [onStart] at h
    split at h
    · cases h; exact restartFrame_inv hs
    all_goals exact putRaw_inv (restartFrame_inv hs) h
  · exact putRawTwo_inv hs h
  · simp only [onH3] at h
    split at h
    · cases h
    · rename_i u hu
      cases h
      split at hu
      · exact inv_skip (putRaw_inv hs hu) _
      · exact inv_skip (putRawTwo_inv hs hu) _
  · exact putRaw_inv hs h
  · exact putRaw_inv hs h
  · exact putRaw_inv hs h
  · cases h
    simp only [onNoise]
    have hn := noise_succ hs hm
    have h1 := hs.rxNoise hm
    have h2 : (s.noise + 1#16).toNat ≤ s.cfg.noiseMax + 1 := by omega
    split
    · exact inv_of_idle (t := endCycle .noise { s with noise := s.noise + 1#16 }) hs rfl rfl hs.2 hs.3 hs.4 hs.5
        hs.6 h2
    · rename_i hlt
      exact ⟨hs.1, hs.2, hs.3, hs.4, hs.5, hs.6, h2, hs.8, hs.9, hs.10, fun _ => Nat.le_of_not_lt hlt, hs.12, hs.13⟩

/-- An edge of a running cycle cannot fail (R134). -/
theorem onEdge_total {s : State} (hs : s.Inv) (n : Word) : ∃ t, onEdge n s = .ok t := by
  simp only [onEdge]
  split
  · simp only [onStart]
    split
    · exact ⟨_, rfl⟩
    all_goals exact putRaw_total (restartFrame_inv hs) _
  · exact putRawTwo_total hs _ _
  · simp only [onH3]
    split
    · rename_i f hf
      split at hf
      · obtain ⟨t, ht⟩ := putRaw_total hs false
        rw [ht] at hf
        cases hf
      · obtain ⟨t, ht⟩ := putRawTwo_total hs false true
        rw [ht] at hf
        cases hf
    · exact ⟨_, rfl⟩
  · exact putRaw_total hs _
  · exact putRaw_total hs _
  · exact putRaw_total hs _
  · exact ⟨_, rfl⟩

/-- An event answers a next state that keeps the invariant. -/
theorem event_next {s : State} (hs : s.Inv) (i : Instr) (hi : i.isEvent = true) :
    ∃ t, exec i s = .next t ∧ t.Inv := by
  rcases mode_idle_or_rx s with hm | hm
  · exact ⟨s, exec_dropped i s hm hi, hs⟩
  · cases i with
    | edge n =>
      obtain ⟨t, ht⟩ := onEdge_total hs n
      exact ⟨t, by simp [exec, execEdge, hm, ht], onEdge_inv hs hm ht⟩
    | timeout =>
      refine ⟨endCycle .timeout s, by simp [exec, execTimeout, hm], ?_⟩
      exact inv_of_idle hs rfl rfl hs.2 hs.3 hs.4 hs.5 hs.6 hs.7
    | _ => exact absurd hi (by simp [Instr.isEvent])

end Sys2Proof.Machine
end

