-- ==== Sys2Proof/Laws/PerInstr.lean ====
section
/-! SUPPORT. The family `PortOfEncoding`: an event is encoded for the edge port, a command for the command port
(30_encoding.md R60, R67, R69). One lemma per constructor of `Instr`. -/

namespace Sys2Proof.Laws

/-- The port of an instruction's word is the instruction's port. -/
def PortOfEncoding.Statement (i : Instr) : Prop := (encode i).isEvent = i.isEvent

theorem PortOfEncoding.nop : PortOfEncoding.Statement .nop := rfl
theorem PortOfEncoding.setr (reg : BitVec 8) (imm16 : Word) : PortOfEncoding.Statement (.setr reg imm16) := rfl
theorem PortOfEncoding.getr (reg : BitVec 8) : PortOfEncoding.Statement (.getr reg) := rfl
theorem PortOfEncoding.mwr (addr16 : Word) (data8 : Byte) : PortOfEncoding.Statement (.mwr addr16 data8) := rfl
theorem PortOfEncoding.mrd (addr16 : Word) : PortOfEncoding.Statement (.mrd addr16) := rfl
theorem PortOfEncoding.reset : PortOfEncoding.Statement .reset := rfl
theorem PortOfEncoding.crcInit : PortOfEncoding.Statement .crcInit := rfl
theorem PortOfEncoding.crcByte (n : BitVec 4) (data8 : Byte) : PortOfEncoding.Statement (.crcByte n data8) := rfl
theorem PortOfEncoding.crcBuf : PortOfEncoding.Statement .crcBuf := rfl
theorem PortOfEncoding.bfbAppend : PortOfEncoding.Statement .bfbAppend := rfl
theorem PortOfEncoding.bfbAcx : PortOfEncoding.Statement .bfbAcx := rfl
theorem PortOfEncoding.encFrame (scheme sof : BitVec 3) : PortOfEncoding.Statement (.encFrame scheme sof) := rfl
theorem PortOfEncoding.decArm (scheme : BitVec 3) : PortOfEncoding.Statement (.decArm scheme) := rfl
theorem PortOfEncoding.edge (interval : Word) : PortOfEncoding.Statement (.edge interval) := rfl
theorem PortOfEncoding.timeout : PortOfEncoding.Statement .timeout := rfl

end Sys2Proof.Laws
end

