-- ==== Sys2Proof/Machine/Assembler.lean ====
section
/-! DEFINITION. The assembler syntax of 30_encoding.md R72 and the pseudo-operations of R73. The block reads neither;
they name what a host sends. -/

namespace Sys2Proof.Machine

/-- The register names of R72; an unassigned number is written as a number. -/
def regName (number : BitVec 8) : String :=
  match regOfNumber number with
  | some .dstb => "DSTB"
  | some .dsto => "DSTO"
  | some .srcb => "SRCB"
  | some .srco => "SRCO"
  | some .len => "LEN"
  | some .crc => "CRC"
  | some .status => "STATUS"
  | some .err => "ERR"
  | some .rxlen => "RXLEN"
  | some .noise => "NOISE"
  | some .decst => "DECST"
  | some .rxbase => "RXBASE"
  | none => Nat.repr number.toNat

/-- The scheme names of R65 and R72; an unassigned code is written as a number. -/
def schemeName (code : BitVec 3) : String :=
  match schemeOfCode code with
  | some .ac2k => "AC2K"
  | some .ac4k => "AC4K"
  | some .mc4k => "MC4K"
  | some .mc8k => "MC8K"
  | some .rl => "RL"
  | none => Nat.repr code.toNat

/-- One command or event as R72 writes it, numbers in decimal; an event is prefixed with `>`. -/
def assembly : Instr → String
  | .nop => "NOP"
  | .setr reg imm16 => "SETR " ++ regName reg ++ ", " ++ Nat.repr imm16.toNat
  | .getr reg => "GETR " ++ regName reg
  | .mwr addr16 data8 => "MWR " ++ Nat.repr addr16.toNat ++ ", " ++ Nat.repr data8.toNat
  | .mrd addr16 => "MRD " ++ Nat.repr addr16.toNat
  | .reset => "RESET"
  | .crcInit => "CRC.INIT"
  | .crcByte n data8 => "CRC.BYTE " ++ Nat.repr n.toNat ++ ", " ++ Nat.repr data8.toNat
  | .crcBuf => "CRC.BUF"
  | .bfbAppend => "BFB.APPEND"
  | .bfbAcx => "BFB.ACX"
  | .encFrame scheme sof => "ENC.FRAME " ++ schemeName scheme ++ ", " ++ Nat.repr sof.toNat
  | .decArm scheme => "DEC.ARM " ++ schemeName scheme
  | .edge interval => "> EDGE " ++ Nat.repr interval.toNat
  | .timeout => "> TIMEOUT"

/-- `CRC8 b, n` (R73). -/
def pseudoCrc8 (b n : Word) : List Instr :=
  [.setr 0x02#8 b, .setr 0x04#8 n, .crcInit, .crcBuf, .getr 0x10#8]

/-- `CRC8.CONT b, n` (R73). -/
def pseudoCrc8Cont (b n : Word) : List Instr :=
  [.setr 0x02#8 b, .setr 0x04#8 n, .crcBuf, .getr 0x10#8]

/-- `APPEND db, do, sb, so, n` (R73). -/
def pseudoAppend (db off sb so n : Word) : List Instr :=
  [.setr 0x00#8 db, .setr 0x01#8 off, .setr 0x02#8 sb, .setr 0x03#8 so, .setr 0x04#8 n, .bfbAppend]

/-- `EXTRACT fb, frame, off, n` (R73, R103). -/
def pseudoExtract (fb frame off n : Word) : List Instr := pseudoAppend fb 0#16 frame off n

/-- `STRIP.MC db, raw, sof` (R73); `r` is what the host read from `RXLEN`, and `r - sof` is the host's subtraction. R73
gives no value where `r` is below `sof`; that the difference is then taken modulo 2^16 is a DESIGN CHOICE (log 25). -/
def pseudoStripMc (db raw sof r : Word) : List Instr :=
  .getr 0x13#8 :: pseudoAppend db 0#16 raw sof (r - sof)

/-- `STRIP.AC db, raw, sof` (R73); `r` is what the host read from `RXLEN`. That `2·sof + 1` is taken modulo 2^16 where it
does not fit 16 bits is a DESIGN CHOICE (log 25). -/
def pseudoStripAc (db raw sof r : Word) : List Instr :=
  [.getr 0x13#8, .setr 0x00#8 db, .setr 0x01#8 0#16, .setr 0x02#8 raw, .setr 0x03#8 (2#16 * sof + 1#16),
    .setr 0x04#8 r, .bfbAcx]

/-- `APPEND.CRC db, do` (R73) through the scratch byte `t`; `c` is what the host read from `CRC`, at most 0xFF (R23). That
the low byte of a greater `c` is written is a DESIGN CHOICE (log 25). -/
def pseudoAppendCrc (db off t c : Word) : List Instr :=
  [.getr 0x10#8, .mwr t (c.extractLsb' 0 8)] ++ pseudoAppend db off t 0#16 8#16

end Sys2Proof.Machine
end

