-- ==== Sys2Proof/Tests/Slice0.lean ====
section
/-! SUPPORT. The model's own tests: words of the spec and what they decode to, ill-formed terms the check refuses, one
or two steps for each instruction (values from spec/95_test_vectors.md or worked out by hand from the rule), and for
each statement that has hypotheses a concrete state that meets them. -/

namespace Sys2Proof.Tests

open Sys2Proof Sys2Proof.Machine Sys2Proof.Claims

/-! ### Decoding: words written out from the formats of R61 to R65 and R67 -/

theorem test_decode_nop : decodeTableWord 32 0x00000000 = some .nop := by decide
theorem test_decode_setr : decodeTableWord 32 0x01041234 = some (.setr 0x04#8 0x1234#16) := by decide
theorem test_decode_getr : decodeTableWord 32 0x02120000 = some (.getr 0x12#8) := by decide
theorem test_decode_mwr : decodeTableWord 32 0x0300FF5A = some (.mwr 0x00FF#16 0x5A#8) := by decide
theorem test_decode_mrd : decodeTableWord 32 0x0400FF00 = some (.mrd 0x00FF#16) := by decide
theorem test_decode_reset : decodeTableWord 32 0x0F000000 = some .reset := by decide
theorem test_decode_crcInit : decodeTableWord 32 0x10000000 = some .crcInit := by decide
theorem test_decode_crcByte : decodeTableWord 32 0x110005F8 = some (.crcByte 5#4 0xF8#8) := by decide
theorem test_decode_crcBuf : decodeTableWord 32 0x12000000 = some .crcBuf := by decide
theorem test_decode_bfbAppend : decodeTableWord 32 0x20000000 = some .bfbAppend := by decide
theorem test_decode_bfbAcx : decodeTableWord 32 0x21000000 = some .bfbAcx := by decide
/-- bits 0011_0000 011 011 and 18 zeros: scheme 3, sof 3 (program P2) -/
theorem test_decode_encFrame : decodeTableWord 32 0x306C0000 = some (.encFrame 3#3 3#3) := by decide
/-- bits 0100_0000 001 and 21 zeros: scheme 1 (vector V47) -/
theorem test_decode_decArm : decodeTableWord 32 0x40200000 = some (.decArm 1#3) := by decide
/-- kind 0, interval 0000_0011_1110_1000 -/
theorem test_decode_edge : decodeTableWord 24 0x003E8 = some (.edge 1000#16) := by decide
/-- kind 1, the interval is ignored (R67) -/
theorem test_decode_timeout : decodeTableWord 24 0x1FFFF = some .timeout := by decide

/-! ### Words that stand for nothing (R70) -/

theorem test_decode_unknown_opcode : decode (.command 0x05000000#32) = .error .unknownOpcode := by decide
theorem test_decode_unknown_opcode_ff : decode (.command 0xFF000000#32) = .error .unknownOpcode := by decide
theorem test_decode_nop_reserved : decode (.command 0x00000001#32) = .error .reservedBit := by decide
theorem test_decode_getr_reserved : decode (.command 0x02000100#32) = .error .reservedBit := by decide
theorem test_decode_mrd_reserved : decode (.command 0x04001001#32) = .error .reservedBit := by decide
theorem test_decode_crcByte_reserved : decode (.command 0x11001831#32) = .error .reservedBit := by decide
theorem test_decode_encFrame_reserved : decode (.command 0x30440001#32) = .error .reservedBit := by decide
theorem test_decode_decArm_reserved : decode (.command 0x40040000#32) = .error .reservedBit := by decide
theorem test_table_word_too_wide : decodeTableWord 32 0x100000000 = none := by decide

/-! ### Ill-formed operands, one for each check (R162, R164) -/

theorem test_illFormed_setr_readOnly : (Instr.setr 0x11#8 1#16).wellFormed = false := by decide
theorem test_illFormed_setr_unassigned : (Instr.setr 0x05#8 0#16).wellFormed = false := by decide
theorem test_illFormed_getr_low : (Instr.getr 0x0F#8).wellFormed = false := by decide
theorem test_illFormed_getr_high : (Instr.getr 0x17#8).wellFormed = false := by decide
theorem test_illFormed_crcByte_zero : (Instr.crcByte 0#4 0x31#8).wellFormed = false := by decide
theorem test_illFormed_crcByte_nine : (Instr.crcByte 9#4 0x31#8).wellFormed = false := by decide
theorem test_illFormed_encFrame_scheme : (Instr.encFrame 5#3 1#3).wellFormed = false := by decide
theorem test_illFormed_encFrame_sof : (Instr.encFrame 2#3 2#3).wellFormed = false := by decide
theorem test_illFormed_encFrame_rl : (Instr.encFrame 4#3 1#3).wellFormed = false := by decide
theorem test_illFormed_decArm : (Instr.decArm 6#3).wellFormed = false := by decide
theorem test_wellFormed_all_kinds :
    [Instr.setr 0x10#8 0#16, .getr 0x16#8, .crcByte 8#4 0#8, .encFrame 0#3 6#3, .encFrame 4#3 0#3,
      .decArm 4#3].all Instr.wellFormed = true := by decide

/-! ### Steps -/

/-- The outcome is a next state with the property. -/
def goesTo (o : Host.Outcome State Fault Refusal) (p : State → Bool) : Bool :=
  match o with
  | .next t => p t
  | .fault _ => false
  | .refused _ => false

/-- The last response is this one. -/
def answers (st : Status) (v : Word) (t : State) : Bool := t.responses == [⟨st, v⟩]

/-- A fresh block with these bytes written. -/
def holding (mem : Memory) : State := { State.reset with mem := mem }

/-- A fresh block with these bytes and source and destination. -/
def copying (mem : Memory) (db off sb so n : Word) : State :=
  { holding mem with dstb := db, dsto := off, srcb := sb, srco := so, len := n }

/-- A block in the fault state of program P5. -/
def broken : State := { holding [(0x10, 0xAB#8)] with fault := true, err := some .addr }

/-- A cycle armed at 0x80 that has stored `rxlen` bits. -/
def receiving (sch : Scheme) (mem : Memory) (rxlen : Word) (last skip : Bool) : State :=
  { holding mem with mode := .rx, rxsch := sch, rxbase := 0x80#16, rxlen := rxlen, last := last, skip := skip }

theorem test_nop_in_fault_state : goesTo (exec .nop broken) (answers .ok 0#16) = true := by decide
/-- V1 through the step -/
theorem test_nop_step :
    goesTo (step (State.reset.withFetchWord 32 0)) (answers .ok 0#16) = true := by decide
/-- V3 -/
theorem test_setr_crc_drops_high_byte :
    goesTo (exec (.setr 0x10#8 0xABCD#16) State.reset) (fun t => t.crc == 0xCD#8 && answers .ok 0#16 t) = true := by
  decide
/-- V64 -/
theorem test_setr_read_only :
    goesTo (exec (.setr 0x11#8 1#16) State.reset) (fun t => t.err == some .badReg && answers .faulted 0#16 t) = true := by
  decide
/-- the state of V46: LAST = 0, SKIP = 1, RXSCH = 2 -/
theorem test_getr_decst :
    goesTo (exec (.getr 0x15#8) { State.reset with last := false, rxsch := .mc4k }) (answers .ok 0x000A#16) = true := by
  decide
/-- P5: a failing command in the fault state is refused and `ERR` keeps its code -/
theorem test_getr_refused :
    goesTo (exec (.getr 0x20#8) broken) (fun t => t.err == some .addr && answers .refused 0#16 t) = true := by decide
/-- V4: the last byte of M -/
theorem test_mwr_last_byte :
    goesTo (exec (.mwr 0xFF#16 0x5A#8) (holding [(0x10, 0xAB#8)]))
      (fun t => t.mem == [(0x10, 0xAB#8), (0xFF, 0x5A#8)]) = true := by decide
/-- V5 -/
theorem test_mwr_outside :
    goesTo (exec (.mwr 0x100#16 0x5A#8) State.reset) (fun t => t.mem == [] && t.err == some .addr) = true := by decide
theorem test_mrd_in_fault_state : goesTo (exec (.mrd 0x10#16) broken) (answers .ok 0x00AB#16) = true := by decide
/-- V6 -/
theorem test_mrd_outside : goesTo (exec (.mrd 0x100#16) State.reset) (answers .faulted 0#16) = true := by decide
/-- P5 -/
theorem test_reset_leaves_fault_state :
    goesTo (exec .reset { broken with len := 9#16, crc := 0x93#8 })
      (fun t => !t.fault && t.err == none && t.len == 0#16 && t.crc == 0xFF#8 && t.mem == [(0x10, 0xAB#8)]) = true := by
  decide
theorem test_crcInit : goesTo (exec .crcInit { State.reset with crc := 0x93#8 }) (fun t => t.crc == 0xFF#8) = true := by
  decide
/-- P5 -/
theorem test_crcInit_refused : goesTo (exec .crcInit broken) (answers .refused 0#16) = true := by decide
/-- V14 -/
theorem test_crcByte_five_steps :
    goesTo (exec (.crcByte 5#4 0xF8#8) State.reset) (fun t => t.crc == 0xE0#8) = true := by decide
/-- V16 -/
theorem test_crcByte_nine :
    goesTo (exec (.crcByte 9#4 0x31#8) State.reset) (fun t => t.crc == 0xFF#8 && t.err == some .operand) = true := by
  decide
/-- V18: a whole byte and four bits -/
theorem test_crcBuf_partial_byte :
    goesTo (exec .crcBuf (copying [(0x20, 0xC0#8), (0x21, 0x50#8)] 0#16 0#16 0x20#16 0#16 12#16))
      (fun t => t.crc == 0xC2#8) = true := by decide
/-- V17 -/
theorem test_crcBuf_outside :
    goesTo (exec .crcBuf (copying [] 0#16 0#16 0xFF#16 0#16 9#16)) (fun t => t.crc == 0xFF#8 && t.err == some .addr)
      = true := by decide
/-- by hand from R100: 1110_0000 keeps its first three bits, then the bits 1 1 0 0 1 0 1 from bit 6 on -/
theorem test_bfbAppend_unaligned :
    goesTo (exec .bfbAppend (copying [(0x40, 0xFF#8), (0x41, 0xFF#8), (0x50, 0x03#8), (0x51, 0x28#8)]
      0x40#16 3#16 0x50#16 6#16 7#16))
      (fun t => t.mem == [(0x40, 0xF9#8), (0x41, 0x40#8), (0x50, 0x03#8), (0x51, 0x28#8)] && t.dsto == 10#16)
      = true := by decide
/-- V26d: no sum wraps -/
theorem test_bfbAppend_no_wrap :
    goesTo (exec .bfbAppend (copying [(0x50, 0xA0#8)] 0#16 0xFFF8#16 0x50#16 0#16 8#16))
      (fun t => t.err == some .addr && t.dsto == 0xFFF8#16) = true := by decide
/-- V29f -/
theorem test_bfbAcx_trailing_zero :
    goesTo (exec .bfbAcx (copying [(0x60, 0xFC#8), (0x61, 0xBC#8), (0x70, 0xC0#8)] 0x70#16 2#16 0x60#16 7#16 15#16))
      (fun t => t.mem == [(0x60, 0xFC#8), (0x61, 0xBC#8), (0x70, 0xCC#8)] && t.dsto == 7#16) = true := by decide
/-- the overlap of the faults after V29 -/
theorem test_bfbAcx_overlap :
    goesTo (exec .bfbAcx (copying [] 0x11#16 0#16 0x10#16 0#16 16#16)) (fun t => t.err == some .overlap) = true := by
  decide
/-- V34 -/
theorem test_encFrame_reverse_link :
    goesTo (exec (.encFrame 4#3 0#3) (copying [(0x10, 0x60#8)] 0#16 0#16 0x10#16 0#16 3#16))
      (fun t => t.lineTrace == [.segment .high 8, .segment .low 12, .segment .high 8, .segment .low 20,
        .segment .high 8, .segment .low 20, .segment .high 8, .rest] && t.line == .low) = true := by decide
/-- V37 -/
theorem test_encFrame_manchester :
    goesTo (exec (.encFrame 3#3 1#3) (copying [(0x10, 0x05#8)] 0#16 0#16 0x10#16 5#16 3#16))
      (fun t => t.lineTrace == [.segment .high 8, .segment .low 8, .segment .high 8, .segment .low 8,
        .segment .low 8, .segment .high 8, .segment .high 8, .segment .low 8, .rest]) = true := by decide
/-- V52: the last place of the buffer -/
theorem test_decArm_last_place :
    goesTo (exec (.decArm 2#3) { State.reset with dstb := 0xE0#16 })
      (fun t => t.mode == .rx && t.rxbase == 0xE0#16 && t.rxsch == .mc4k && t.responses == []) = true := by decide
/-- V52 -/
theorem test_decArm_outside :
    goesTo (exec (.decArm 2#3) { State.reset with dstb := 0xE1#16 })
      (fun t => t.mode == .idle && t.err == some .addr && answers .faulted 0#16 t) = true := by decide
/-- V44, its second interval of three half-periods -/
theorem test_edge_three_half_periods :
    goesTo (exec (.edge 48#16) (receiving .mc4k [(0x80, 0x80#8)] 2#16 false false))
      (fun t => t.mem == [(0x80, 0x90#8)] && t.rxlen == 4#16 && t.last && t.skip) = true := by decide
/-- V46: the buffer is full after the first of two bits -/
theorem test_edge_full :
    goesTo (exec (.edge 64#16) (receiving .mc4k [(0x9F, 0xFE#8)] 255#16 true true))
      (fun t => t.mem == [(0x9F, 0xFE#8)] && t.rxlen == 256#16 && !t.last && t.rxend == .full && t.mode == .idle)
      = true := by decide
/-- V47 -/
theorem test_timeout_ends_cycle :
    goesTo (exec .timeout (receiving .ac4k [] 0#16 true true))
      (fun t => t.mode == .idle && t.rxend == .timeout && answers .ok 0#16 t) = true := by decide
/-- V49 -/
theorem test_timeout_dropped :
    goesTo (exec .timeout State.reset) (fun t => t.mode == .idle && t.rxend == .notEnded && t.responses == [])
      = true := by decide
/-- R131: the event is taken, the command held -/
theorem test_step_holds_commands :
    goesTo (step { receiving .mc4k [] 0#16 true true with inputs := [.command 0x02130000#32, .event 0x10000#17] })
      (fun t => t.inputs == [.command 0x02130000#32] && t.mode == .idle) = true := by decide

/-! ### The assembler's text (R72) and the channel (R146) -/

theorem test_assembly_setr : assembly (.setr 0x04#8 37#16) = "SETR LEN, 37" := by decide
theorem test_assembly_encFrame : assembly (.encFrame 2#3 6#3) = "ENC.FRAME MC4K, 6" := by decide
/-- R73 with program P3's values: 22 raw bits, 6 header bits, 16 payload bits -/
theorem test_stripMc :
    pseudoStripMc 0x40#16 0x80#16 6#16 22#16 =
      [.getr 0x13#8, .setr 0x00#8 0x40#16, .setr 0x01#8 0#16, .setr 0x02#8 0x80#16, .setr 0x03#8 6#16,
        .setr 0x04#8 16#16, .bfbAppend] := by decide
/-- V31: intervals G, 16, 16, 16, 24 -/
theorem test_channel_manchester :
    channel 1000#16 (frameSegments Config.reference .mc8k 3 [true, false]) =
      [.edge 1000#16, .edge 16#16, .edge 16#16, .edge 16#16, .edge 24#16, .timeout] := by decide
/-- V34: intervals G, 20, 28, 28 -/
theorem test_channel_reverse_link :
    channel 1000#16 (frameSegments Config.reference .rl 0 [false, true, true]) =
      [.edge 1000#16, .edge 20#16, .edge 28#16, .edge 28#16, .timeout] := by decide

/-! ### Witnesses: for each statement with hypotheses, a state and operands that meet them all -/

theorem witness_FrameLengths : Config.reference.Valid := by decide

/-- A fresh block with words waiting meets the invariant. -/
theorem inv_fresh (mem : Memory) (inputs : List PortWord) (hw : Memory.wf mem = true)
    (hi : memoryInside 256 mem = true) : State.Inv { holding mem with inputs := inputs } := by
  refine ⟨witness_FrameLengths, hw, hi, rfl, rfl, Nat.zero_le _, Nat.zero_le _, ?_, ?_, ?_, ?_, ?_, ?_⟩ <;>
    exact fun h => Mode.noConfusion h

/-- A block in a cycle meets the invariant. -/
theorem inv_receiving (sch : Scheme) (mem : Memory) (rxlen : Word) (last skip : Bool) (hw : Memory.wf mem = true)
    (hi : memoryInside 256 mem = true) (hl : rxlen.toNat < 256)
    (hp : receivePadding (receiving sch mem rxlen last skip)) : (receiving sch mem rxlen last skip).Inv := by
  refine ⟨witness_FrameLengths, hw, hi, rfl, rfl, Nat.le_of_lt hl, Nat.zero_le _, ?_, ?_, ?_, ?_,
    ?_, ?_⟩
  · exact fun _ => rfl
  · exact fun _ => (by decide : 0x80 + 256 / 8 ≤ 256)
  · exact fun _ => hl
  · exact fun _ => Nat.zero_le _
  · exact fun _ => rfl
  · exact fun _ => hp

/-- A cycle that has stored nothing. -/
theorem inv_armed (sch : Scheme) (mem : Memory) (last skip : Bool) (hw : Memory.wf mem = true)
    (hi : memoryInside 256 mem = true) : (receiving sch mem 0#16 last skip).Inv :=
  inv_receiving sch mem 0#16 last skip hw hi (by decide) (fun _ _ _ h => absurd rfl h)

/-- A cycle one bit short of a full buffer: 255 of 256 bits, the last bit of the last byte still 0. -/
theorem inv_almost_full (sch : Scheme) (last skip : Bool) :
    (receiving sch [(0x9F, 0xFE#8)] 255#16 last skip).Inv := by
  refine inv_receiving sch _ _ last skip (by decide) (by decide) (by decide) ?_
  intro i h1 h2 _
  have h1' : 255 ≤ i := h1
  have h2' : i / 8 = 255 / 8 := h2
  have hi : i = 255 := by omega
  subst hi
  rw [getBit_congr (holding [(0x9F, 0xFE#8)]) (receiving sch [(0x9F, 0xFE#8)] 255#16 last skip) rfl rfl]
  exact (by decide : getBit (holding [(0x9F, 0xFE#8)]) 0x80 255 = false)

/-- A block in a cycle with the noise count at its limit of 8. -/
def noisy : State := { receiving .rl [] 0#16 true true with noise := 8#16 }

theorem inv_noisy : noisy.Inv := by
  refine ⟨by decide, by decide, by decide, by decide, by decide, by decide, by decide, ?_, ?_, ?_, ?_, ?_, ?_⟩
  · exact fun _ => rfl
  · exact fun _ => by decide
  · exact fun _ => by decide
  · exact fun _ => by decide
  · exact fun _ => rfl
  · exact fun _ _ _ _ h => absurd rfl h

theorem witness_CommandWordsAreUnique : ∃ w i, decode (.command w) = .ok i :=
  ⟨0x01041234#32, .setr 0x04#8 0x1234#16, by decide⟩

theorem witness_StepRunsDecodedInstruction_idle :
    ∃ (s : State) (w : PortWord) (rest : List PortWord) (i : Instr), s.mode = .idle ∧ s.inputs = w :: rest ∧
      decode w = .ok i :=
  ⟨{ State.reset with inputs := [.command 0x10000000#32] }, .command 0x10000000#32, [], .crcInit, by decide⟩

theorem witness_StepRunsDecodedInstruction_rx :
    ∃ (s : State) (held : List PortWord) (e : EventWord) (rest : List PortWord) (i : Instr), s.mode = .rx ∧
      held ≠ [] ∧ (∀ w ∈ held, w.isEvent = false) ∧ s.inputs = held ++ .event e :: rest ∧
      decode (.event e) = .ok i :=
  ⟨{ receiving .rl [] 0#16 true true with inputs := [.command 0#32, .event 0x10000#17] }, [.command 0#32], 0x10000#17, [],
    .timeout, by decide⟩

theorem witness_IllegalWordsFault :
    ∃ (s t : State) (w : CommandWord) (rest : List PortWord) (why : Illegal), s.mode = .idle ∧ t.mode = .idle ∧
      s.inputs = .command w :: rest ∧ t.inputs = .command w :: rest ∧ decode (.command w) = .error why ∧
      s.fault = false ∧ t.fault = true :=
  ⟨{ State.reset with inputs := [.command 0x05000000#32] }, { broken with inputs := [.command 0x05000000#32] },
    0x05000000#32, [], .unknownOpcode, by decide⟩

theorem witness_WaitingKeepsState :
    ∃ s t : State, s.mode = .idle ∧ s.inputs = [] ∧ t.mode = .rx ∧ t.inputs ≠ [] ∧
      ∀ w ∈ t.inputs, w.isEvent = false :=
  ⟨State.reset, { receiving .rl [] 0#16 true true with inputs := [.command 0#32] }, by decide⟩

theorem witness_PortGating :
    ∃ (s t u : State) (i j : Instr), s.mode = .rx ∧ step s = .next t ∧ i.isEvent = false ∧ u.mode = .idle ∧
      j.isEvent = true :=
  ⟨receiving .rl [] 0#16 true true, receiving .rl [] 0#16 true true, State.reset, .nop, .timeout, rfl, rfl, rfl, rfl, rfl⟩

/-- For the statements about every step: EveryStepKeepsInvariant, NoStepStops, EveryCommandIsAnsweredOnce,
HistoriesGrowAndParametersStay. -/
theorem witness_EveryStep : ∃ s t : State, s.Inv ∧ step s = .next t ∧ t ≠ s :=
  ⟨{ holding [] with inputs := [.command 0#32] }, answered 0#16 (holding []), inv_fresh [] _ rfl rfl, rfl, by decide⟩

theorem witness_OnlyEncoderDrivesLine :
    ∃ (i : Instr) (s t : State), exec i s = .next t ∧ (∀ scheme sof, i ≠ .encFrame scheme sof) ∧ i ≠ .reset :=
  ⟨.nop, broken, answered 0#16 broken, rfl, fun _ _ => Instr.noConfusion, by decide⟩

/-- The trace clause holds of `RESET` too: in a state that no run reaches, with the line HIGH. -/
theorem witness_OnlyEncoderDrivesLine_reset :
    ∃ s t : State, s.line = .high ∧ exec .reset s = .next t ∧ (∀ scheme sof, Instr.reset ≠ .encFrame scheme sof) :=
  ⟨{ State.reset with line := .high }, answered 0#16 State.reset, rfl, rfl, fun _ _ => Instr.noConfusion⟩

theorem witness_OnlyWritersChangeMemory :
    ∃ (i : Instr) (s t : State), exec i s = .next t ∧ (∀ a d, i ≠ .mwr a d) ∧ i ≠ .bfbAppend ∧ i ≠ .bfbAcx ∧
      ∀ n, i ≠ .edge n :=
  ⟨.nop, broken, answered 0#16 broken, rfl, fun _ _ => Instr.noConfusion, by decide, by decide,
    fun _ => Instr.noConfusion⟩

theorem witness_OnlyCrcCommandsChangeCrc :
    ∃ (i : Instr) (s t : State), exec i s = .next t ∧ (∀ r v, i ≠ .setr r v) ∧ i ≠ .reset ∧ i ≠ .crcInit ∧
      (∀ n d, i ≠ .crcByte n d) ∧ i ≠ .crcBuf :=
  ⟨.nop, broken, answered 0#16 broken, rfl, fun _ _ => Instr.noConfusion, by decide, by decide,
    fun _ _ => Instr.noConfusion, by decide⟩

theorem witness_CycleResultKept :
    ∃ (i : Instr) (s t : State), s.mode = .idle ∧ exec i s = .next t ∧ (∀ scheme, i ≠ .decArm scheme) ∧ i ≠ .reset :=
  ⟨.nop, broken, answered 0#16 broken, rfl, rfl, fun _ => Instr.noConfusion, by decide⟩

theorem witness_ResetCommandClearsRegisters : ∃ s : State, s.mode = .idle ∧ s.fault = true := ⟨broken, by decide⟩

theorem witness_FaultEntryIsPrecise :
    ∃ (i j : Instr) (s t u v : State), s.fault = false ∧ exec i s = .next t ∧ t.fault = true ∧ u.fault = true ∧
      j ≠ .reset ∧ exec j u = .next v :=
  ⟨.mwr 0x100#16 0#8, .nop, State.reset, faulted .addr State.reset, broken, answered 0#16 broken, rfl, rfl, rfl, rfl,
    by decide, rfl⟩

/-- An illegal word faults; a `NOP` leaves the fault state as it is. -/
theorem witness_FaultEntryIsPrecise_step :
    ∃ s t u v : State, s.fault = false ∧ step s = .next t ∧ t.fault = true ∧ u.fault = true ∧ step u = .next v ∧
      v.fault = true :=
  ⟨{ State.reset with inputs := [.command 0x05000000#32] }, faulted .illegal State.reset,
    { broken with inputs := [.command 0#32] }, answered 0#16 broken, rfl, rfl, rfl, rfl, rfl, rfl⟩

theorem witness_FaultedBlockServesReadsOnly :
    ∃ (s : State) (i j : Instr) (w : CommandWord) (rest : List PortWord) (why : Illegal), s.mode = .idle ∧
      s.fault = true ∧ regOfNumber 0x16#8 = some .rxbase ∧ regOfNumber 0x17#8 = none ∧
      (0xFF#16).toNat < s.cfg.memBytes ∧ ¬ (0x100#16).toNat < s.cfg.memBytes ∧ i ≠ .nop ∧ (∀ reg, i ≠ .getr reg) ∧
      (∀ x, i ≠ .mrd x) ∧ i ≠ .reset ∧ i.isEvent = false ∧ s.inputs = .command w :: rest ∧
      decode (.command w) = .error why ∧ j.isEvent = true :=
  ⟨{ broken with inputs := [.command 0x0F000001#32] }, .crcInit, .timeout, 0x0F000001#32, [], .reservedBit, rfl, rfl,
    by decide, by decide, by decide, by decide, by decide, fun _ => Instr.noConfusion, fun _ => Instr.noConfusion,
    by decide, rfl, rfl, by decide, rfl⟩

/-- RejectsReserved, in NopOnlyAnswers, ResetCommandClearsRegisters and CrcInitPresets. -/
theorem witness_RejectsReserved :
    ∃ (x : BitVec 24) (s t : State) (rest : List PortWord), x ≠ 0#24 ∧ s.mode = .idle ∧ s.fault = false ∧
      s.inputs = .command (0x00#8 ++ x) :: rest ∧ t.mode = .idle ∧ t.fault = true ∧
      t.inputs = .command (0x0F#8 ++ x) :: rest :=
  ⟨1#24, { State.reset with inputs := [.command 1#32] }, { broken with inputs := [.command 0x0F000001#32] }, [], by decide⟩

/-- NopOnlyAnswers, GetrReadsRegister, GetrReadsFlags: an idle block. -/
theorem witness_idle : ∃ s t : State, s.mode = .idle ∧ t.mode = .idle ∧ s.fault = false ∧ t.fault = true :=
  ⟨State.reset, broken, by decide⟩

/-- SetrWritesRegister and the unconditional clauses of other statements: a block that takes commands. -/
theorem witness_ready : Ready State.reset := by decide

theorem witness_BadRegisterNumbersFault :
    Ready State.reset ∧ (4 < (0x05#8).toNat ∧ (0x05#8).toNat ≠ 16) ∧ (4 < (0x11#8).toNat ∧ (0x11#8).toNat ≠ 16) ∧
      (4 < (0x0F#8).toNat ∧ (0x0F#8).toNat < 16) ∧ 22 < (0x17#8).toNat := by decide

/-- MwrStoresByte, MrdReadsByte: the last byte of M and the first address beyond. -/
theorem witness_addresses :
    Ready State.reset ∧ (0xFF#16).toNat < State.reset.cfg.memBytes ∧ State.reset.cfg.memBytes ≤ (0x100#16).toNat := by
  decide

/-- CrcInitPresets. -/
theorem witness_CrcInitPresets : Ready State.reset ∧ broken.mode = .idle ∧ broken.fault = true := by decide

theorem witness_CrcByteSteps :
    Ready State.reset ∧ (1 ≤ (1#4).toNat ∧ (1#4).toNat ≤ 8) ∧ (1 ≤ (8#4).toNat ∧ (8#4).toNat ≤ 8) ∧
      (0#4).toNat = 0 ∧ 8 < (9#4).toNat := by decide

theorem witness_CrcStepIsBitSerial :
    (∀ k, k < 8 - 1 → (0x80#8).getLsbD k = false) ∧ (∀ k, k < 8 - 5 → (0xF8#8).getLsbD k = false) ∧
      ∀ k, k < 8 - 8 → (0xFF#8).getLsbD k = false := by decide

/-- Two fields of 5 and 8 bits with zero padding at 0x10 and 0x11, and their concatenation at 0x20. -/
def fields : State := holding [(0x10, 0xF8#8), (0x11, 0x84#8), (0x20, 0xFC#8), (0x21, 0x20#8)]

theorem padded_first : ZeroPadded fields 0x10 5 := by
  intro i h1 h2 _
  have h : i = 5 ∨ i = 6 ∨ i = 7 := by omega
  rcases h with rfl | rfl | rfl <;> decide

theorem padded_joined : ZeroPadded fields 0x20 13 := by
  intro i h1 h2 _
  have h : i = 13 ∨ i = 14 ∨ i = 15 := by omega
  rcases h with rfl | rfl | rfl <;> decide

theorem witness_CrcBufStepsThroughBytes :
    ∃ s t : State, Ready s ∧ 8 * s.srcb.toNat + s.len.toNat = 8 * s.cfg.memBytes ∧ Ready t ∧ 0 < t.len.toNat ∧
      8 * t.cfg.memBytes + 1 = 8 * t.srcb.toNat + t.len.toNat :=
  ⟨copying [] 0#16 0#16 0xFF#16 0#16 8#16, copying [] 0#16 0#16 0xFF#16 0#16 9#16, by decide⟩

theorem witness_CrcBufIsBitSerial :
    ∃ s : State, Ready s ∧ 8 * s.srcb.toNat + s.len.toNat ≤ 8 * s.cfg.memBytes ∧ s.len.toNat % 8 ≠ 0 ∧
      ZeroPadded s s.srcb.toNat s.len.toNat :=
  ⟨{ fields with srcb := 0x20#16, len := 13#16 }, by decide, by decide, by decide, padded_joined⟩

theorem witness_CrcComposes :
    ∃ (s : State) (a b ab na nb nab : Word), Ready s ∧ nab.toNat = na.toNat + nb.toNat ∧ 0 < nb.toNat ∧
      8 * a.toNat + na.toNat ≤ 8 * s.cfg.memBytes ∧ 8 * b.toNat + nb.toNat ≤ 8 * s.cfg.memBytes ∧
      8 * ab.toNat + nab.toNat ≤ 8 * s.cfg.memBytes ∧
      ZeroPadded s a.toNat na.toNat ∧ ZeroPadded s b.toNat nb.toNat ∧ ZeroPadded s ab.toNat nab.toNat ∧
      getBits s ab.toNat 0 nab.toNat = getBits s a.toNat 0 na.toNat ++ getBits s b.toNat 0 nb.toNat :=
  ⟨fields, 0x10#16, 0x11#16, 0x20#16, 5#16, 8#16, 13#16, by decide, by decide, by decide, by decide, by decide,
    by decide, padded_first, fun _ _ _ h => absurd rfl h, padded_joined, by decide⟩

theorem witness_EmptyCasesChangeNothing :
    ∃ s t : State, Ready s ∧ s.len = 0#16 ∧ Ready t ∧ t.len.toNat + 1 = t.srco.toNat :=
  ⟨copying [] 0#16 0#16 0xFFFF#16 0#16 0#16, copying [] 0#16 0#16 0x60#16 7#16 6#16, by decide⟩

/-- Spans that lie apart by their byte addresses are disjoint. -/
theorem spans_apart (b1 i1 n1 b2 i2 n2 : Nat) (h : b1 + (i1 + n1 - 1) / 8 < b2 + i2 / 8) :
    SpansDisjoint b1 i1 n1 b2 i2 n2 := by
  intro x hx hy
  have h1 := hx.2.2
  have h2 := hy.2.1
  omega

/-- The last bits of M are the destination. -/
theorem witness_AppendCopiesBits :
    ∃ s : State, Ready s ∧ s.cfg.Valid ∧ 0 < s.len.toNat ∧
      8 * s.srcb.toNat + s.srco.toNat + s.len.toNat ≤ 8 * s.cfg.memBytes ∧
      8 * s.dstb.toNat + s.dsto.toNat + s.len.toNat = 8 * s.cfg.memBytes ∧
      SpansDisjoint s.srcb.toNat s.srco.toNat s.len.toNat s.dstb.toNat s.dsto.toNat s.len.toNat :=
  ⟨copying [(0x50, 0xA0#8)] 0xFF#16 3#16 0x50#16 0#16 5#16, by decide, by decide, by decide, by decide, by decide,
    spans_apart _ _ _ _ _ _ (by decide)⟩

theorem witness_CopyChecksInOrder_append :
    ∃ s t u : State, Ready s ∧ s.cfg.Valid ∧ 0 < s.len.toNat ∧
      8 * s.cfg.memBytes + 1 = 8 * s.srcb.toNat + s.srco.toNat + s.len.toNat ∧
      Ready t ∧ t.cfg.Valid ∧ 0 < t.len.toNat ∧
      8 * t.cfg.memBytes + 1 = 8 * t.dstb.toNat + t.dsto.toNat + t.len.toNat ∧
      Ready u ∧ u.cfg.Valid ∧ 0 < u.len.toNat ∧
      8 * u.srcb.toNat + u.srco.toNat + u.len.toNat = 8 * u.cfg.memBytes ∧
      8 * u.dstb.toNat + u.dsto.toNat + u.len.toNat ≤ 8 * u.cfg.memBytes ∧
      ¬ SpansDisjoint u.srcb.toNat u.srco.toNat u.len.toNat u.dstb.toNat u.dsto.toNat u.len.toNat :=
  ⟨copying [] 0x40#16 0#16 0xFF#16 1#16 8#16, copying [] 0xFF#16 1#16 0x40#16 0#16 8#16,
    copying [] 0xFF#16 0#16 0xFF#16 4#16 4#16, by decide, by decide, by decide, by decide, by decide, by decide,
    by decide, by decide, by decide, by decide, by decide, by decide, by decide,
    fun h => h 0xFF (by unfold InSpan; decide) (by unfold InSpan; decide)⟩

theorem witness_CopyChecksInOrder_acx :
    ∃ s t u : State, Ready s ∧ s.cfg.Valid ∧ s.srco.toNat ≤ s.len.toNat ∧
      8 * s.cfg.memBytes < 8 * s.srcb.toNat + s.len.toNat ∧
      Ready t ∧ t.cfg.Valid ∧ t.srco.toNat ≤ t.len.toNat ∧
      8 * t.cfg.memBytes < 8 * t.dstb.toNat + t.dsto.toNat + acxCount t.srco.toNat t.len.toNat ∧
      Ready u ∧ u.cfg.Valid ∧ u.srco.toNat ≤ u.len.toNat ∧
      8 * u.srcb.toNat + u.len.toNat ≤ 8 * u.cfg.memBytes ∧
      8 * u.dstb.toNat + u.dsto.toNat + acxCount u.srco.toNat u.len.toNat ≤ 8 * u.cfg.memBytes ∧
      ¬ SpansDisjoint u.srcb.toNat 0 u.len.toNat u.dstb.toNat u.dsto.toNat (acxCount u.srco.toNat u.len.toNat) :=
  ⟨copying [] 0x40#16 0#16 0xFF#16 7#16 9#16, copying [] 0xFF#16 4#16 0x60#16 7#16 15#16,
    copying [] 0x11#16 0#16 0x10#16 0#16 16#16, by decide, by decide, by decide, by decide, by decide, by decide,
    by decide, by decide, by decide, by decide, by decide, by decide, by decide,
    fun h => h 0x11 (by unfold InSpan; decide) (by unfold InSpan; decide)⟩

/-- AppendThenExtractRoundTrip with 5 bits of 0x50 through 0x60 to 0x70. -/
theorem witness_AppendThenExtractRoundTrip :
    ∃ (s : State) (fb : Word), Ready s ∧ s.cfg.Valid ∧ 0 < s.len.toNat ∧
      8 * s.srcb.toNat + s.srco.toNat + s.len.toNat ≤ 8 * s.cfg.memBytes ∧
      8 * s.dstb.toNat + s.dsto.toNat + s.len.toNat ≤ 8 * s.cfg.memBytes ∧
      8 * fb.toNat + s.len.toNat ≤ 8 * s.cfg.memBytes ∧
      SpansDisjoint s.srcb.toNat s.srco.toNat s.len.toNat s.dstb.toNat s.dsto.toNat s.len.toNat ∧
      SpansDisjoint s.dstb.toNat s.dsto.toNat s.len.toNat fb.toNat 0 s.len.toNat :=
  ⟨copying [(0x50, 0xA0#8)] 0x60#16 3#16 0x50#16 0#16 5#16, 0x70#16, by decide, by decide, by decide, by decide,
    by decide, by decide, spans_apart _ _ _ _ _ _ (by decide), spans_apart _ _ _ _ _ _ (by decide)⟩

theorem witness_AppendConcatenates :
    ∃ (s : State) (n1 n2 : Word), Ready s ∧ s.cfg.Valid ∧ 0 < n1.toNat ∧ 0 < n2.toNat ∧
      s.len.toNat = n1.toNat + n2.toNat ∧
      8 * s.srcb.toNat + s.srco.toNat + s.len.toNat ≤ 8 * s.cfg.memBytes ∧
      8 * s.dstb.toNat + s.dsto.toNat + s.len.toNat ≤ 8 * s.cfg.memBytes ∧
      SpansDisjoint s.srcb.toNat s.srco.toNat s.len.toNat s.dstb.toNat s.dsto.toNat s.len.toNat :=
  ⟨copying [(0x50, 0xA0#8)] 0x60#16 3#16 0x50#16 0#16 8#16, 5#16, 3#16, by decide, by decide, by decide, by decide,
    by decide, by decide, by decide, spans_apart _ _ _ _ _ _ (by decide)⟩

/-- V29a; and V29b, where nothing follows the header. -/
theorem witness_AcxExtractsBits :
    ∃ s t : State, Ready s ∧ s.cfg.Valid ∧ s.srco.toNat < s.len.toNat ∧
      8 * s.srcb.toNat + s.len.toNat ≤ 8 * s.cfg.memBytes ∧
      8 * s.dstb.toNat + s.dsto.toNat + acxCount s.srco.toNat s.len.toNat ≤ 8 * s.cfg.memBytes ∧
      SpansDisjoint s.srcb.toNat 0 s.len.toNat s.dstb.toNat s.dsto.toNat (acxCount s.srco.toNat s.len.toNat) ∧
      Ready t ∧ t.cfg.Valid ∧ t.srco.toNat = t.len.toNat ∧
      8 * t.srcb.toNat + t.len.toNat ≤ 8 * t.cfg.memBytes ∧
      8 * t.dstb.toNat + t.dsto.toNat + acxCount t.srco.toNat t.len.toNat ≤ 8 * t.cfg.memBytes ∧
      SpansDisjoint t.srcb.toNat 0 t.len.toNat t.dstb.toNat t.dsto.toNat (acxCount t.srco.toNat t.len.toNat) :=
  ⟨copying [(0x60, 0xFC#8), (0x61, 0xBC#8)] 0x70#16 0#16 0x60#16 7#16 15#16,
    copying [(0x60, 0xFC#8)] 0x70#16 0#16 0x60#16 7#16 7#16, by decide, by decide, by decide, by decide, by decide,
    spans_apart _ _ _ _ _ _ (by decide), by decide, by decide, by decide, by decide, by decide,
    spans_apart _ _ _ _ _ _ (by decide)⟩

/-- V39b, a payload that ends with M; and the empty payload of V35. -/
theorem witness_EncFrameEmitsFrame :
    ∃ s t : State, Ready s ∧ 8 * s.srcb.toNat + s.srco.toNat + s.len.toNat = 8 * s.cfg.memBytes ∧ Ready t ∧
      t.len.toNat = 0 ∧ (2#3, Scheme.mc4k) ∈ [(0#3, Scheme.ac2k), (1#3, .ac4k), (2#3, .mc4k), (3#3, .mc8k)] ∧
      6#3 ∈ [1#3, 3#3, 6#3] :=
  ⟨copying [(0xFF, 0xA0#8)] 0#16 0#16 0xFF#16 4#16 4#16, State.reset, by decide⟩

/-- V38a, V38b, V38c, V39a. -/
theorem witness_EncFrameFaults :
    ∃ s : State, Ready s ∧ 4 < (5#3).toNat ∧ ((3#3).toNat ≤ 3 ∧ (2#3).toNat ≠ 1 ∧ (2#3).toNat ≠ 3 ∧ (2#3).toNat ≠ 6) ∧
      ((4#3).toNat = 4 ∧ (1#3).toNat ≠ 0) ∧ (Instr.encFrame 2#3 1#3).wellFormed = true ∧ 0 < s.len.toNat ∧
      8 * s.cfg.memBytes + 1 = 8 * s.srcb.toNat + s.srco.toNat + s.len.toNat :=
  ⟨copying [] 0#16 0#16 0xFF#16 4#16 5#16, by decide⟩

/-- V52. -/
theorem witness_DecArmStartsCycle :
    ∃ s t : State, Ready s ∧ s.dstb.toNat + s.cfg.rxCapBits / 8 = s.cfg.memBytes ∧ Ready t ∧
      t.cfg.memBytes + 1 = t.dstb.toNat + t.cfg.rxCapBits / 8 ∧ 4 < (5#3).toNat ∧
      (4#3, Scheme.rl) ∈ [(0#3, Scheme.ac2k), (1#3, .ac4k), (2#3, .mc4k), (3#3, .mc8k), (4#3, .rl)] :=
  ⟨{ State.reset with dstb := 0xE0#16 }, { State.reset with dstb := 0xE1#16 }, by decide⟩

theorem witness_IntervalClasses :
    (∃ t, thresholds Config.reference .mc4k = some t ∧ t.t2 < t.t3 ∧ t.t3 < t.t4 ∧ t.t4 < t.ts) ∧
      Config.reference.rl.tb < Config.reference.rl.ta ∧ Config.reference.rl.ta < Config.reference.rl.ts :=
  ⟨⟨HalfPeriodTiming.reference16, by decide⟩, by decide⟩

/-- The least start markers, in mid-frame and in a buffer one bit short of full. -/
theorem witness_StartMarkerBeginsFrame :
    ∃ s t : State, s.Inv ∧ s.mode = .rx ∧ classify s.cfg s.rxsch (37#16).toNat = .start ∧ s.rxsch = .rl ∧
      t.Inv ∧ t.mode = .rx ∧ classify t.cfg t.rxsch (80#16).toNat = .start ∧ t.rxsch ≠ .rl :=
  ⟨receiving .rl [] 0#16 true true, receiving .mc4k [(0x9F, 0xFE#8)] 255#16 true true, inv_armed _ _ _ _ rfl rfl, rfl,
    rfl, rfl, inv_almost_full _ _ _, rfl, rfl, by decide⟩

theorem witness_SingleBitClassesStore :
    ∃ s t u : State, s.Inv ∧ s.mode = .rx ∧ classify s.cfg s.rxsch (24#16).toNat = .h2 ∧
      t.Inv ∧ t.mode = .rx ∧ classify t.cfg t.rxsch (24#16).toNat = .one ∧
      u.Inv ∧ u.mode = .rx ∧ classify u.cfg u.rxsch (14#16).toNat = .zero :=
  ⟨receiving .mc4k [(0x9F, 0xFE#8)] 255#16 true true, receiving .rl [] 0#16 true true,
    receiving .rl [(0x9F, 0xFE#8)] 255#16 true true, inv_almost_full _ _ _, rfl, rfl, inv_armed _ _ _ _ rfl rfl, rfl, rfl,
    inv_almost_full _ _ _, rfl, rfl⟩

/-- The first bit of a buffer, and V46, where the 1 is lost. -/
theorem witness_FourHalfPeriodsStoreZeroOne :
    ∃ s t : State, s.Inv ∧ s.mode = .rx ∧ classify s.cfg s.rxsch (56#16).toNat = .h4 ∧
      t.Inv ∧ t.mode = .rx ∧ classify t.cfg t.rxsch (79#16).toNat = .h4 ∧
      t.rxlen.toNat + 1 = t.cfg.rxCapBits :=
  ⟨receiving .mc4k [] 0#16 true true, receiving .mc4k [(0x9F, 0xFE#8)] 255#16 true true, inv_armed _ _ _ _ rfl rfl, rfl,
    rfl, inv_almost_full _ _ _, rfl, rfl, rfl⟩

theorem witness_ThreeHalfPeriodsAlternate :
    ∃ s t : State, s.Inv ∧ s.mode = .rx ∧ classify s.cfg s.rxsch (40#16).toNat = .h3 ∧ s.skip = true ∧
      t.Inv ∧ t.mode = .rx ∧ classify t.cfg t.rxsch (55#16).toNat = .h3 ∧ t.skip = false :=
  ⟨receiving .mc4k [] 0#16 true true, receiving .ac2k [(0x9F, 0xFE#8)] 255#16 true false, inv_armed _ _ _ _ rfl rfl, rfl,
    rfl, rfl, inv_almost_full _ _ _, rfl, rfl, rfl⟩

theorem witness_NoiseIsCounted :
    ∃ s t : State, s.Inv ∧ s.mode = .rx ∧ classify s.cfg s.rxsch (23#16).toNat = .noise ∧
      s.noise.toNat < s.cfg.noiseMax ∧ t.Inv ∧ t.mode = .rx ∧ classify t.cfg t.rxsch (13#16).toNat = .noise ∧
      t.noise.toNat = t.cfg.noiseMax :=
  ⟨receiving .mc4k [] 0#16 true true, noisy, inv_armed _ _ _ _ rfl rfl, rfl, rfl, by decide, inv_noisy, rfl, rfl, rfl⟩

theorem witness_TimeoutEndsCycle : ∃ s t : State, s.mode = .rx ∧ t.mode = .idle := ⟨noisy, State.reset, rfl, rfl⟩

/-- A cycle that its next word ends. -/
theorem witness_CycleEndsForThreeReasons :
    ∃ s t : State, s.Inv ∧ s.mode = .rx ∧ step s = .next t ∧ t.mode = .idle := by
  refine ⟨{ noisy with inputs := [.event 0x10000#17] }, cycleEnded .timeout noisy, ?_, rfl, rfl, rfl⟩
  have h := inv_noisy
  exact ⟨h.1, h.2, h.3, h.4, h.5, h.6, h.7, h.8, h.9, h.10, h.11, h.12, h.13⟩

/-- A `DEC.ARM`, a command that is held, and a `TIMEOUT`. -/
def timely : State :=
  { holding [] with inputs := [.command 0x40800000#32, .command 0x00000000#32, .event 0x10000#17] }

/-- The end of the run of `timely`. -/
def timelyEnd : State :=
  { holding [] with
    rxsch := .rl, rxend := .timeout, responses := [⟨.ok, 0#16⟩, ⟨.ok, 0#16⟩] }

theorem runSteps_timelyEnd (k : Nat) : runSteps k timelyEnd = .next timelyEnd := by
  induction k with
  | zero => rfl
  | succ n ih => exact ih

theorem deadlineKept_timely : DeadlineKept timely := by
  intro k t h hm
  match k, h with
  | 0, h => cases h; exact absurd hm (by decide)
  | 1, h => cases h; rfl
  | 2, h => cases h; exact absurd hm (by decide)
  | n + 3, h =>
    have he : runSteps (n + 3) timely = runSteps n timelyEnd := rfl
    rw [he, runSteps_timelyEnd] at h
    cases h
    exact absurd hm (by decide)

theorem witness_DeadlineGivesProgress :
    ∃ (s u : State) (words : List PortWord) (e : EventWord), s.Inv ∧ DeadlineKept s ∧ s.inputs.length = 3 ∧
      u.Inv ∧ u.mode = .rx ∧ .event e ∈ words ∧ decodeEvent e = .timeout :=
  ⟨timely, noisy, [.command 0#32, .event 0x003E8#17, .event 0x10000#17], 0x10000#17, inv_fresh [] _ rfl rfl,
    deadlineKept_timely, rfl, inv_noisy, rfl, by decide, by decide⟩

/-- U9: without its `TIMEOUT` the cycle of `timely` is not ended by the words that wait. -/
theorem test_deadline_missed :
    cycleEnds (receiving .rl [] 0#16 true true) [.command 0x00000000#32, .event 0x003E8#17] = false := by decide

theorem witness_EdgeFrame :
    ∃ (s t : State) (n : Word), s.Inv ∧ s.mode = .rx ∧ exec (.edge n) s = .next t :=
  ⟨receiving .rl [] 0#16 true true, { receiving .rl [] 0#16 true true with noise := 1#16 }, 5#16,
    inv_armed _ _ _ _ rfl rfl, rfl, rfl⟩

/-- ManchesterRoundTrip with the five payload bits of V30. -/
theorem witness_ManchesterRoundTrip :
    ∃ (s : State) (code sof : BitVec 3) (sch : Scheme) (tm : HalfPeriodTiming) (g raw fb : Word),
      s.Inv ∧ Ready s ∧ s.cfg.StartFits ∧ (code, sch) ∈ [(2#3, Scheme.mc4k), (3#3, Scheme.mc8k)] ∧
      thresholds s.cfg sch = some tm ∧ sof ∈ [1#3, 3#3, 6#3] ∧ tm.ts ≤ g.toNat ∧
      8 * s.srcb.toNat + s.srco.toNat + s.len.toNat ≤ 8 * s.cfg.memBytes ∧
      sof.toNat + s.len.toNat ≤ s.cfg.rxCapBits ∧ raw.toNat + s.cfg.rxCapBits / 8 ≤ s.cfg.memBytes ∧
      8 * fb.toNat + s.len.toNat ≤ 8 * s.cfg.memBytes ∧
      (fb.toNat + (s.len.toNat + 7) / 8 ≤ raw.toNat ∨ raw.toNat + s.cfg.rxCapBits / 8 ≤ fb.toNat) := by
  refine ⟨copying [(0x10, 0x30#8)] 0#16 0#16 0x10#16 0#16 5#16, 2#3, 1#3, .mc4k, HalfPeriodTiming.reference16, 1000#16,
    0x80#16, 0x40#16, ?_, by decide⟩
  have h := inv_fresh [(0x10, 0x30#8)] [] rfl rfl
  exact ⟨h.1, h.2, h.3, h.4, h.5, h.6, h.7, h.8, h.9, h.10, h.11, h.12, h.13⟩

/-- AcRoundTrip with the five payload bits of V50. -/
theorem witness_AcRoundTrip :
    ∃ (s : State) (code sof : BitVec 3) (sch : Scheme) (tm : HalfPeriodTiming) (g raw fb : Word),
      s.Inv ∧ Ready s ∧ s.cfg.StartFits ∧ (code, sch) ∈ [(0#3, Scheme.ac2k), (1#3, Scheme.ac4k)] ∧
      thresholds s.cfg sch = some tm ∧ sof ∈ [1#3, 3#3, 6#3] ∧ tm.ts ≤ g.toNat ∧
      8 * s.srcb.toNat + s.srco.toNat + s.len.toNat ≤ 8 * s.cfg.memBytes ∧
      2 * sof.toNat + 2 * s.len.toNat ≤ s.cfg.rxCapBits ∧ raw.toNat + s.cfg.rxCapBits / 8 ≤ s.cfg.memBytes ∧
      8 * fb.toNat + s.len.toNat ≤ 8 * s.cfg.memBytes ∧
      (fb.toNat + (s.len.toNat + 7) / 8 ≤ raw.toNat ∨ raw.toNat + s.cfg.rxCapBits / 8 ≤ fb.toNat) ∧
      0 < s.len.toNat ∧ getBit s s.srcb.toNat (s.srco.toNat + s.len.toNat - 1) = false := by
  refine ⟨copying [(0x10, 0x30#8)] 0#16 0#16 0x10#16 0#16 5#16, 0#3, 3#3, .ac2k, HalfPeriodTiming.reference16, 1000#16,
    0x80#16, 0x40#16, ?_, by decide⟩
  have h := inv_fresh [(0x10, 0x30#8)] [] rfl rfl
  exact ⟨h.1, h.2, h.3, h.4, h.5, h.6, h.7, h.8, h.9, h.10, h.11, h.12, h.13⟩

/-- ReverseLinkRoundTrip with the payload of V34. -/
theorem witness_ReverseLinkRoundTrip :
    ∃ (s : State) (g raw : Word), s.Inv ∧ Ready s ∧ s.cfg.StartFits ∧ s.cfg.rl.ts ≤ g.toNat ∧
      8 * s.srcb.toNat + s.srco.toNat + s.len.toNat ≤ 8 * s.cfg.memBytes ∧
      s.len.toNat ≤ s.cfg.rxCapBits ∧ raw.toNat + s.cfg.rxCapBits / 8 ≤ s.cfg.memBytes := by
  refine ⟨copying [(0x10, 0x60#8)] 0#16 0#16 0x10#16 0#16 3#16, 500#16, 0x80#16, ?_, by decide⟩
  have h := inv_fresh [(0x10, 0x60#8)] [] rfl rfl
  exact ⟨h.1, h.2, h.3, h.4, h.5, h.6, h.7, h.8, h.9, h.10, h.11, h.12, h.13⟩

end Sys2Proof.Tests
end

section
/-! PROOFS. The statements about the whole state (10_state.md): `State.Inv` is kept, the histories grow, and which
instructions change `M` and `CRC`. First what each effect is and leaves alone, then the statements. -/

namespace Sys2Proof.Machine

/-! ### What a command that passed its checks does -/

/-- `SETR` of a writable register writes it and answers OK (R81). -/
theorem effectOf_setr {reg : BitVec 8} {r : Reg} (h : regOfNumber reg = some r) (v : Word) (s : State) :
    effectOf (.setr reg v) s = respond .ok 0#16 (writeReg r v s) := by
  simp only [effectOf, h]

/-- `GETR` of an assigned register answers its value (R82). -/
theorem effectOf_getr {reg : BitVec 8} {r : Reg} (h : regOfNumber reg = some r) (s : State) :
    effectOf (.getr reg) s = respond .ok (readReg s r) s := by
  simp only [effectOf, h]

/-- `ENC.FRAME` adds the frame and its end mark to the trace, leaves the line LOW and answers OK (R110, R117). -/
theorem effectOf_encFrame {scheme : BitVec 3} {sch : Scheme} (h : schemeOfCode scheme = some sch) (sof : BitVec 3)
    (s : State) :
    effectOf (.encFrame scheme sof) s =
      respond .ok 0#16
        { s with
          lineTrace := s.lineTrace ++
            (frameSegments s.cfg sch sof.toNat (getBits s s.srcb.toNat s.srco.toNat s.len.toNat)).map traceEntry ++
            [.rest]
          line := .low } := by
  simp only [effectOf, h, endFrame_foldl_emit]

/-- `DEC.ARM` of an assigned scheme starts a cycle (R132). -/
theorem effectOf_decArm {scheme : BitVec 3} {sch : Scheme} (h : schemeOfCode scheme = some sch) (s : State) :
    effectOf (.decArm scheme) s = startCycle sch s := by
  simp only [effectOf, h]

/-- `BFB.APPEND` and `BFB.ACX`, in their empty case too, answer OK and change `M` and `DSTO` only (R101, R104). -/
theorem effectOf_append_eq {i : Instr} (h : i = .bfbAppend ∨ i = .bfbAcx) (s : State) :
    ∃ mem dsto, effectOf i s =
      { s with mem := mem, dsto := dsto, responses := s.responses ++ [⟨.ok, 0#16⟩] } := by
  rcases h with rfl | rfl <;> simp only [effectOf] <;> split
  case inl.isTrue => exact ⟨s.mem, s.dsto, rfl⟩
  case inr.isTrue => exact ⟨s.mem, s.dsto, rfl⟩
  all_goals exact ⟨_, _, appendAtDestination_eq _ s⟩

/-- A register write changes the operand registers and `CRC` only (R81). -/
theorem writeReg_eq (r : Reg) (v : Word) (s : State) :
    writeReg r v s =
      { s with
        dstb := (writeReg r v s).dstb
        dsto := (writeReg r v s).dsto
        srcb := (writeReg r v s).srcb
        srco := (writeReg r v s).srco
        len := (writeReg r v s).len
        crc := (writeReg r v s).crc } := by
  cases r <;> rfl

/-- The fault entry and the refusal change the fault state and the responses only (R169, R170). -/
theorem raiseFault_eq (code : FaultCode) (s : State) :
    raiseFault code s =
      { s with
        fault := true
        err := (raiseFault code s).err
        responses := s.responses ++ [⟨if s.fault then .refused else .faulted, 0#16⟩] } := by
  cases hf : s.fault with
  | false => simp [raiseFault_of_faultFree _ _ hf]
  | true => simp [raiseFault_of_faulted _ _ hf, ← hf]

/-! ### What an edge leaves alone -/

/-- The state with everything blanked that an edge of a running cycle may write: `M`, the responses and the registers
of the cycle (R136 to R145). Two states that agree here agree in every other field. -/
def outsideReceive (s : State) : State :=
  { s with
    mem := []
    rxlen := 0#16
    last := true
    skip := true
    noise := 0#16
    rxend := .notEnded
    mode := .idle
    responses := [] }

/-- `t` comes from `s` by work of the decoder: the rest of the state is kept, and no response is taken back. -/
structure ReceiveFrame (s t : State) : Prop where
  outside : outsideReceive t = outsideReceive s
  responses : s.responses <+: t.responses

/-- Work of the decoder after work of the decoder. -/
theorem ReceiveFrame.trans {s t u : State} (h1 : ReceiveFrame s t) (h2 : ReceiveFrame t u) : ReceiveFrame s u :=
  ⟨h2.outside.trans h1.outside, h1.responses.trans h2.responses⟩

/-- The decoder does not touch `CRC` (R23, R186). -/
theorem ReceiveFrame.crc {s t : State} (h : ReceiveFrame s t) : t.crc = s.crc := (congrArg State.crc h.outside :)

/-- The end of a cycle (R145). -/
theorem receiveFrame_endCycle (reason : RxEnd) (s : State) : ReceiveFrame s (endCycle reason s) :=
  ⟨rfl, ⟨_, rfl⟩⟩

/-- A store (R136). -/
theorem receiveFrame_storeRaw (bit : Bool) (s : State) : ReceiveFrame s (storeRaw bit s) := by
  rw [storeRaw_eq]
  exact ⟨rfl, List.prefix_rfl⟩

/-- A frame that begins again (R137, R142). -/
theorem receiveFrame_restartFrame (s : State) : ReceiveFrame s (restartFrame s) := ⟨rfl, List.prefix_rfl⟩

/-- `PutRaw`, in and outside a cycle (R136, R143). -/
theorem receiveFrame_putRaw {bit : Bool} {s t : State} (h : putRaw bit s = .ok t) : ReceiveFrame s t := by
  rcases putRaw_cases h with ⟨_, rfl⟩ | ⟨_, _, ⟨_, rfl⟩ | ⟨_, rfl⟩⟩
  · exact ⟨rfl, List.prefix_rfl⟩
  · exact (receiveFrame_storeRaw bit s).trans (receiveFrame_endCycle .full _)
  · exact receiveFrame_storeRaw bit s

/-- `PutRaw` twice. -/
theorem receiveFrame_putRawTwo {bit1 bit2 : Bool} {s t : State} (h : putRawTwo bit1 bit2 s = .ok t) :
    ReceiveFrame s t := by
  simp only [putRawTwo] at h
  cases h1 : putRaw bit1 s with
  | error f => simp [h1] at h
  | ok u =>
    simp only [h1] at h
    exact (receiveFrame_putRaw h1).trans (receiveFrame_putRaw h)

/-- Class START (R137, R142). -/
theorem receiveFrame_onStart {s t : State} (h : onStart s = .ok t) : ReceiveFrame s t := by
  simp only [onStart] at h
  split at h
  case h_1 => cases h; exact receiveFrame_restartFrame s
  all_goals exact (receiveFrame_restartFrame s).trans (receiveFrame_putRaw h)

/-- Class H3 (R140). -/
theorem receiveFrame_onH3 {s t : State} (h : onH3 s = .ok t) : ReceiveFrame s t := by
  simp only [onH3] at h
  split at h
  case h_1 => cases h
  case h_2 u hu =>
    cases h
    have hstore : ReceiveFrame s u := by
      split at hu
      · exact receiveFrame_putRaw hu
      · exact receiveFrame_putRawTwo hu
    exact ⟨hstore.outside, hstore.responses⟩

/-- Class NOISE (R141). -/
theorem receiveFrame_onNoise (s : State) : ReceiveFrame s (onNoise s) := by
  simp only [onNoise]
  split
  · exact ⟨rfl, ⟨_, rfl⟩⟩
  · exact ⟨rfl, List.prefix_rfl⟩

/-- An edge of a running cycle is work of the decoder in every class (R134). -/
theorem receiveFrame_onEdge {n : Word} {s t : State} (h : onEdge n s = .ok t) : ReceiveFrame s t := by
  cases hc : classify s.cfg s.rxsch n.toNat <;> simp only [onEdge, hc] at h
  case start => exact receiveFrame_onStart h
  case h4 => exact receiveFrame_putRawTwo h
  case h3 => exact receiveFrame_onH3 h
  case noise => cases h; exact receiveFrame_onNoise s
  all_goals exact receiveFrame_putRaw h

/-! ### The invariant -/

/-- The operand registers and `CRC` do not matter to the invariant. -/
theorem inv_operands {s : State} (hs : s.Inv) (dstb dsto srcb srco len : Word) (crc : Byte) :
    State.Inv { s with dstb := dstb, dsto := dsto, srcb := srcb, srco := srco, len := len, crc := crc } :=
  ⟨hs.1, hs.2, hs.3, hs.4, hs.5, hs.6, hs.7, hs.8, hs.9, hs.10, hs.11, hs.12, hs.13⟩

/-- The line trace does not matter to the invariant, provided the line is LOW (R117). -/
theorem inv_line {s : State} (hs : s.Inv) (trace : List LineEvent) :
    State.Inv { s with lineTrace := trace, line := .low } :=
  ⟨hs.1, hs.2, hs.3, hs.4, rfl, hs.6, hs.7, hs.8, hs.9, hs.10, hs.11, hs.12, hs.13⟩

/-- A byte written inside `M` by a command keeps the invariant (R83). -/
theorem memWrite_inv {s : State} (hs : s.Inv) (hm : s.mode = .idle) {a : Nat} (ha : a < s.cfg.memBytes) (v : Byte) :
    (memWrite a v s).Inv :=
  inv_of_idle hs hm rfl (memInsert_wf _ _ _ hs.memCanonical) (memInsert_inside _ _ _ _ ha hs.memInside)
    hs.errFault hs.lineLow hs.rxlenBound hs.noiseBound

/-- The registers at their reset values meet the invariant with any `M` that did (R85). -/
theorem resetRegisters_inv {s : State} (hs : s.Inv) : (resetRegisters s).Inv :=
  inv_of_idle hs rfl rfl hs.memCanonical hs.memInside rfl rfl (Nat.zero_le _) (Nat.zero_le _)

/-- A cycle starts in the invariant when the block has no fault and the receive buffer lies in `M` (R132). -/
theorem startCycle_inv {s : State} (hs : s.Inv) (hf : s.fault = false)
    (hb : s.dstb.toNat + s.cfg.rxCapBits / 8 ≤ s.cfg.memBytes) (sch : Scheme) : (startCycle sch s).Inv := by
  obtain ⟨_, ⟨_, hcap, _⟩, _⟩ := hs.cfgValid
  have hpos : 0 < s.cfg.rxCapBits := by omega
  exact ⟨hs.cfgValid, hs.memCanonical, hs.memInside, hs.errFault, hs.lineLow, Nat.zero_le _, Nat.zero_le _,
    fun _ => hf, fun _ => hb, fun _ => hpos, fun _ => Nat.zero_le _, fun _ => rfl, fun _ _ _ _ h => absurd rfl h⟩

/-- `BFB.APPEND` past its checks keeps the invariant: the destination range is valid (R101, R102). -/
theorem effectOf_bfbAppend_inv {s : State} (hs : s.Inv) (hm : s.mode = .idle) (hc : checkAppend s = none) :
    (effectOf .bfbAppend s).Inv := by
  simp only [checkAppend] at hc
  simp only [effectOf]
  split
  · exact inv_responses hs _
  · next hlen =>
    rw [if_neg hlen, checkCopy_none_iff] at hc
    obtain ⟨_, hdst, _⟩ := hc
    exact appendAtDestination_inv hs hm _ (by rw [getBits_length]; omega) (by rwa [getBits_length])

/-- `BFB.ACX` past its checks keeps the invariant: the destination range is valid (R102, R104). -/
theorem effectOf_bfbAcx_inv {s : State} (hs : s.Inv) (hm : s.mode = .idle) (hc : checkAcx s = none) :
    (effectOf .bfbAcx s).Inv := by
  simp only [checkAcx] at hc
  simp only [effectOf]
  split
  · exact inv_responses hs _
  · next hlen =>
    rw [if_neg hlen, checkCopy_none_iff] at hc
    obtain ⟨_, hdst, _⟩ := hc
    exact appendAtDestination_inv hs hm _ (by rw [acxBits_length]; exact acx_count_pos _ _)
      (by rwa [acxBits_length])

/-- A command that passed its checks and is performed keeps the invariant. -/
theorem effectOf_inv {i : Instr} {s : State} (hs : s.Inv) (hm : s.mode = .idle) (hi : i.isEvent = false)
    (hc : checkOf s i = none) (hf : s.fault = false ∨ servedInFault i = true) : (effectOf i s).Inv := by
  cases i with
  | nop => exact inv_responses hs _
  | setr reg v =>
    obtain ⟨r, hr, _⟩ := reg_of_checkWrite hc
    rw [effectOf_setr hr, writeReg_eq]
    exact inv_responses (inv_operands hs ..) _
  | getr reg =>
    obtain ⟨r, hr⟩ := reg_of_checkRead hc
    rw [effectOf_getr hr]
    exact inv_responses hs _
  | mwr a v => exact inv_responses (memWrite_inv hs hm ((checkAddress_none_iff _ _).mp hc) v) _
  | mrd a => exact inv_responses hs _
  | reset => exact inv_responses (resetRegisters_inv hs) _
  | crcInit => exact inv_responses (inv_operands hs ..) _
  | crcByte n d => exact inv_responses (inv_operands hs ..) _
  | crcBuf => exact inv_responses (inv_operands hs ..) _
  | bfbAppend => exact effectOf_bfbAppend_inv hs hm hc
  | bfbAcx => exact effectOf_bfbAcx_inv hs hm hc
  | encFrame scheme sof =>
    obtain ⟨sch, hsch, _⟩ := scheme_of_checkFrame hc
    rw [effectOf_encFrame hsch]
    exact inv_responses (inv_line hs _) _
  | decArm scheme =>
    obtain ⟨sch, hsch, hb⟩ := scheme_of_checkArm hc
    rw [effectOf_decArm hsch]
    exact startCycle_inv hs (hf.resolve_right Bool.false_ne_true) hb sch
  | edge n => exact absurd hi Bool.noConfusion
  | timeout => exact absurd hi Bool.noConfusion

/-- Every instruction keeps the invariant. -/
theorem exec_inv {i : Instr} {s t : State} (hs : s.Inv) (h : exec i s = .next t) : t.Inv := by
  rcases exec_cases h with rfl | ⟨hm, _, code, _, rfl⟩ | ⟨_, _, _, _, _, rfl⟩ | ⟨hm, hi, hc, hf, rfl⟩ |
    ⟨_, rfl, rfl⟩ | ⟨hm, n, rfl, hn⟩
  · exact hs
  · exact raiseFault_inv hs hm code
  · exact inv_responses hs _
  · exact effectOf_inv hs hm hi hc hf
  · exact inv_of_idle hs rfl rfl hs.memCanonical hs.memInside hs.errFault hs.lineLow hs.rxlenBound hs.noiseBound
  · exact onEdge_inv hs hm hn

/-- Settles O11: waiting and taking a word change nothing the invariant speaks of, and what is then performed, an
instruction or the rejection of an illegal word, keeps it. -/
theorem everyStepKeepsInvariant : Obligations.EveryStepKeepsInvariant := by
  intro s t hs h
  rcases step_cases h with rfl | ⟨_, left, hm, _, ⟨i, _, hx⟩ | ⟨_, _, rfl⟩⟩ | ⟨_, left, _, _, hx⟩
  · exact hs
  · exact exec_inv (inv_inputs hs left) hx
  · exact raiseFault_inv (inv_inputs hs left) hm _
  · exact exec_inv (inv_inputs hs left) hx

/-! ### The histories and the parameters -/

/-- `t` comes after `s` in a run: both histories of `t` begin with those of `s` (R34), the parameters are the
same (R31). -/
structure Grows (s t : State) : Prop where
  responses : s.responses <+: t.responses
  lineTrace : s.lineTrace <+: t.lineTrace
  cfg : t.cfg = s.cfg
  powerOn : t.powerOn = s.powerOn

/-- Waiting. -/
theorem grows_refl (s : State) : Grows s s := ⟨List.prefix_rfl, List.prefix_rfl, rfl, rfl⟩

/-- A response more. -/
theorem grows_respond (st : Status) (v : Word) {s t : State} (h : Grows s t) : Grows s (respond st v t) :=
  ⟨h.responses.trans ⟨_, rfl⟩, h.lineTrace, h.cfg, h.powerOn⟩

/-- The fault entry and the refusal (R169, R170). -/
theorem grows_raiseFault (code : FaultCode) (s : State) : Grows s (raiseFault code s) := by
  rw [raiseFault_eq]
  exact ⟨⟨_, rfl⟩, List.prefix_rfl, rfl, rfl⟩

/-- The decoder drives no line and answers at most (R145). -/
theorem ReceiveFrame.grows {s t : State} (h : ReceiveFrame s t) : Grows s t :=
  have htrace : t.lineTrace = s.lineTrace := (congrArg State.lineTrace h.outside :)
  ⟨h.responses, htrace ▸ List.prefix_rfl, (congrArg State.cfg h.outside :), (congrArg State.powerOn h.outside :)⟩

/-- A command that passed its checks takes nothing back. -/
theorem grows_effectOf {i : Instr} {s : State} (hi : i.isEvent = false) (hc : checkOf s i = none) :
    Grows s (effectOf i s) := by
  cases i with
  | setr reg v =>
    obtain ⟨r, hr, _⟩ := reg_of_checkWrite hc
    rw [effectOf_setr hr, writeReg_eq]
    exact grows_respond _ _ ⟨List.prefix_rfl, List.prefix_rfl, rfl, rfl⟩
  | getr reg =>
    obtain ⟨r, hr⟩ := reg_of_checkRead hc
    rw [effectOf_getr hr]
    exact grows_respond _ _ (grows_refl s)
  | bfbAppend =>
    obtain ⟨_, _, h⟩ := effectOf_append_eq (.inl rfl) s
    rw [h]
    exact ⟨⟨_, rfl⟩, List.prefix_rfl, rfl, rfl⟩
  | bfbAcx =>
    obtain ⟨_, _, h⟩ := effectOf_append_eq (.inr rfl) s
    rw [h]
    exact ⟨⟨_, rfl⟩, List.prefix_rfl, rfl, rfl⟩
  | encFrame scheme sof =>
    obtain ⟨sch, hsch, _⟩ := scheme_of_checkFrame hc
    rw [effectOf_encFrame hsch, List.append_assoc]
    exact grows_respond _ _ ⟨List.prefix_rfl, ⟨_, rfl⟩, rfl, rfl⟩
  | decArm scheme =>
    obtain ⟨sch, hsch, _⟩ := scheme_of_checkArm hc
    rw [effectOf_decArm hsch]
    exact ⟨List.prefix_rfl, List.prefix_rfl, rfl, rfl⟩
  | edge n => exact absurd hi Bool.noConfusion
  | timeout => exact absurd hi Bool.noConfusion
  | _ => exact grows_respond _ _ ⟨List.prefix_rfl, List.prefix_rfl, rfl, rfl⟩

/-- No instruction takes anything back. -/
theorem grows_exec {i : Instr} {s t : State} (h : exec i s = .next t) : Grows s t := by
  rcases exec_cases h with rfl | ⟨_, _, code, _, rfl⟩ | ⟨_, _, _, _, _, rfl⟩ | ⟨_, hi, hc, _, rfl⟩ |
    ⟨_, _, rfl⟩ | ⟨_, n, _, hn⟩
  · exact grows_refl _
  · exact grows_raiseFault code s
  · exact grows_respond _ _ (grows_refl s)
  · exact grows_effectOf hi hc
  · exact (receiveFrame_endCycle .timeout s).grows
  · exact (receiveFrame_onEdge hn).grows

/-- Taking a word from a port touches neither history nor parameter. -/
theorem grows_of_inputs {s t : State} {words : List PortWord} (h : Grows { s with inputs := words } t) : Grows s t :=
  ⟨h.responses, h.lineTrace, h.cfg, h.powerOn⟩

/-- No step takes anything back. -/
theorem grows_step {s t : State} (h : step s = .next t) : Grows s t := by
  rcases step_cases h with rfl | ⟨_, _, _, _, ⟨_, _, hx⟩ | ⟨_, _, rfl⟩⟩ | ⟨_, _, _, _, hx⟩
  · exact grows_refl _
  · exact grows_of_inputs (grows_exec hx)
  · exact grows_of_inputs (grows_raiseFault _ _)
  · exact grows_of_inputs (grows_exec hx)

/-- Settles O15: `grows_step`, with what was added named. -/
theorem historiesGrowAndParametersStay : Obligations.HistoriesGrowAndParametersStay := by
  intro s t h
  obtain ⟨⟨r, hr⟩, ⟨l, hl⟩, hcfg, hpow⟩ := grows_step h
  exact ⟨⟨r, hr.symm⟩, ⟨l, hl.symm⟩, hcfg, hpow⟩

/-! ### Who writes `M` -/

/-- Of the commands past their checks only `MWR`, `BFB.APPEND` and `BFB.ACX` change `M` (R32). -/
theorem effectOf_mem {i : Instr} {s : State} (hc : checkOf s i = none) (hmwr : ∀ a d, i ≠ .mwr a d)
    (happend : i ≠ .bfbAppend) (hacx : i ≠ .bfbAcx) : (effectOf i s).mem = s.mem := by
  cases i with
  | setr reg v =>
    obtain ⟨r, hr, _⟩ := reg_of_checkWrite hc
    rw [effectOf_setr hr, writeReg_eq]
    rfl
  | getr reg =>
    obtain ⟨r, hr⟩ := reg_of_checkRead hc
    rw [effectOf_getr hr, respond_mem]
  | mwr a d => exact absurd rfl (hmwr a d)
  | bfbAppend => exact absurd rfl happend
  | bfbAcx => exact absurd rfl hacx
  | encFrame scheme sof =>
    obtain ⟨sch, hsch, _⟩ := scheme_of_checkFrame hc
    rw [effectOf_encFrame hsch, respond_mem]
  | decArm scheme =>
    obtain ⟨sch, hsch, _⟩ := scheme_of_checkArm hc
    rw [effectOf_decArm hsch, startCycle_mem]
  | _ => rfl

/-- Settles O17: a fault, a refusal and the end of a cycle write no byte, and of the effects only the writers' do. -/
theorem onlyWritersChangeMemory : Obligations.OnlyWritersChangeMemory := by
  intro i s t h hmwr happend hacx hedge
  rcases exec_cases h with rfl | ⟨_, _, code, _, rfl⟩ | ⟨_, _, _, _, _, rfl⟩ | ⟨_, _, hc, _, rfl⟩ |
    ⟨_, _, rfl⟩ | ⟨_, n, hn, _⟩
  · rfl
  · rw [raiseFault_eq]
  · rw [respond_mem]
  · exact effectOf_mem hc hmwr happend hacx
  · rw [endCycle_mem]
  · exact absurd hn (hedge n)

/-! ### Who writes `CRC` -/

/-- Of the commands past their checks only `SETR`, `RESET` and the CRC commands change `CRC` (R23). -/
theorem effectOf_crc {i : Instr} {s : State} (hc : checkOf s i = none) (hsetr : ∀ r v, i ≠ .setr r v)
    (hreset : i ≠ .reset) (hinit : i ≠ .crcInit) (hbyte : ∀ n d, i ≠ .crcByte n d) (hbuf : i ≠ .crcBuf) :
    (effectOf i s).crc = s.crc := by
  cases i with
  | setr reg v => exact absurd rfl (hsetr reg v)
  | getr reg =>
    obtain ⟨r, hr⟩ := reg_of_checkRead hc
    rw [effectOf_getr hr, respond_crc]
  | reset => exact absurd rfl hreset
  | crcInit => exact absurd rfl hinit
  | crcByte n d => exact absurd rfl (hbyte n d)
  | crcBuf => exact absurd rfl hbuf
  | bfbAppend =>
    obtain ⟨_, _, h⟩ := effectOf_append_eq (.inl rfl) s
    rw [h]
  | bfbAcx =>
    obtain ⟨_, _, h⟩ := effectOf_append_eq (.inr rfl) s
    rw [h]
  | encFrame scheme sof =>
    obtain ⟨sch, hsch, _⟩ := scheme_of_checkFrame hc
    rw [effectOf_encFrame hsch, respond_crc]
  | decArm scheme =>
    obtain ⟨sch, hsch, _⟩ := scheme_of_checkArm hc
    rw [effectOf_decArm hsch, startCycle_crc]
  | _ => rfl

/-- Settles O18: faults, refusals and the whole decoder leave `CRC` alone, and of the effects only its writers' do
not. -/
theorem onlyCrcCommandsChangeCrc : Obligations.OnlyCrcCommandsChangeCrc := by
  intro i s t h hsetr hreset hinit hbyte hbuf
  rcases exec_cases h with rfl | ⟨_, _, code, _, rfl⟩ | ⟨_, _, _, _, _, rfl⟩ | ⟨_, _, hc, _, rfl⟩ |
    ⟨_, _, rfl⟩ | ⟨_, n, _, hn⟩
  · rfl
  · rw [raiseFault_eq]
  · rw [respond_crc]
  · exact effectOf_crc hc hsetr hreset hinit hbyte hbuf
  · rw [endCycle_crc]
  · exact (receiveFrame_onEdge hn).crc

end Sys2Proof.Machine
end

section
/-! PROOFS. The statements about the encoding (30_encoding.md): the fields of each format, decoding as the inverse of
encoding, the opcode map, the response word, illegal words, and one response for every command. -/

namespace Sys2Proof

open Sys2Proof.Machine Sys2Proof.Claims

/-! ### A word and its fields -/

/-- Two concatenations agree when their parts do. -/
theorem append_inj_iff {m n : Nat} (x x' : BitVec m) (y y' : BitVec n) : x ++ y = x' ++ y' ↔ x = x' ∧ y = y' := by
  constructor
  · intro h
    have hx := congrArg (BitVec.extractLsb' n m) h
    have hy := congrArg (BitVec.extractLsb' 0 n) h
    rw [BitVec.extractLsb'_append_eq_left, BitVec.extractLsb'_append_eq_left] at hx
    rw [BitVec.extractLsb'_append_eq_right, BitVec.extractLsb'_append_eq_right] at hy
    exact ⟨hx, hy⟩
  · rintro ⟨rfl, rfl⟩
    rfl

/-- A field is a concatenation when its upper and its lower part are the two strings. -/
theorem append_eq_field_iff {m n v : Nat} (x : BitVec m) (y : BitVec n) (w : BitVec v) (lo : Nat) :
    x ++ y = w.extractLsb' lo (m + n) ↔ w.extractLsb' (lo + n) m = x ∧ w.extractLsb' lo n = y := by
  rw [← BitVec.extractLsb'_append_extractLsb'_eq_extractLsb' rfl, append_inj_iff, @eq_comm _ x, @eq_comm _ y]

/-- A word is a concatenation when its upper and its lower field are the two strings. -/
theorem append_eq_iff {m n : Nat} (x : BitVec m) (y : BitVec n) (w : BitVec (m + n)) :
    x ++ y = w ↔ w.extractLsb' n m = x ∧ w.extractLsb' 0 n = y := by
  have h := append_eq_field_iff x y w 0
  rwa [BitVec.extractLsb'_eq_self, Nat.zero_add] at h

/-- The words of format Z (R61). -/
theorem formatZ_eq_iff (op : BitVec 8) (w : CommandWord) :
    formatZ op = w ↔ w.extractLsb' 24 8 = op ∧ w.extractLsb' 0 24 = 0#24 :=
  append_eq_iff op 0#24 w

/-- The words of format R (R62). -/
theorem formatR_eq_iff (op reg : BitVec 8) (imm16 : Word) (w : CommandWord) :
    formatR op reg imm16 = w ↔
      w.extractLsb' 24 8 = op ∧ w.extractLsb' 16 8 = reg ∧ w.extractLsb' 0 16 = imm16 := by
  have h := append_eq_iff (op ++ reg) imm16 w
  rwa [eq_comm (b := op ++ reg), append_eq_field_iff, and_assoc] at h

/-- The words of format W (R63). -/
theorem formatW_eq_iff (op : BitVec 8) (addr16 : Word) (data8 : Byte) (w : CommandWord) :
    formatW op addr16 data8 = w ↔
      w.extractLsb' 24 8 = op ∧ w.extractLsb' 8 16 = addr16 ∧ w.extractLsb' 0 8 = data8 := by
  have h := append_eq_iff (op ++ addr16) data8 w
  rwa [eq_comm (b := op ++ addr16), append_eq_field_iff, and_assoc] at h

/-- The words of format C (R64). -/
theorem formatC_eq_iff (op : BitVec 8) (n : BitVec 4) (data8 : Byte) (w : CommandWord) :
    formatC op n data8 = w ↔
      w.extractLsb' 24 8 = op ∧ w.extractLsb' 12 12 = 0#12 ∧ w.extractLsb' 8 4 = n ∧
        w.extractLsb' 0 8 = data8 := by
  have h := append_eq_iff (op ++ 0#12 ++ n) data8 w
  rwa [eq_comm (b := op ++ 0#12 ++ n), append_eq_field_iff, eq_comm (b := op ++ 0#12), append_eq_field_iff,
    and_assoc, and_assoc] at h

/-- The words of format S (R65). -/
theorem formatS_eq_iff (op : BitVec 8) (scheme sof : BitVec 3) (w : CommandWord) :
    formatS op scheme sof = w ↔
      w.extractLsb' 24 8 = op ∧ w.extractLsb' 21 3 = scheme ∧ w.extractLsb' 18 3 = sof ∧
        w.extractLsb' 0 18 = 0#18 := by
  have h := append_eq_iff (op ++ scheme ++ sof) 0#18 w
  rwa [eq_comm (b := op ++ scheme ++ sof), append_eq_field_iff, eq_comm (b := op ++ scheme), append_eq_field_iff,
    and_assoc, and_assoc] at h

/-- Format S without `sof`: its three bits are among the zero bits (R65). -/
theorem formatS_sofless_eq_iff (op : BitVec 8) (scheme : BitVec 3) (w : CommandWord) :
    formatS op scheme 0#3 = w ↔
      w.extractLsb' 24 8 = op ∧ w.extractLsb' 21 3 = scheme ∧ w.extractLsb' 0 21 = 0#21 := by
  have h := append_eq_field_iff 0#3 0#18 w 0
  rw [formatS_eq_iff, ← h, eq_comm (b := w.extractLsb' 0 21)]
  rfl

/-- The words of the edge port (R67). -/
theorem eventWord_eq_iff (kind : BitVec 1) (interval : Word) (w : EventWord) :
    kind ++ interval = w ↔ w.extractLsb' 16 1 = kind ∧ w.extractLsb' 0 16 = interval :=
  append_eq_iff kind interval w

/-! ### Decoding is the inverse of encoding -/

/-- A command with must-be-zero bits is accepted exactly when they are 0 (R168 step 2). -/
theorem whenZero_ok_iff {z : Bool} {i j : Instr} : whenZero z i = .ok j ↔ z = true ∧ i = j := by
  cases z <;> simp [whenZero]

/-- A row of format Z accepts no word but its own (R61). -/
theorem encode_of_whenZero_formatZ {op : BitVec 8} {w : CommandWord} {i j : Instr}
    (hi : encode i = .command (formatZ op)) (hop : w.extractLsb' 24 8 = op)
    (h : whenZero (w.extractLsb' 0 24 == 0#24) i = .ok j) : encode j = .command w := by
  obtain ⟨hz, rfl⟩ := whenZero_ok_iff.mp h
  rw [hi, (formatZ_eq_iff op w).mpr ⟨hop, eq_of_beq hz⟩]

/-- The rows of the opcode map one after another: what each row that accepts gives, the whole map gives. -/
theorem ite_ok_elim {p goal : Prop} [Decidable p] {a b : Except Illegal Instr} {i : Instr}
    (ha : p → a = .ok i → goal) (hb : b = .ok i → goal) : (if p then a else b) = .ok i → goal := by
  split
  · next hp => exact ha hp
  · exact hb

/-- A command word that decodes is the word of its command: the row's zero bits and the fields make up the word. -/
theorem encode_of_decodeCommand {w : CommandWord} {i : Instr} : decodeCommand w = .ok i → encode i = .command w := by
  simp only [decodeCommand]
  refine ite_ok_elim ?nop <| ite_ok_elim ?setr <| ite_ok_elim ?getr <| ite_ok_elim ?mwr <| ite_ok_elim ?mrd <|
    ite_ok_elim ?reset <| ite_ok_elim ?crcInit <| ite_ok_elim ?crcByte <| ite_ok_elim ?crcBuf <|
    ite_ok_elim ?bfbAppend <| ite_ok_elim ?bfbAcx <| ite_ok_elim ?encFrame <| ite_ok_elim ?decArm nofun
  case setr =>
    rintro hop ⟨⟩
    exact congrArg PortWord.command ((formatR_eq_iff ..).mpr ⟨hop, rfl, rfl⟩)
  case getr =>
    intro hop h
    obtain ⟨hz, rfl⟩ := whenZero_ok_iff.mp h
    exact congrArg PortWord.command ((formatR_eq_iff ..).mpr ⟨hop, rfl, eq_of_beq hz⟩)
  case mwr =>
    rintro hop ⟨⟩
    exact congrArg PortWord.command ((formatW_eq_iff ..).mpr ⟨hop, rfl, rfl⟩)
  case mrd =>
    intro hop h
    obtain ⟨hz, rfl⟩ := whenZero_ok_iff.mp h
    exact congrArg PortWord.command ((formatW_eq_iff ..).mpr ⟨hop, rfl, eq_of_beq hz⟩)
  case crcByte =>
    intro hop h
    obtain ⟨hz, rfl⟩ := whenZero_ok_iff.mp h
    exact congrArg PortWord.command ((formatC_eq_iff ..).mpr ⟨hop, eq_of_beq hz, rfl, rfl⟩)
  case encFrame =>
    intro hop h
    obtain ⟨hz, rfl⟩ := whenZero_ok_iff.mp h
    exact congrArg PortWord.command ((formatS_eq_iff ..).mpr ⟨hop, rfl, rfl, eq_of_beq hz⟩)
  case decArm =>
    intro hop h
    obtain ⟨hz, rfl⟩ := whenZero_ok_iff.mp h
    exact congrArg PortWord.command ((formatS_sofless_eq_iff ..).mpr ⟨hop, rfl, eq_of_beq hz⟩)
  all_goals exact encode_of_whenZero_formatZ rfl

/-- The word of a command decodes to it: its opcode selects the row, and each field stands at its place. -/
theorem decodeCommand_of_encode {w : CommandWord} {i : Instr} (h : encode i = .command w) :
    decodeCommand w = .ok i := by
  cases i with
  | setr reg imm16 =>
    obtain ⟨hop, hreg, himm⟩ := (formatR_eq_iff ..).mp (PortWord.command.inj h)
    simp [decodeCommand, hop, hreg, himm]
  | getr reg =>
    obtain ⟨hop, hreg, hz⟩ := (formatR_eq_iff ..).mp (PortWord.command.inj h)
    simp [decodeCommand, whenZero, hop, hreg, hz]
  | mwr addr16 data8 =>
    obtain ⟨hop, haddr, hdata⟩ := (formatW_eq_iff ..).mp (PortWord.command.inj h)
    simp [decodeCommand, hop, haddr, hdata]
  | mrd addr16 =>
    obtain ⟨hop, haddr, hz⟩ := (formatW_eq_iff ..).mp (PortWord.command.inj h)
    simp [decodeCommand, whenZero, hop, haddr, hz]
  | crcByte n data8 =>
    obtain ⟨hop, hz, hn, hdata⟩ := (formatC_eq_iff ..).mp (PortWord.command.inj h)
    simp [decodeCommand, whenZero, hop, hz, hn, hdata]
  | encFrame scheme sof =>
    obtain ⟨hop, hscheme, hsof, hz⟩ := (formatS_eq_iff ..).mp (PortWord.command.inj h)
    simp [decodeCommand, whenZero, hop, hscheme, hsof, hz]
  | decArm scheme =>
    obtain ⟨hop, hscheme, hz⟩ := (formatS_sofless_eq_iff ..).mp (PortWord.command.inj h)
    simp [decodeCommand, whenZero, hop, hscheme, hz]
  | edge interval => cases h
  | timeout => cases h
  | _ =>
    obtain ⟨hop, hz⟩ := (formatZ_eq_iff ..).mp (PortWord.command.inj h)
    simp [decodeCommand, whenZero, hop, hz]

/-- Kind 0 is an edge with the interval as it stands (R67). -/
theorem decodeEvent_edge (interval : Word) : decodeEvent (0#1 ++ interval) = .edge interval := by
  obtain ⟨hkind, hinterval⟩ := (eventWord_eq_iff 0#1 interval _).mp rfl
  simp only [decodeEvent, hkind, hinterval, if_true]

/-- Kind 1 is a timeout, whatever the interval field holds (R67). -/
theorem decodeEvent_timeout (ignored : Word) : decodeEvent (1#1 ++ ignored) = .timeout := by
  obtain ⟨hkind, _⟩ := (eventWord_eq_iff 1#1 ignored _).mp rfl
  rw [decodeEvent, hkind, if_neg (by decide)]

/-- The word of an event decodes to it. -/
theorem decodeEvent_of_encode {e : EventWord} {i : Instr} (h : encode i = .event e) : decodeEvent e = i := by
  cases i with
  | edge interval => cases h; exact decodeEvent_edge interval
  | timeout => cases h; exact decodeEvent_timeout 0#16
  | _ => cases h

/-- Settles O1, by the port of the instruction's word. -/
theorem decodeInvertsEncode : Obligations.DecodeInvertsEncode := by
  intro i
  cases h : encode i with
  | command w => exact decodeCommand_of_encode h
  | event e => exact congrArg Except.ok (decodeEvent_of_encode h)

/-- Settles O2: `encode_of_decodeCommand`. -/
theorem commandWordsAreUnique : Obligations.CommandWordsAreUnique :=
  fun _ _ h => encode_of_decodeCommand h

/-- Settles O4: the two kinds, at every interval. -/
theorem eventWordsDecode : Obligations.EventWordsDecode :=
  fun n => ⟨congrArg Except.ok (decodeEvent_edge n), congrArg Except.ok (decodeEvent_timeout n)⟩

/-- Settles O5: each printed word is the encoding of the command printed with it. -/
theorem printedWordsDecode : Obligations.PrintedWordsDecode :=
  ⟨decodeInvertsEncode (.setr 0x04#8 37#16), decodeInvertsEncode (.getr 0x10#8),
    decodeInvertsEncode (.mwr 0x0010#16 0xAB#8), decodeInvertsEncode (.mrd 0x0010#16),
    decodeInvertsEncode (.crcByte 5#4 0xF8#8), decodeInvertsEncode .crcBuf, decodeInvertsEncode .bfbAppend,
    decodeInvertsEncode .bfbAcx, decodeInvertsEncode (.encFrame 2#3 6#3), decodeInvertsEncode (.decArm 2#3)⟩

/-! ### The opcode map -/

/-- The mask that keeps the opcode and the `n` bits from `lo` on. -/
def zeroBitsMask (lo n : Nat) : CommandWord := 0xFF#8 ++ (BitVec.allOnes n).setWidth 24 <<< lo

/-- The opcode map by must-be-zero bits: opcode, lowest must-be-zero bit, how many there are (R61 to R65, R69). -/
def opcodeRows : List (BitVec 8 × Nat × Nat) :=
  [(0x00#8, 0, 24), (0x01#8, 0, 0), (0x02#8, 0, 16), (0x03#8, 0, 0), (0x04#8, 0, 8), (0x0F#8, 0, 24),
   (0x10#8, 0, 24), (0x11#8, 12, 12), (0x12#8, 0, 24), (0x20#8, 0, 24), (0x21#8, 0, 24), (0x30#8, 0, 18),
   (0x40#8, 0, 21)]

/-- A row of `opcodeRows` accepts the word: the opcode is the row's, its must-be-zero bits are 0 (R70). -/
def RowAccepts (w : CommandWord) (row : BitVec 8 × Nat × Nat) : Prop :=
  w.extractLsb' 24 8 = row.1 ∧ w.extractLsb' row.2.1 row.2.2 = 0#row.2.2

/-- The match and mask columns of R69 are those of `opcodeRows`. -/
theorem opcodeMap_eq_map :
    opcodeMap = opcodeRows.map fun row => (row.1 ++ 0#24, zeroBitsMask row.2.1 row.2.2) := by
  decide

/-- Masking out a field gives 0 exactly when the field is 0. -/
theorem and_ones_eq_zero_iff {v : Nat} (x : BitVec v) {lo n : Nat} (h : lo + n ≤ v) :
    x &&& (BitVec.allOnes n).setWidth v <<< lo = 0#v ↔ x.extractLsb' lo n = 0#n := by
  constructor
  · intro hx
    apply BitVec.eq_of_getLsbD_eq
    intro k hk
    have hbit := congrArg (BitVec.getLsbD · (lo + k)) hx
    have hv : lo + k < v := by omega
    simpa [hk, hv] using hbit
  · intro hx
    apply BitVec.eq_of_getLsbD_eq
    intro k hk
    have hbit := congrArg (BitVec.getLsbD · (k - lo)) hx
    by_cases hlo : k < lo
    · simp [hlo]
    · grind

/-- A word matches a row's columns exactly when the row accepts it. -/
theorem and_zeroBitsMask_eq_iff (w : CommandWord) {row : BitVec 8 × Nat × Nat} (hrow : row ∈ opcodeRows) :
    w &&& zeroBitsMask row.2.1 row.2.2 = row.1 ++ 0#24 ↔ RowAccepts w row := by
  have hbits : ∀ row ∈ opcodeRows, row.2.1 + row.2.2 ≤ 24 := by decide
  rw [eq_comm, append_eq_iff row.1 0#24, BitVec.extractLsb'_and, BitVec.extractLsb'_and, zeroBitsMask,
    BitVec.extractLsb'_append_eq_left, BitVec.extractLsb'_append_eq_right, and_ones_eq_zero_iff _ (hbits row hrow),
    BitVec.extractLsb'_extractLsb'_of_le (hbits row hrow), RowAccepts]
  have hones : w.extractLsb' 24 8 &&& 0xFF#8 = w.extractLsb' 24 8 := BitVec.and_allOnes
  rw [hones]

/-- A row with must-be-zero bits that answers a command accepts the word. -/
theorem rowAccepts_of_whenZero {w : CommandWord} {op : BitVec 8} {lo n : Nat} {i j : Instr}
    (hrow : (op, lo, n) ∈ opcodeRows) (hop : w.extractLsb' 24 8 = op)
    (h : whenZero (w.extractLsb' lo n == 0#n) i = .ok j) : ∃ row ∈ opcodeRows, RowAccepts w row :=
  ⟨_, hrow, hop, eq_of_beq (whenZero_ok_iff.mp h).1⟩

/-- A word that decodes is accepted by a row. -/
theorem exists_rowAccepts_of_decodeCommand {w : CommandWord} {i : Instr} :
    decodeCommand w = .ok i → ∃ row ∈ opcodeRows, RowAccepts w row := by
  simp only [decodeCommand]
  refine ite_ok_elim ?nop <| ite_ok_elim ?setr <| ite_ok_elim ?getr <| ite_ok_elim ?mwr <| ite_ok_elim ?mrd <|
    ite_ok_elim ?reset <| ite_ok_elim ?crcInit <| ite_ok_elim ?crcByte <| ite_ok_elim ?crcBuf <|
    ite_ok_elim ?bfbAppend <| ite_ok_elim ?bfbAcx <| ite_ok_elim ?encFrame <| ite_ok_elim ?decArm nofun
  case setr => exact fun hop _ => ⟨(0x01#8, 0, 0), by decide, hop, BitVec.of_length_zero⟩
  case mwr => exact fun hop _ => ⟨(0x03#8, 0, 0), by decide, hop, BitVec.of_length_zero⟩
  all_goals exact rowAccepts_of_whenZero (by decide)

/-- A word that a row accepts decodes. -/
theorem decodeCommand_of_rowAccepts {w : CommandWord} {row : BitVec 8 × Nat × Nat} (hrow : row ∈ opcodeRows)
    (h : RowAccepts w row) : ∃ i, decodeCommand w = .ok i := by
  obtain ⟨hop, hz⟩ := h
  simp only [opcodeRows, List.mem_cons, List.not_mem_nil, or_false] at hrow
  rcases hrow with rfl | rfl | rfl | rfl | rfl | rfl | rfl | rfl | rfl | rfl | rfl | rfl | rfl <;>
    simp [decodeCommand, whenZero, hop, hz]

/-- Settles O3: a word decodes when a row accepts it, and that is what match and mask say. -/
theorem legalWordsMatchOpcodeMap : Obligations.LegalWordsMatchOpcodeMap := by
  intro w
  rw [opcodeMap_eq_map]
  constructor
  · rintro ⟨i, h⟩
    obtain ⟨row, hrow, hw⟩ := exists_rowAccepts_of_decodeCommand h
    exact ⟨_, List.mem_map_of_mem hrow, (and_zeroBitsMask_eq_iff w hrow).mpr hw⟩
  · rintro ⟨columns, hcolumns, hw⟩
    obtain ⟨row, hrow, rfl⟩ := List.mem_map.mp hcolumns
    exact decodeCommand_of_rowAccepts hrow ((and_zeroBitsMask_eq_iff w hrow).mp hw)

/-! ### The response word -/

/-- The value stands in [15:0] of the response word, the status code in [17:16] (R66). -/
theorem responseWord_fields (r : Response) :
    (responseWord r).extractLsb' 16 2 = statusCode r.st ∧ (responseWord r).extractLsb' 0 16 = r.value :=
  (append_eq_iff (statusCode r.st) r.value _).mp rfl

/-- Settles O6: the two fields, and the code of each status. -/
theorem responseWordLayout : Obligations.ResponseWordLayout := by
  intro r
  obtain ⟨hst, hvalue⟩ := responseWord_fields r
  rw [hst, hvalue]
  refine ⟨rfl, ?_⟩
  cases r.st <;> decide

/-! ### Illegal words -/

/-- In IDLE an illegal word that stands first is taken and raises `ILLEGAL`, whatever makes it illegal (R161). -/
theorem step_of_illegal {s : State} {w : PortWord} {rest : List PortWord} {why : Illegal} (hm : s.mode = .idle)
    (hi : s.inputs = w :: rest) (hd : decode w = .error why) :
    step s = .next (raiseFault .illegal { s with inputs := rest }) := by
  simp only [step, nextWord_of_idle s w rest hm hi, hd]
  cases why <;> rfl

/-- Settles O8: `ILLEGAL` is the fault entry in a block without fault and a refusal in a faulted one. -/
theorem illegalWordsFault : Obligations.IllegalWordsFault := by
  intro s w rest why hm hi hd
  rw [step_of_illegal hm hi hd]
  exact ⟨fun hf => congrArg _ (raiseFault_of_faultFree _ _ hf), fun hf => congrArg _ (raiseFault_of_faulted _ _ hf)⟩

/-! ### One response for every command -/

/-- The responses given and the one owed while a receive cycle runs (R66, R131). -/
def answersDue (s : State) : Nat := s.responses.length + owedResponse s

/-- In IDLE nothing is owed. -/
theorem answersDue_of_idle {s : State} (h : s.mode = .idle) : answersDue s = s.responses.length := by
  simp [answersDue, owedResponse, h]

/-- In RX one response is owed, that of `DEC.ARM`. -/
theorem answersDue_of_rx {s : State} (h : s.mode = .rx) : answersDue s = s.responses.length + 1 := by
  simp [answersDue, owedResponse, h]

/-- A response more, with the mode kept. -/
@[simp] theorem answersDue_respond (st : Status) (v : Word) (s : State) :
    answersDue (respond st v s) = answersDue s + 1 := by
  have howed : owedResponse (respond st v s) = owedResponse s := rfl
  rw [answersDue, answersDue, respond_responses, List.length_append, List.length_singleton, howed,
    Nat.add_right_comm]

/-- Only the mode and the responses count. -/
theorem answersDue_congr {s t : State} (hm : t.mode = s.mode) (hr : t.responses = s.responses) :
    answersDue t = answersDue s := by
  simp only [answersDue, owedResponse, hm, hr]

/-- The end of a cycle gives the response that was owed (R145). -/
theorem answersDue_endCycle {s : State} (h : s.mode = .rx) (reason : RxEnd) :
    answersDue (endCycle reason s) = answersDue s := by
  rw [answersDue_of_rx h, answersDue_of_idle (endCycle_mode reason s), endCycle_responses, List.length_append,
    List.length_singleton]

/-- `PutRaw` (R136, R143). -/
theorem answersDue_putRaw {bit : Bool} {s t : State} (h : putRaw bit s = .ok t) : answersDue t = answersDue s := by
  have hstore : answersDue (storeRaw bit s) = answersDue s :=
    answersDue_congr (storeRaw_mode bit s) (storeRaw_responses bit s)
  rcases putRaw_cases h with ⟨_, rfl⟩ | ⟨hm, _, ⟨_, rfl⟩ | ⟨_, rfl⟩⟩
  · rfl
  · rw [answersDue_endCycle (by rw [storeRaw_mode, hm]), hstore]
  · exact hstore

/-- `PutRaw` twice: a cycle that the first store ends is not answered again by the second (R143). -/
theorem answersDue_putRawTwo {bit1 bit2 : Bool} {s t : State} (h : putRawTwo bit1 bit2 s = .ok t) :
    answersDue t = answersDue s := by
  simp only [putRawTwo] at h
  split at h
  · cases h
  · next u hu => rw [answersDue_putRaw h, answersDue_putRaw hu]

/-- Class START (R137, R142). -/
theorem answersDue_onStart {s t : State} (h : onStart s = .ok t) : answersDue t = answersDue s := by
  have hrestart : answersDue (restartFrame s) = answersDue s :=
    answersDue_congr (restartFrame_mode s) (restartFrame_responses s)
  simp only [onStart] at h
  split at h
  case h_1 => cases h; exact hrestart
  all_goals rw [answersDue_putRaw h, hrestart]

/-- Class H3 (R140). -/
theorem answersDue_onH3 {s t : State} (h : onH3 s = .ok t) : answersDue t = answersDue s := by
  simp only [onH3] at h
  split at h
  · cases h
  · next u hu =>
    cases h
    have hstore : answersDue u = answersDue s := by
      split at hu
      · exact answersDue_putRaw hu
      · exact answersDue_putRawTwo hu
    exact hstore

/-- Class NOISE (R141). -/
theorem answersDue_onNoise {s : State} (hm : s.mode = .rx) : answersDue (onNoise s) = answersDue s := by
  simp only [onNoise]
  split
  · exact answersDue_endCycle (s := { s with noise := s.noise + 1#16 }) hm .noise
  · rfl

/-- An edge of a running cycle answers nothing but the end of the cycle (R131, R134). -/
theorem answersDue_onEdge {n : Word} {s t : State} (hm : s.mode = .rx) (h : onEdge n s = .ok t) :
    answersDue t = answersDue s := by
  cases hc : classify s.cfg s.rxsch n.toNat <;> simp only [onEdge, hc] at h
  case start => exact answersDue_onStart h
  case h4 => exact answersDue_putRawTwo h
  case h3 => exact answersDue_onH3 h
  case noise => cases h; exact answersDue_onNoise hm
  all_goals exact answersDue_putRaw h

/-- The fault entry and the refusal answer once (R169, R170). -/
theorem answersDue_raiseFault (code : FaultCode) (s : State) : answersDue (raiseFault code s) = answersDue s + 1 := by
  rw [raiseFault_eq]
  exact answersDue_respond (if s.fault then .refused else .faulted) 0#16 s

/-- A command that is performed gives its response, or owes it where it starts a cycle (R66). -/
theorem answersDue_effectOf {i : Instr} {s : State} (hm : s.mode = .idle) (hi : i.isEvent = false)
    (hc : checkOf s i = none) : answersDue (effectOf i s) = answersDue s + 1 := by
  cases i with
  | setr reg v =>
    obtain ⟨r, hr, _⟩ := reg_of_checkWrite hc
    rw [effectOf_setr hr, answersDue_respond, writeReg_eq]
    rfl
  | getr reg =>
    obtain ⟨r, hr⟩ := reg_of_checkRead hc
    rw [effectOf_getr hr, answersDue_respond]
  | reset =>
    have hreset : answersDue (resetRegisters s) = answersDue s := answersDue_congr hm.symm rfl
    rw [effectOf, answersDue_respond, hreset]
  | bfbAppend =>
    obtain ⟨_, _, h⟩ := effectOf_append_eq (.inl rfl) s
    rw [h]
    exact answersDue_respond .ok 0#16 s
  | bfbAcx =>
    obtain ⟨_, _, h⟩ := effectOf_append_eq (.inr rfl) s
    rw [h]
    exact answersDue_respond .ok 0#16 s
  | encFrame scheme sof =>
    obtain ⟨sch, hsch, _⟩ := scheme_of_checkFrame hc
    rw [effectOf_encFrame hsch, answersDue_respond]
    rfl
  | decArm scheme =>
    obtain ⟨sch, hsch, _⟩ := scheme_of_checkArm hc
    rw [effectOf_decArm hsch, answersDue_of_rx (startCycle_mode sch s), startCycle_responses, answersDue_of_idle hm]
  | edge n => exact absurd hi Bool.noConfusion
  | timeout => exact absurd hi Bool.noConfusion
  | _ => exact answersDue_respond _ _ s

/-- A command taken in IDLE is answered once: faulted, refused or performed. -/
theorem answersDue_exec_command {i : Instr} {s t : State} (hm : s.mode = .idle) (hi : i.isEvent = false)
    (h : exec i s = .next t) : answersDue t = answersDue s + 1 := by
  rw [exec_command i s hi] at h
  rcases command_cases h with ⟨hrx, _⟩ | ⟨_, code, _, rfl⟩ | ⟨_, _, _, _, rfl⟩ | ⟨_, hc, _, rfl⟩
  · rw [hm] at hrx
    cases hrx
  · exact answersDue_raiseFault code s
  · exact answersDue_respond _ _ s
  · exact answersDue_effectOf hm hi hc

/-- An event adds nothing to what is due: dropped in IDLE, in RX it may end the cycle. -/
theorem answersDue_exec_event {i : Instr} {s t : State} (hi : i.isEvent = true) (h : exec i s = .next t) :
    answersDue t = answersDue s := by
  rcases exec_cases h with rfl | ⟨_, hn, _⟩ | ⟨_, hn, _⟩ | ⟨_, hn, _⟩ | ⟨hm, _, rfl⟩ | ⟨hm, n, _, hn⟩
  · rfl
  iterate 3
    · rw [hi] at hn
      cases hn
  · exact answersDue_endCycle hm .timeout
  · exact answersDue_onEdge hm hn

/-- A command that is performed takes no word from a port. -/
theorem inputs_effectOf {i : Instr} {s : State} (hc : checkOf s i = none) : (effectOf i s).inputs = s.inputs := by
  cases i with
  | setr reg v =>
    obtain ⟨r, hr, _⟩ := reg_of_checkWrite hc
    rw [effectOf_setr hr, writeReg_eq, respond_inputs]
  | getr reg =>
    obtain ⟨r, hr⟩ := reg_of_checkRead hc
    rw [effectOf_getr hr, respond_inputs]
  | bfbAppend =>
    obtain ⟨_, _, h⟩ := effectOf_append_eq (.inl rfl) s
    rw [h]
  | bfbAcx =>
    obtain ⟨_, _, h⟩ := effectOf_append_eq (.inr rfl) s
    rw [h]
  | encFrame scheme sof =>
    obtain ⟨sch, hsch, _⟩ := scheme_of_checkFrame hc
    rw [effectOf_encFrame hsch, respond_inputs]
  | decArm scheme =>
    obtain ⟨sch, hsch, _⟩ := scheme_of_checkArm hc
    rw [effectOf_decArm hsch, startCycle_inputs]
  | _ => rfl

/-- A fault entry or a refusal takes no word from a port. -/
theorem inputs_raiseFault (code : FaultCode) (s : State) : (raiseFault code s).inputs = s.inputs := by
  rw [raiseFault_eq]

/-- No instruction takes a word from a port: only the step does. -/
theorem inputs_exec {i : Instr} {s t : State} (h : exec i s = .next t) : t.inputs = s.inputs := by
  rcases exec_cases h with rfl | ⟨_, _, code, _, rfl⟩ | ⟨_, _, _, _, _, rfl⟩ | ⟨_, _, hc, _, rfl⟩ |
    ⟨_, _, rfl⟩ | ⟨_, n, _, hn⟩
  · rfl
  · exact inputs_raiseFault code s
  · rfl
  · exact inputs_effectOf hc
  · rfl
  · exact (congrArg State.inputs (receiveFrame_onEdge hn).outside :)

/-- How many commands wait when `words` are left. -/
def commandCount (words : List PortWord) : Nat := (words.filter fun w => !w.isEvent).length

/-- A command that is taken no longer waits. -/
theorem commandCount_command (w : CommandWord) (rest : List PortWord) :
    commandCount (.command w :: rest) = commandCount rest + 1 := rfl

/-- An event is no command that waits. -/
theorem commandCount_event (e : EventWord) (rest : List PortWord) :
    commandCount (.event e :: rest) = commandCount rest := rfl

/-- Taking a word from a port answers nothing by itself. -/
theorem answersDue_inputs (s : State) (left : List PortWord) : answersDue { s with inputs := left } = answersDue s :=
  rfl

/-- A word taken in IDLE that decodes: what becomes due makes up for the command that no longer waits. -/
theorem answersDue_taken {w : PortWord} {i : Instr} {left : List PortWord} {s t : State} (hm : s.mode = .idle)
    (hd : decode w = .ok i) (h : exec i { s with inputs := left } = .next t) :
    answersDue t + commandCount left = answersDue s + commandCount (w :: left) := by
  cases w with
  | command c =>
    have hdue := answersDue_exec_command (s := { s with inputs := left }) hm (decodeCommand_isEvent hd) h
    rw [hdue, answersDue_inputs, commandCount_command]
    omega
  | event e =>
    cases hd
    rw [answersDue_exec_event (decodeEvent_isEvent e) h, answersDue_inputs, commandCount_event]

/-- Settles O14: waiting changes nothing, a command taken from the port is answered or owes its answer, an illegal
word is answered, and an event of a cycle leaves every command waiting. -/
theorem everyCommandIsAnsweredOnce : Obligations.EveryCommandIsAnsweredOnce := by
  intro s t h
  change answersDue t + commandCount t.inputs = answersDue s + commandCount s.inputs
  rcases step_cases h with rfl | ⟨w, left, hm, hin, ⟨i, hd, hx⟩ | ⟨why, hd, rfl⟩⟩ | ⟨e, left, _, htake, hx⟩
  · rfl
  · rw [inputs_exec hx, hin]
    exact answersDue_taken hm hd hx
  · cases w with
    | command c =>
      have hleft : (raiseFault .illegal { s with inputs := left }).inputs = left := inputs_raiseFault _ _
      rw [answersDue_raiseFault, answersDue_inputs, hleft, hin, commandCount_command]
      omega
    | event e => cases hd
  · have hheld : commandCount left = commandCount s.inputs := congrArg List.length (takeEvent_cases htake).2
    rw [inputs_exec hx, answersDue_exec_event (decodeEvent_isEvent e) hx, answersDue_inputs, hheld]

end Sys2Proof
end

section
/-! PROOFS. The statements about the system commands (40_system_ops.md). First what a command answers in the words of
the statements, whether it is served by a faulted block, performed or faulted; then the reserved bits of format Z, the
register port, the layouts of the flag registers, the byte port, and `NOP` and `RESET`. -/

namespace Sys2Proof.Machine

open Sys2Proof.Claims

/-! ### What a command answers -/

/-- `Respond(OK, v)` is the statements' answer (R66). -/
theorem respond_ok (v : Word) (s : State) : respond .ok v s = answered v s := rfl

/-- A fault is the statements' entry in a block without fault, and their refusal in a faulted one (R169, R170). -/
theorem raiseFault_eq_ite (code : FaultCode) (s : State) :
    raiseFault code s = if s.fault then refused s else faulted code s := by
  cases hf : s.fault with
  | false => exact raiseFault_of_faultFree code s hf
  | true => exact raiseFault_of_faulted code s hf

/-- A command that a faulted block serves and that passes its checks is performed whatever `FAULT` is (R170). -/
theorem exec_of_served {i : Instr} {s : State} (hm : s.mode = .idle) (hi : i.isEvent = false)
    (hserved : servedInFault i = true) (hc : checkOf s i = none) : exec i s = .next (effectOf i s) := by
  rw [exec_command i s hi, hserved, hc, command_of_served _ _ hm]

/-- A command that passes its checks in a ready block is performed (R168 step 9). -/
theorem exec_of_ready {i : Instr} {s : State} (h : Ready s) (hi : i.isEvent = false) (hc : checkOf s i = none) :
    exec i s = .next (effectOf i s) := by
  obtain ⟨hm, hf⟩ := h
  rw [exec_command i s hi, hc, command_of_faultFree _ _ _ hm hf]

/-- A command that fails a check in a ready block enters the fault state with that check's code (R168, R169). -/
theorem exec_of_check {i : Instr} {s : State} {code : FaultCode} (h : Ready s) (hi : i.isEvent = false)
    (hc : checkOf s i = some code) : exec i s = .next (faulted code s) := by
  obtain ⟨hm, hf⟩ := h
  rw [exec_command i s hi, hc, command_of_check _ _ _ _ hm, raiseFault_eq_ite, hf]
  rfl

/-! ### The reserved bits of format Z -/

/-- An opcode whose row of the map has all of [23:0] at 0 has no other word (R61, R70). -/
theorem decodeCommand_of_reserved {op : BitVec 8} (hop : ∀ row ∈ opcodeRows, row.1 = op → row.2 = (0, 24))
    {x : BitVec 24} (hx : x ≠ 0#24) : ∃ why, decodeCommand (op ++ x) = .error why := by
  obtain ⟨hfieldOp, hfieldX⟩ := (append_eq_iff op x _).mp rfl
  cases hd : decodeCommand (op ++ x) with
  | error why => exact ⟨why, rfl⟩
  | ok i =>
    obtain ⟨⟨op', bits⟩, hrow, hrowOp, hzero⟩ := exists_rowAccepts_of_decodeCommand hd
    obtain rfl : bits = (0, 24) := hop _ hrow (hrowOp.symm.trans hfieldOp)
    exact absurd (hfieldX.symm.trans hzero) hx

/-- Such a word, taken in IDLE, faults with `ILLEGAL` or is refused (R61, R161, R170). -/
theorem rejectsReserved_of_rows {op : BitVec 8} (hop : ∀ row ∈ opcodeRows, row.1 = op → row.2 = (0, 24)) :
    RejectsReserved op := by
  intro x s rest hx hm hin
  obtain ⟨why, hd⟩ := decodeCommand_of_reserved hop hx
  rw [step_of_illegal hm hin hd, raiseFault_eq_ite]

/-! ### NOP and RESET -/

/-- Settles O24: `NOP` is served in the fault state and its effect is the response alone. -/
theorem nopOnlyAnswers : Obligations.NopOnlyAnswers :=
  ⟨fun _ hm => exec_of_served hm rfl rfl rfl, decodeInvertsEncode .nop, rejectsReserved_of_rows (by decide)⟩

/-- Settles O21: `RESET` is served in the fault state, and `resetRegisters` writes the values of R180. -/
theorem resetCommandClearsRegisters : Obligations.ResetCommandClearsRegisters :=
  ⟨fun _ hm => exec_of_served hm rfl rfl rfl, decodeInvertsEncode .reset, rejectsReserved_of_rows (by decide)⟩

/-! ### The register port -/

/-- The write check passes on a writable register (R162). -/
theorem checkWrite_of_writable {reg : BitVec 8} {r : Reg} (hr : regOfNumber reg = some r)
    (hw : regWritable r = true) : checkWrite reg = none := by
  simp only [checkWrite, hr, hw, if_true]

/-- The read check passes on an assigned register (R162). -/
theorem checkRead_of_assigned {reg : BitVec 8} {r : Reg} (hr : regOfNumber reg = some r) : checkRead reg = none := by
  simp only [checkRead, hr]

/-- `SETR` of a writable register in a ready block (R81). -/
theorem exec_setr {reg : BitVec 8} {r : Reg} (hr : regOfNumber reg = some r) (hw : regWritable r = true) {s : State}
    (h : Ready s) (v : Word) : exec (.setr reg v) s = .next (answered 0#16 (writeReg r v s)) := by
  rw [exec_of_ready (i := .setr reg v) h rfl (checkWrite_of_writable hr hw), effectOf_setr hr, respond_ok]

/-- `GETR` of an assigned register, faulted or not (R82, R170). -/
theorem exec_getr {reg : BitVec 8} {r : Reg} (hr : regOfNumber reg = some r) {s : State} (hm : s.mode = .idle) :
    exec (.getr reg) s = .next (answered (readReg s r) s) := by
  rw [exec_of_served (i := .getr reg) hm rfl rfl (checkRead_of_assigned hr), effectOf_getr hr, respond_ok]

/-- `CRC` takes the low 8 bits of the value written (R23). -/
theorem writeReg_crc (v : Word) (s : State) : writeReg .crc v s = { s with crc := v.setWidth 8 } := by
  rw [BitVec.setWidth_eq_extractLsb' (by decide)]
  rfl

/-- `CRC` reads as the running CRC, zero-extended (R23). -/
theorem crcWord_eq_setWidth (s : State) : crcWord s = s.crc.setWidth 16 :=
  (BitVec.setWidth_eq_append (by decide)).symm

/-- Settles O25: each writable number names its register, and `writeReg` writes that one. -/
theorem setrWritesRegister : Obligations.SetrWritesRegister := by
  intro s v h
  refine ⟨exec_setr (r := .dstb) rfl rfl h v, exec_setr (r := .dsto) rfl rfl h v, exec_setr (r := .srcb) rfl rfl h v,
    exec_setr (r := .srco) rfl rfl h v, exec_setr (r := .len) rfl rfl h v, ?_⟩
  rw [exec_setr (r := .crc) rfl rfl h v, writeReg_crc]

/-- Settles O27: each number names its register, and `GETR` answers what `readReg` reads of it. -/
theorem getrReadsRegister : Obligations.GetrReadsRegister := by
  intro s hm
  refine ⟨exec_getr (r := .dstb) rfl hm, exec_getr (r := .dsto) rfl hm, exec_getr (r := .srcb) rfl hm,
    exec_getr (r := .srco) rfl hm, exec_getr (r := .len) rfl hm, ?crc, exec_getr (r := .rxlen) rfl hm,
    exec_getr (r := .noise) rfl hm, exec_getr (r := .rxbase) rfl hm⟩
  case crc => rw [exec_getr (r := .crc) rfl hm, readReg, crcWord_eq_setWidth]

/-! ### The layouts of the flag registers -/

/-- The four fields of a word written as four strings. -/
theorem fields_of_append {k m n p : Nat} (x : BitVec k) (y : BitVec m) (z : BitVec n) (u : BitVec p) :
    (x ++ y ++ z ++ u).extractLsb' (p + n + m) k = x ∧ (x ++ y ++ z ++ u).extractLsb' (p + n) m = y ∧
      (x ++ y ++ z ++ u).extractLsb' p n = z ∧ (x ++ y ++ z ++ u).extractLsb' 0 p = u := by
  obtain ⟨hxyz, hu⟩ := (append_eq_iff (x ++ y ++ z) u _).mp rfl
  obtain ⟨hxy, hz⟩ := (append_eq_field_iff (x ++ y) z _ p).mp hxyz.symm
  obtain ⟨hx, hy⟩ := (append_eq_field_iff x y _ (p + n)).mp hxy.symm
  exact ⟨hx, hy, hz, hu⟩

/-- A flag's bit is 1 when the flag is set. -/
theorem flagBit_beq_one (b : Bool) : (flagBit b == 1#1) = b := by
  cases b <;> rfl

/-- The level's bit is 1 when the level is HIGH (R9). -/
theorem levelCode_beq_one (l : Level) : (levelCode l == 1#1) = decide (l = .high) := by
  cases l <;> rfl

/-- The reasons for the end of a cycle have different codes (R24). -/
theorem rxendCode_inj {a b : RxEnd} : rxendCode a = rxendCode b ↔ a = b := by
  cases a <;> cases b <;> decide

/-- The causes of R160 have different codes. -/
theorem faultNumber_inj {a b : FaultCode} : faultNumber a = faultNumber b ↔ a = b := by
  cases a <;> cases b <;> decide

/-- No cause of R160 has the code 0, which stands for no fault (R25). -/
theorem faultNumber_ne_zero (c : FaultCode) : faultNumber c ≠ 0#3 := by
  cases c <;> decide

/-- `ERR` tells the causes from each other and from no fault (R25). -/
theorem errCode_inj {a b : Option FaultCode} : errCode a = errCode b ↔ a = b := by
  match a, b with
  | none, none => exact iff_of_true rfl rfl
  | none, some c => exact iff_of_false (faultNumber_ne_zero c).symm nofun
  | some c, none => exact iff_of_false (faultNumber_ne_zero c) nofun
  | some c, some d => exact faultNumber_inj.trans Option.some_inj.symm

/-- The assigned schemes have different codes (R65). -/
theorem schemeCode_inj {a b : Scheme} : schemeCode a = schemeCode b ↔ a = b := by
  cases a <;> cases b <;> decide

/-- `STATUS` field by field (R24). -/
theorem statusWord_fields (s : State) :
    (statusWord s).getLsbD 0 = s.fault ∧ (statusWord s).getLsbD 1 = decide (s.line = .high) ∧
      (statusWord s).extractLsb' 2 2 = rxendCode s.rxend ∧ (statusWord s).extractLsb' 4 12 = 0#12 := by
  obtain ⟨hzero, hrxend, hline, hfault⟩ :=
    fields_of_append 0#12 (rxendCode s.rxend) (levelCode s.line) (flagBit s.fault)
  refine ⟨?_, ?_, hrxend, hzero⟩
  · rw [BitVec.getLsbD_eq_extractLsb', statusWord, hfault, flagBit_beq_one]
  · rw [BitVec.getLsbD_eq_extractLsb', statusWord, hline, levelCode_beq_one]

/-- `ERR` field by field (R25). -/
theorem errWord_fields (s : State) :
    (errWord s).extractLsb' 0 3 = errCode s.err ∧ (errWord s).extractLsb' 3 13 = 0#13 :=
  ((append_eq_iff 0#13 (errCode s.err) _).mp rfl).symm

/-- `DECST` field by field (R28). -/
theorem decstWord_fields (s : State) :
    (decstWord s).getLsbD 0 = s.last ∧ (decstWord s).getLsbD 1 = s.skip ∧
      (decstWord s).extractLsb' 2 3 = schemeCode s.rxsch ∧ (decstWord s).extractLsb' 5 11 = 0#11 := by
  obtain ⟨hzero, hrxsch, hskip, hlast⟩ :=
    fields_of_append 0#11 (schemeCode s.rxsch) (flagBit s.skip) (flagBit s.last)
  refine ⟨?_, ?_, hrxsch, hzero⟩
  · rw [BitVec.getLsbD_eq_extractLsb', decstWord, hlast, flagBit_beq_one]
  · rw [BitVec.getLsbD_eq_extractLsb', decstWord, hskip, flagBit_beq_one]

/-- Settles O28: the three words field by field, and each code is that of one value only. -/
theorem getrReadsFlags : Obligations.GetrReadsFlags := by
  intro s hm
  refine ⟨⟨statusWord s, exec_getr (r := .status) rfl hm, ?status⟩, ⟨errWord s, exec_getr (r := .err) rfl hm, ?err⟩,
    ⟨decstWord s, exec_getr (r := .decst) rfl hm, ?decst⟩⟩
  case status =>
    obtain ⟨hfault, hline, hrxend, hzero⟩ := statusWord_fields s
    rw [hrxend]
    exact ⟨hfault, hline, rxendCode_inj (b := .notEnded), rxendCode_inj (b := .timeout), rxendCode_inj (b := .noise),
      rxendCode_inj (b := .full), hzero⟩
  case err =>
    obtain ⟨hcode, hzero⟩ := errWord_fields s
    rw [hcode]
    exact ⟨errCode_inj (b := none), errCode_inj (b := some .illegal), errCode_inj (b := some .badReg),
      errCode_inj (b := some .addr), errCode_inj (b := some .operand), errCode_inj (b := some .overlap), hzero⟩
  case decst =>
    obtain ⟨hlast, hskip, hrxsch, hzero⟩ := decstWord_fields s
    rw [hrxsch]
    exact ⟨hlast, hskip, schemeCode_inj (b := .ac2k), schemeCode_inj (b := .ac4k), schemeCode_inj (b := .mc4k),
      schemeCode_inj (b := .mc8k), schemeCode_inj (b := .rl), hzero⟩

/-! ### The byte port -/

/-- `MWR` inside `M` in a ready block (R83). -/
theorem exec_mwr {a : Word} {s : State} (h : Ready s) (ha : a.toNat < s.cfg.memBytes) (d : Byte) :
    exec (.mwr a d) s = .next (answered 0#16 (memWrite a.toNat d s)) :=
  exec_of_ready h rfl ((checkAddress_none_iff s a).mpr ha)

/-- `MRD` inside `M`, faulted or not (R84, R170). -/
theorem exec_mrd {a : Word} {s : State} (hm : s.mode = .idle) (ha : a.toNat < s.cfg.memBytes) :
    exec (.mrd a) s = .next (answered ((memRead s a.toNat).setWidth 16) s) :=
  exec_of_served hm rfl rfl ((checkAddress_none_iff s a).mpr ha)

/-- The address check names `ADDR` outside `M` (R163). -/
theorem checkAddress_of_outside {a : Word} {s : State} (ha : s.cfg.memBytes ≤ a.toNat) :
    checkAddress s a = some .addr :=
  (checkAddress_some_iff s a .addr).mpr ⟨ha, rfl⟩

/-- A response leaves `M` as it reads. -/
@[simp] theorem memRead_answered (v : Word) (s : State) (x : Nat) : memRead (answered v s) x = memRead s x :=
  memRead_congr s (answered v s) rfl rfl x

/-- Settles O29: inside `M` one byte is written and the response given; outside, the check faults. -/
theorem mwrStoresByte : Obligations.MwrStoresByte := by
  intro s a d h
  refine ⟨fun ha => ⟨_, exec_mwr h ha d, rfl, ?_, fun x hx => ?_⟩,
    fun ha => exec_of_check h rfl (checkAddress_of_outside ha)⟩
  · rw [memRead_answered, memRead_memWrite, if_pos rfl]
  · rw [memRead_answered, memRead_memWrite, if_neg hx.symm]

/-- Settles O30: inside `M` the byte is answered, faulted or not; outside, the check faults. -/
theorem mrdReadsByte : Obligations.MrdReadsByte :=
  fun _ _ hm => ⟨exec_mrd hm, fun ha hf => exec_of_check ⟨hm, hf⟩ rfl (checkAddress_of_outside ha)⟩

end Sys2Proof.Machine
end

section
/-! PROOFS. The statements about the CRC unit (41_crc8.md). First the byte step, shift by shift and bit by bit; then
the buffer, as bytes and as bits; then what the three commands answer. The serial form (R94 item 2) rests on one
equation, `crcStep_succ_eq_serialUpdate`: a step of the byte form is one serial update by the top bit of the byte, and
the rest of the byte moves up by one place. -/

namespace Sys2Proof.Machine

open Sys2Proof.Claims

/-! ### The byte step -/

/-- One shift, with bit 7 named as the statements name it (R90). -/
theorem crcShift_eq (c : Byte) : crcShift c = if c.getLsbD 7 then (c <<< 1) ^^^ 0x1D#8 else c <<< 1 := by
  rw [crcShift, BitVec.msb_eq_getLsbD_last]

/-- The last of the shifts may be taken apart as well as the first. -/
theorem crcShifts_succ_last (n : Nat) : ∀ c : Byte, crcShifts (n + 1) c = crcShift (crcShifts n c) := by
  induction n with
  | zero => exact fun _ => rfl
  | succ n ih => exact fun c => ih (crcShift c)

/-- A further step of the byte step is one shift of what it has made so far (R90). -/
theorem crcStep_succ (c d : Byte) (n : Nat) : crcStep c d (n + 1) = crcShift (crcStep c d n) :=
  crcShifts_succ_last n (c ^^^ d)

/-- The shift is linear: the byte waiting in the CRC decides by its top bit and moves up (R94 item 2). -/
theorem crcShift_xor (c d : Byte) : crcShift (c ^^^ d) = serialUpdate c d.msb ^^^ (d <<< 1) := by
  rw [crcShift, serialUpdate, BitVec.msb_xor, BitVec.shiftLeft_xor_distrib]
  split
  · ac_rfl
  · rfl

/-- The first step of the byte step is a serial update by the top bit; the rest of the byte is the byte of the steps
after it (R94 item 2). -/
theorem crcStep_succ_eq_serialUpdate (c d : Byte) (n : Nat) :
    crcStep c d (n + 1) = crcStep (serialUpdate c d.msb) (d <<< 1) n :=
  congrArg (crcShifts n) (crcShift_xor c d)

/-- What moves up by one place keeps its value. -/
theorem getLsbD_shiftLeft_one_succ (d : Byte) {k : Nat} (hk : k + 1 < 8) : (d <<< 1).getLsbD (k + 1) = d.getLsbD k := by
  simp [BitVec.getLsbD_shiftLeft, hk, -BitVec.getLsbD_eq_getElem]

/-- A byte's first `n` bits, first bit first (R7). -/
def firstBits (d : Byte) (n : Nat) : List Bool := (List.range n).map fun k => d.getLsbD (7 - k)

/-- The first bits of a byte are its top bit and the first bits of what moves up behind it. -/
theorem firstBits_succ (d : Byte) {n : Nat} (hn : n < 8) : firstBits d (n + 1) = d.msb :: firstBits (d <<< 1) n := by
  rw [firstBits, List.range_succ_eq_map, List.map_cons, List.map_map, firstBits, BitVec.msb_eq_getLsbD_last]
  refine congrArg _ (List.map_congr_left fun k hk => ?_)
  have hk7 : k < 7 := lt_of_lt_of_le (List.mem_range.mp hk) (by omega)
  have hplace : 7 - k = (7 - (k + 1)) + 1 := by omega
  change d.getLsbD (7 - (k + 1)) = (d <<< 1).getLsbD (7 - k)
  rw [hplace, getLsbD_shiftLeft_one_succ d (by omega)]

/-- With zero padding the byte step is the serial update over the byte's first bits. No step at all is the case of a
byte of zeros. -/
theorem crcStep_eq_foldl_firstBits {n : Nat} (hn : n ≤ 8) : ∀ c d : Byte,
    (∀ k, k < 8 - n → d.getLsbD k = false) → crcStep c d n = (firstBits d n).foldl serialUpdate c := by
  induction n with
  | zero =>
    intro c d hd
    have hzero : d = 0#8 := BitVec.eq_of_getLsbD_eq fun k hk => by rw [hd k hk, BitVec.getLsbD_zero]
    rw [hzero]
    exact BitVec.xor_zero
  | succ n ih =>
    intro c d hd
    have hpadding : ∀ k, k < 8 - n → (d <<< 1).getLsbD k = false := by
      intro k hk
      cases k with
      | zero => simp
      | succ k => rw [getLsbD_shiftLeft_one_succ d (by omega), hd k (by omega)]
    calc crcStep c d (n + 1) = crcStep (serialUpdate c d.msb) (d <<< 1) n := crcStep_succ_eq_serialUpdate c d n
      _ = (firstBits (d <<< 1) n).foldl serialUpdate (serialUpdate c d.msb) := ih (by omega) _ _ hpadding
      _ = (firstBits d (n + 1)).foldl serialUpdate c := by rw [firstBits_succ d hn, List.foldl_cons]

/-- Settles O33: by induction on the number of bits, the top bit taken off at each step. -/
theorem crcStepIsBitSerial : Obligations.CrcStepIsBitSerial :=
  fun c d _ _ hn hd => crcStep_eq_foldl_firstBits hn c d hd

/-! ### The bits of a buffer -/

/-- A bit of the buffer that begins `q` bytes later (R40). -/
theorem getBit_add_bytes (s : State) (b q i : Nat) : getBit s (b + q) i = getBit s b (8 * q + i) := by
  rw [getBit_global s (b + q), getBit_global s b]
  congr 1
  omega

/-- The bits of the buffer that begins `q` bytes later. -/
theorem getBits_add_bytes (s : State) (b q n : Nat) : getBits s (b + q) 0 n = getBits s b (8 * q) n := by
  simp only [getBits, getBit_add_bytes, Nat.zero_add]

/-- Bits read in one piece are the bits read in two. -/
theorem getBits_append (s : State) (b i m n : Nat) :
    getBits s b i (m + n) = getBits s b i m ++ getBits s b (i + m) n := by
  simp only [getBits, List.range_add, List.map_append, List.map_map, Function.comp_def, Nat.add_assoc]

/-- The bits of a buffer that lie in its first byte are that byte's first bits. -/
theorem getBits_eq_firstBits (s : State) (a : Nat) {n : Nat} (hn : n ≤ 8) :
    getBits s a 0 n = firstBits (memRead s a) n := by
  refine List.map_congr_left fun k hk => ?_
  have hk8 : k < 8 := lt_of_lt_of_le (List.mem_range.mp hk) hn
  rw [getBit, Nat.zero_add, Nat.div_eq_of_lt hk8, Nat.mod_eq_of_lt hk8, Nat.add_zero]

/-- The padding of a buffer is that of its last, partly used byte (R33). -/
theorem zeroPadded_lastByte {s : State} {b n : Nat} (h : ZeroPadded s b n) : ZeroPadded s (b + n / 8) (n % 8) := by
  intro i hi hbyte hpart
  rw [getBit_add_bytes]
  exact h _ (by omega) (by omega) (by omega)

/-! ### The CRC of a buffer -/

/-- The byte step on a byte of `M` is the serial update over its first bits, if the rest are 0 (R94 item 2). -/
theorem crcStep_memRead {s : State} {a n : Nat} (hpos : 0 < n) (hn : n ≤ 8) (h : ZeroPadded s a n) (c : Byte) :
    crcStep c (memRead s a) n = (getBits s a 0 n).foldl serialUpdate c := by
  have hpadding : ∀ k, k < 8 - n → (memRead s a).getLsbD k = false := by
    intro k hk
    have hbit := h (7 - k) (by omega) (by omega) (by omega)
    have hbyte : a + (7 - k) / 8 = a := by omega
    have hplace : 7 - (7 - k) % 8 = k := by omega
    rwa [getBit, hbyte, hplace] at hbit
  rw [getBits_eq_firstBits s a hn, crcStep_eq_foldl_firstBits hn c _ hpadding]

/-- The whole bytes as the statement steps through them (R93). -/
theorem crcWhole_eq_foldl_range (s : State) (q : Nat) : ∀ (a : Nat) (c : Byte),
    crcWhole s a q c = (List.range q).foldl (fun c j => crcStep c (memRead s (a + j)) 8) c := by
  induction q with
  | zero => exact fun _ _ => rfl
  | succ q ih =>
    intro a c
    rw [crcWhole, ih, List.range_succ_eq_map, List.foldl_cons, List.foldl_map]
    simp only [Nat.add_assoc, Nat.add_comm 1, Nat.succ_eq_add_one, Nat.add_zero]

/-- The whole bytes are the serial update over their bits; a whole byte has no padding. -/
theorem crcWhole_eq_foldl_getBits (s : State) (q : Nat) : ∀ (a : Nat) (c : Byte),
    crcWhole s a q c = (getBits s a 0 (8 * q)).foldl serialUpdate c := by
  induction q with
  | zero => exact fun _ _ => rfl
  | succ q ih =>
    intro a c
    have hwhole : ZeroPadded s a 8 := fun _ _ _ hpart => absurd rfl hpart
    have hsplit : getBits s a 0 (8 * (q + 1)) = getBits s a 0 8 ++ getBits s (a + 1) 0 (8 * q) := by
      rw [getBits_add_bytes, Nat.mul_succ, Nat.add_comm, getBits_append]
    rw [crcWhole, ih, hsplit, List.foldl_append, crcStep_memRead (by decide) le_rfl hwhole]

/-- The CRC of a buffer with zero padding is the serial CRC of its bits (R94). -/
theorem crcBuffer_eq_foldl_getBits {s : State} {b n : Nat} (h : ZeroPadded s b n) (c : Byte) :
    crcBuffer s b n c = (getBits s b 0 n).foldl serialUpdate c := by
  have hsplit : getBits s b 0 n = getBits s b 0 (8 * (n / 8)) ++ getBits s (b + n / 8) 0 (n % 8) := by
    conv_lhs => rw [← Nat.div_add_mod n 8]
    rw [getBits_append, Nat.zero_add, getBits_add_bytes]
  rw [crcBuffer, hsplit, List.foldl_append, ← crcWhole_eq_foldl_getBits]
  split
  · next hfull => rw [hfull]; rfl
  · next hpart =>
    exact crcStep_memRead (Nat.pos_of_ne_zero hpart) (Nat.mod_lt n (by decide)).le (zeroPadded_lastByte h) _

/-! ### What the commands answer -/

/-- Apart from the commands it serves, a faulted block refuses every command (R170). -/
theorem exec_of_faulted {i : Instr} {s : State} (hm : s.mode = .idle) (hf : s.fault = true)
    (hi : i.isEvent = false) (hserved : servedInFault i = false) : exec i s = .next (refused s) := by
  rw [exec_command i s hi, hserved]
  exact command_of_faulted _ _ _ hm hf

/-- The count check passes for 1 to 8 steps (R164). -/
theorem checkStepCount_of_legal {n : BitVec 4} (h1 : 1 ≤ n.toNat) (h8 : n.toNat ≤ 8) : checkStepCount n = none := by
  rw [checkStepCount, if_neg (by omega), if_neg (by omega)]

/-- The count check names `OPERAND` for every other count (R164). -/
theorem checkStepCount_of_illegal {n : BitVec 4} (h : n.toNat = 0 ∨ 8 < n.toNat) :
    checkStepCount n = some .operand := by
  rcases h with h0 | h8
  · rw [checkStepCount, if_pos h0]
  · rw [checkStepCount, if_neg (by omega), if_pos h8]

/-- The source check names `ADDR` for a non-empty range that is not valid (R163). -/
theorem checkSource_of_outside {s : State} {b i n : Nat} (hn : 0 < n) (h : 8 * s.cfg.memBytes < 8 * b + i + n) :
    checkSource s b i n = some .addr := by
  rw [checkSource, if_neg (by omega), rangeInside, decide_eq_false (by omega)]
  rfl

/-- `CRC.BUF` over a range inside `M` in a ready block (R93). -/
theorem exec_crcBuf {s : State} (h : Ready s) (hin : 8 * s.srcb.toNat + s.len.toNat ≤ 8 * s.cfg.memBytes) :
    exec .crcBuf s =
      .next (answered 0#16 { s with crc := crcBuffer s s.srcb.toNat s.len.toNat s.crc }) :=
  exec_of_ready h rfl ((checkSource_none_iff s _ _ _).mpr (.inr hin))

/-- Settles O34: inside `M` the model's buffer CRC is the statement's fold over the whole bytes and its last step;
outside, the check faults. -/
theorem crcBufStepsThroughBytes : Obligations.CrcBufStepsThroughBytes := by
  intro s h
  refine ⟨fun hin => ?_, fun hlen hout => exec_of_check h rfl (checkSource_of_outside hlen hout)⟩
  rw [exec_crcBuf h hin, crcBuffer, crcWhole_eq_foldl_range]
  by_cases hpart : s.len.toNat % 8 = 0
  · rw [if_pos hpart, if_neg (by omega)]
  · rw [if_neg hpart, if_pos (Nat.pos_of_ne_zero hpart)]

/-- Settles O35: `CRC.BUF` leaves the buffer CRC, which is the serial one. -/
theorem crcBufIsBitSerial : Obligations.CrcBufIsBitSerial := by
  intro s h hin hpad
  rw [exec_crcBuf h hin, crcBuffer_eq_foldl_getBits hpad]

/-- Settles O36: each of the three commands folds the serial update over its bits, and a fold over `a ++ b` is the
fold over `b` from where the fold over `a` ends. The bits read are those of `s` all along: no command of the three
writes `M`. -/
theorem crcComposes : Obligations.CrcComposes := by
  intro s a b ab na nb nab h _ ha hb hab hpadA hpadB hpadAb hbits
  refine ⟨_, _, _, crcBufIsBitSerial _ h ha hpadA, crcBufIsBitSerial _ h hb hpadB,
    crcBufIsBitSerial _ h hab hpadAb, ?_⟩
  change (getBits s b.toNat 0 nb.toNat).foldl serialUpdate ((getBits s a.toNat 0 na.toNat).foldl serialUpdate s.crc) =
    (getBits s ab.toNat 0 nab.toNat).foldl serialUpdate s.crc
  rw [hbits, List.foldl_append]

/-- Settles O31: `CRC.INIT` has no check of its own and is not served in the fault state; its row of the opcode map has
all of [23:0] at 0. -/
theorem crcInitPresets : Obligations.CrcInitPresets :=
  ⟨rfl, fun _ h => exec_of_ready h rfl rfl, fun _ hm hf => exec_of_faulted hm hf rfl rfl,
    decodeInvertsEncode .crcInit, rejectsReserved_of_rows (by decide)⟩

/-- Settles O32: the byte step one shift at a time, and the count check decides whether `CRC.BYTE` performs it. -/
theorem crcByteSteps : Obligations.CrcByteSteps := by
  refine ⟨fun _ _ => rfl, fun c d n => ?_, fun s n d h => ⟨fun h1 h8 => ?_, fun hn => ?_⟩⟩
  · rw [crcStep_succ, crcShift_eq]
  · exact exec_of_ready h rfl (checkStepCount_of_legal h1 h8)
  · exact exec_of_check h rfl (checkStepCount_of_illegal hn)

end Sys2Proof.Machine
end

section
/-! PROOFS. The statements about the bit-frame buffer unit (42_bitframe.md). First byte spans and the relation
`BitsWritten`: what it leaves alone, that two writes in a row are one write of the whole string
(`bitsWritten_append`), and that it fixes every byte (`memRead_eq_of_bitsWritten`). Then the checks of R102, and what
the two commands leave when they pass them. The laws of R106 follow from `exec_bfbAppend` and these rules alone. -/

namespace Sys2Proof.Machine

open Sys2Proof.Claims

/-! ### Byte spans -/

/-- The byte of a bit of the range lies in the range's span (R40). -/
theorem inSpan_of_lt (b i : Nat) {n k : Nat} (hk : k < n) : InSpan b i n (b + (i + k) / 8) :=
  ⟨by omega, by omega, by omega⟩

/-- The span of a part of a range lies in the range's span (R40). -/
theorem inSpan_of_part {b i n j m x : Nat} (hstart : i ≤ j) (hend : j + m ≤ i + n) (hx : InSpan b j m x) :
    InSpan b i n x := by
  obtain ⟨hpos, hfirst, hlast⟩ := hx
  exact ⟨by omega, by omega, by omega⟩

/-- Parts of two ranges with disjoint spans have disjoint spans. -/
theorem spansDisjoint_of_parts {b1 i1 n1 b2 i2 n2 j1 m1 j2 m2 : Nat} (h : SpansDisjoint b1 i1 n1 b2 i2 n2)
    (hstart1 : i1 ≤ j1) (hend1 : j1 + m1 ≤ i1 + n1) (hstart2 : i2 ≤ j2) (hend2 : j2 + m2 ≤ i2 + n2) :
    SpansDisjoint b1 j1 m1 b2 j2 m2 :=
  fun x hx1 hx2 => h x (inSpan_of_part hstart1 hend1 hx1) (inSpan_of_part hstart2 hend2 hx2)

/-- The model's overlap test decides whether the spans are disjoint (R102 item 3, R165). -/
theorem spansMeet_iff_not_spansDisjoint (b1 i1 n1 b2 i2 n2 : Nat) :
    spansMeet b1 i1 n1 b2 i2 n2 = true ↔ ¬ SpansDisjoint b1 i1 n1 b2 i2 n2 := by
  rw [spansMeet_iff]
  constructor
  · rintro ⟨hn1, hn2, x, hfirst1, hlast1, hfirst2, hlast2⟩ hdis
    exact hdis x ⟨hn1, hfirst1, hlast1⟩ ⟨hn2, hfirst2, hlast2⟩
  · intro hdis
    simp only [SpansDisjoint, not_forall, not_not] at hdis
    obtain ⟨x, ⟨hn1, hfirst1, hlast1⟩, hn2, hfirst2, hlast2⟩ := hdis
    exact ⟨hn1, hn2, x, hfirst1, hlast1, hfirst2, hlast2⟩

/-! ### Writing a bit string -/

/-- The packer writes as R100 says. -/
theorem bitsWritten_writeBits (db off : Nat) {bits : List Bool} (hne : 0 < bits.length) (s : State) :
    BitsWritten db off bits s (writeBits db off bits s) := by
  refine ⟨fun i hi => ?written, fun i hi => ?kept, fun i hi hbyte => ?padding, fun a ha => ?outside⟩
  case written =>
    have hplace : 8 * db + (off + i) - (8 * db + off) = i := by omega
    rw [getBit_global, getBit_writeBits _ _ _ _ hne, if_pos (by omega), hplace, List.getD_eq_getElem?_getD]
  case kept => rw [getBit_global, getBit_writeBits _ _ _ _ hne, if_neg (by omega), if_neg (by omega), ← getBit_global]
  case padding => rw [getBit_global, getBit_writeBits _ _ _ _ hne, if_neg (by omega), if_pos (by omega)]
  case outside =>
    have hspan : a < db + off / 8 ∨ db + (off + bits.length - 1) / 8 < a := by
      by_contra hin
      exact ha ⟨hne, by omega, by omega⟩
    exact memRead_writeBits_outside db off bits s hne a hspan

/-- A range whose span the written one does not meet reads as before (R100). -/
theorem getBit_of_bitsWritten {db off sb so n : Nat} {bits : List Bool} {s t : State}
    (h : BitsWritten db off bits s t) (hdis : SpansDisjoint sb so n db off bits.length) {k : Nat} (hk : k < n) :
    getBit t sb (so + k) = getBit s sb (so + k) := by
  obtain ⟨-, -, -, houtside⟩ := h
  rw [getBit, getBit, houtside _ (hdis _ (inSpan_of_lt sb so hk))]

/-- Two writes, the second where the first ended, are one write of the two strings joined (R106 item 2). -/
theorem bitsWritten_append {db off : Nat} {bits1 bits2 : List Bool} {s t u : State}
    (h1 : BitsWritten db off bits1 s t) (h2 : BitsWritten db (off + bits1.length) bits2 t u) :
    BitsWritten db off (bits1 ++ bits2) s u := by
  obtain ⟨hwritten1, hkept1, -, houtside1⟩ := h1
  obtain ⟨hwritten2, hkept2, hpadding2, houtside2⟩ := h2
  simp only [BitsWritten, List.length_append, ← Nat.add_assoc]
  refine ⟨fun i hi => ?written, fun i hi => ?kept, hpadding2, fun a ha => ?outside⟩
  case written =>
    by_cases hfirst : i < bits1.length
    · rw [hkept2 _ (by omega), hwritten1 i hfirst, List.getD_append _ _ _ _ hfirst]
    · obtain ⟨k, rfl⟩ := Nat.exists_eq_add_of_le (Nat.le_of_not_lt hfirst)
      rw [← Nat.add_assoc, hwritten2 k (by omega), List.getD_append_right _ _ _ _ (by omega),
        Nat.add_sub_cancel_left]
  case kept => rw [hkept2 i (by omega), hkept1 i hi]
  case outside =>
    rw [houtside2 a fun hx => ha (inSpan_of_part (by omega) (by omega) hx),
      houtside1 a fun hx => ha (inSpan_of_part (by omega) (by omega) hx)]

/-- What `M` holds after a write is fixed at every address (R100). -/
theorem memRead_eq_of_bitsWritten {db off : Nat} {bits : List Bool} {s t u : State}
    (ht : BitsWritten db off bits s t) (hu : BitsWritten db off bits s u) (a : Nat) : memRead t a = memRead u a := by
  obtain ⟨hwrittenT, hkeptT, hpaddingT, houtsideT⟩ := ht
  obtain ⟨hwrittenU, hkeptU, hpaddingU, houtsideU⟩ := hu
  by_cases ha : InSpan db off bits.length a
  · obtain ⟨hne, hfirst, hlast⟩ := ha
    refine memRead_eq_of_bits u t a fun g hg => ?_
    obtain ⟨i, rfl⟩ := Nat.exists_eq_add_of_le (show 8 * db ≤ g by omega)
    rw [← getBit_global, ← getBit_global]
    by_cases hbelow : i < off
    · rw [hkeptT i hbelow, hkeptU i hbelow]
    · obtain ⟨k, rfl⟩ := Nat.exists_eq_add_of_le (Nat.le_of_not_lt hbelow)
      by_cases hin : k < bits.length
      · rw [hwrittenT k hin, hwrittenU k hin]
      · rw [hpaddingT _ (by omega) (by omega), hpaddingU _ (by omega) (by omega)]
  · rw [houtsideT a ha, houtsideU a ha]

/-- Equal bits, equal bit strings. -/
theorem getBits_congr {s t : State} {b i n : Nat} (h : ∀ k, k < n → getBit t b (i + k) = getBit s b (i + k)) :
    getBits t b i n = getBits s b i n :=
  List.map_congr_left fun k hk => h k (List.mem_range.mp hk)

/-- The `k`-th of the bits read, as the statements write it. -/
theorem getBits_getD (s : State) (b i : Nat) {n k : Nat} (hk : k < n) (d : Bool) :
    (getBits s b i n).getD k d = getBit s b (i + k) := by
  rw [List.getD_eq_getElem?_getD, getBits_getElem? s b i n k hk, Option.getD_some]

/-- The bits read at the destination after an append are those of the source before it. -/
theorem getBit_of_bitsWritten_getBits {db off sb so n : Nat} {s t u : State}
    (h : BitsWritten db off (getBits s sb so n) u t) {i : Nat} (hi : i < n) :
    getBit t db (off + i) = getBit s sb (so + i) := by
  obtain ⟨hwritten, -⟩ := h
  rw [hwritten i (by rwa [getBits_length]), getBits_getD s sb so hi]

/-- Two writes of the halves of a field, the second read after the first, are one write of the field: the first half is
not written over the source (R106 item 2). -/
theorem bitsWritten_getBits_append {db off sb so n1 n2 : Nat} {s t u : State}
    (hdis : SpansDisjoint sb so (n1 + n2) db off n1) (h1 : BitsWritten db off (getBits s sb so n1) s t)
    (h2 : BitsWritten db (off + n1) (getBits t sb (so + n1) n2) t u) :
    BitsWritten db off (getBits s sb so (n1 + n2)) s u := by
  have hcount := getBits_length s sb so n1
  have hkept : getBits t sb (so + n1) n2 = getBits s sb (so + n1) n2 :=
    getBits_congr fun k hk => getBit_of_bitsWritten h1
      (hcount.symm ▸ spansDisjoint_of_parts hdis (by omega) (by omega) le_rfl le_rfl) hk
  rw [getBits_append, ← hkept]
  exact bitsWritten_append h1 (hcount.symm ▸ h2)

/-! ### Writing at the destination -/

/-- A range inside `M` ends below bit index 65536, so `DSTO` does not wrap past it (R6, R163). -/
theorem rangeEnd_lt {s : State} (hv : s.cfg.Valid) {db off c : Nat} (hin : 8 * db + off + c ≤ 8 * s.cfg.memBytes) :
    off + c < 65536 := by
  obtain ⟨⟨-, hbytes⟩, -⟩ := hv
  omega

/-- `DSTO` advances past the bits (R101, R104). -/
theorem appendAtDestination_dsto {s : State} (hv : s.cfg.Valid) {bits : List Bool}
    (hin : 8 * s.dstb.toNat + s.dsto.toNat + bits.length ≤ 8 * s.cfg.memBytes) :
    (appendAtDestination bits s).dsto.toNat = s.dsto.toNat + bits.length := by
  rw [appendAtDestination_eq, BitVec.toNat_ofNat, Nat.mod_eq_of_lt (rangeEnd_lt hv hin)]

/-- The bits are written as R100 says. -/
theorem bitsWritten_appendAtDestination {bits : List Bool} (hne : 0 < bits.length) (s : State) :
    BitsWritten s.dstb.toNat s.dsto.toNat bits s (appendAtDestination bits s) := by
  have hmem : ∀ a, memRead (appendAtDestination bits s) a = memRead (writeBits s.dstb.toNat s.dsto.toNat bits s) a :=
    memRead_congr _ _ rfl rfl
  have h := bitsWritten_writeBits s.dstb.toNat s.dsto.toNat hne s
  simpa only [BitsWritten, getBit, hmem] using h

/-- All that `appendAtDestination` does, in the words of the statements (R100, R101, R104). -/
theorem appendAtDestination_spec {s : State} (hv : s.cfg.Valid) {bits : List Bool} (hne : 0 < bits.length)
    (hin : 8 * s.dstb.toNat + s.dsto.toNat + bits.length ≤ 8 * s.cfg.memBytes) :
    ∃ t, t = appendAtDestination bits s ∧ t = answered 0#16 { s with dsto := t.dsto, mem := t.mem } ∧
      t.dsto.toNat = s.dsto.toNat + bits.length ∧ BitsWritten s.dstb.toNat s.dsto.toNat bits s t :=
  ⟨_, rfl, appendAtDestination_eq bits s, appendAtDestination_dsto hv hin, bitsWritten_appendAtDestination hne s⟩

/-! ### The checks of R102 -/

/-- Past its empty case `BFB.APPEND` makes the copy check (R101). -/
theorem checkOf_bfbAppend {s : State} (hlen : 0 < s.len.toNat) :
    checkOf s .bfbAppend =
      checkCopy s s.srcb.toNat s.srco.toNat s.len.toNat s.dstb.toNat s.dsto.toNat s.len.toNat :=
  if_neg (Nat.ne_of_gt hlen)

/-- Past its empty case `BFB.ACX` makes the copy check, its source being all the raw bits (R104). -/
theorem checkOf_bfbAcx {s : State} (hskip : s.srco.toNat ≤ s.len.toNat) :
    checkOf s .bfbAcx =
      checkCopy s s.srcb.toNat 0 s.len.toNat s.dstb.toNat s.dsto.toNat (acxCount s.srco.toNat s.len.toNat) :=
  if_neg (Nat.not_lt_of_le hskip)

/-- The copy check passes for two ranges inside `M` with disjoint spans (R102). -/
theorem checkCopy_of_spansDisjoint {s : State} {sb so n db off c : Nat} (hsrc : 8 * sb + so + n ≤ 8 * s.cfg.memBytes)
    (hdst : 8 * db + off + c ≤ 8 * s.cfg.memBytes) (hdis : SpansDisjoint sb so n db off c) :
    checkCopy s sb so n db off c = none := by
  have hmeet : spansMeet sb so n db off c = false := by
    rw [← Bool.not_eq_true, spansMeet_iff_not_spansDisjoint, not_not]
    exact hdis
  exact (checkCopy_none_iff ..).mpr ⟨hsrc, hdst, hmeet⟩

/-- A command that makes the copy check faults as the check says, and past the two range checks the end of the
destination range fits `DSTO` (R102, R163, R165). -/
theorem exec_faulted_of_checkCopy {i : Instr} {s : State} {so n c : Nat} (h : Ready s) (hv : s.cfg.Valid)
    (hi : i.isEvent = false)
    (hc : checkOf s i = checkCopy s s.srcb.toNat so n s.dstb.toNat s.dsto.toNat c) :
    (8 * s.cfg.memBytes < 8 * s.srcb.toNat + so + n → exec i s = .next (faulted .addr s)) ∧
    (8 * s.cfg.memBytes < 8 * s.dstb.toNat + s.dsto.toNat + c → exec i s = .next (faulted .addr s)) ∧
    (8 * s.srcb.toNat + so + n ≤ 8 * s.cfg.memBytes → 8 * s.dstb.toNat + s.dsto.toNat + c ≤ 8 * s.cfg.memBytes →
      s.dsto.toNat + c < 65536 ∧
      (¬ SpansDisjoint s.srcb.toNat so n s.dstb.toNat s.dsto.toNat c → exec i s = .next (faulted .overlap s))) := by
  have hfaults : ∀ code, checkCopy s s.srcb.toNat so n s.dstb.toNat s.dsto.toNat c = some code →
      exec i s = .next (faulted code s) := fun code hcode => exec_of_check h hi (hc.trans hcode)
  refine ⟨fun hsrc => hfaults .addr ?source, fun hdst => hfaults .addr ?destination,
    fun hsrc hdst => ⟨rangeEnd_lt hv hdst, fun hmeet => hfaults .overlap ?overlap⟩⟩ <;> rw [checkCopy_some_iff]
  case source => exact .inl ⟨.inl hsrc, rfl⟩
  case destination => exact .inl ⟨.inr hdst, rfl⟩
  case overlap => exact .inr ⟨hsrc, hdst, (spansMeet_iff_not_spansDisjoint ..).mpr hmeet, rfl⟩

/-- Settles O39: past their empty cases both commands make the copy check, each with its own ranges. -/
theorem copyChecksInOrder : Obligations.CopyChecksInOrder :=
  fun _ h hv => ⟨fun hlen => exec_faulted_of_checkCopy h hv rfl (checkOf_bfbAppend hlen),
    fun hskip => exec_faulted_of_checkCopy h hv rfl (checkOf_bfbAcx hskip)⟩

/-! ### BFB.APPEND -/

/-- `BFB.APPEND` past its checks does the append (R101). -/
theorem effectOf_bfbAppend {s : State} (hlen : 0 < s.len.toNat) :
    effectOf .bfbAppend s = appendAtDestination (getBits s s.srcb.toNat s.srco.toNat s.len.toNat) s :=
  if_neg (Nat.ne_of_gt hlen)

/-- The block is ready and its registers ask for a non-empty append, from (sb, so, n) to (db, off), that passes the
checks of R102. -/
structure AppendPasses (s : State) (sb so n db off : Nat) : Prop where
  ready : Ready s
  cfgValid : s.cfg.Valid
  srcb : s.srcb.toNat = sb
  srco : s.srco.toNat = so
  len : s.len.toNat = n
  dstb : s.dstb.toNat = db
  dsto : s.dsto.toNat = off
  lenPos : 0 < n
  source : 8 * sb + so + n ≤ 8 * s.cfg.memBytes
  destination : 8 * db + off + n ≤ 8 * s.cfg.memBytes
  disjoint : SpansDisjoint sb so n db off n

/-- All that a passing `BFB.APPEND` does (R100, R101). -/
theorem exec_bfbAppend {s : State} {sb so n db off : Nat} (h : AppendPasses s sb so n db off) :
    ∃ t, exec .bfbAppend s = .next t ∧ t = answered 0#16 { s with dsto := t.dsto, mem := t.mem } ∧
      t.dsto.toNat = off + n ∧ BitsWritten db off (getBits s sb so n) s t := by
  obtain ⟨hready, hv, rfl, rfl, rfl, rfl, rfl, hlen, hsrc, hdst, hdis⟩ := h
  have hcount := getBits_length s s.srcb.toNat s.srco.toNat s.len.toNat
  have hc := (checkOf_bfbAppend hlen).trans (checkCopy_of_spansDisjoint hsrc hdst hdis)
  obtain ⟨t, rfl, hframe, hdsto, hbits⟩ := appendAtDestination_spec hv (hcount ▸ hlen) (hcount.symm ▸ hdst)
  rw [hcount] at hdsto
  exact ⟨_, (exec_of_ready hready rfl hc).trans (congrArg _ (effectOf_bfbAppend hlen)), hframe, hdsto, hbits⟩

/-- Settles O38: the source bits are written at the destination, whose span does not meet the source. -/
theorem appendCopiesBits : Obligations.AppendCopiesBits := by
  intro s h hv hlen hsrc hdst hdis
  obtain ⟨t, hexec, hframe, hdsto, hbits⟩ := exec_bfbAppend ⟨h, hv, rfl, rfl, rfl, rfl, rfl, hlen, hsrc, hdst, hdis⟩
  refine ⟨t, hexec, hframe, hdsto, hbits, fun i hi => getBit_of_bitsWritten hbits ?_ hi⟩
  rwa [getBits_length]

/-- Settles O40: the second append reads at the destination of the first, where the field stands. -/
theorem appendThenExtractRoundTrip : Obligations.AppendThenExtractRoundTrip := by
  intro s fb h hv hlen hsrc hdst hfb hdis hdisFb
  obtain ⟨t, hexec, hframe, -, hfield⟩ := exec_bfbAppend ⟨h, hv, rfl, rfl, rfl, rfl, rfl, hlen, hsrc, hdst, hdis⟩
  obtain ⟨dsto, mem, rfl⟩ : ∃ dsto mem, t = answered 0#16 { s with dsto := dsto, mem := mem } := ⟨_, _, hframe⟩
  have hextract : AppendPasses
      { answered 0#16 { s with dsto := dsto, mem := mem } with
        srcb := s.dstb, srco := s.dsto, dstb := fb, dsto := 0#16 }
      s.dstb.toNat s.dsto.toNat s.len.toNat fb.toNat 0 :=
    ⟨h, hv, rfl, rfl, rfl, rfl, rfl, hlen, hdst, hfb, hdisFb⟩
  obtain ⟨u, hexec2, -, hdsto, hcopy⟩ := exec_bfbAppend hextract
  refine ⟨_, u, hexec, hexec2, BitVec.eq_of_toNat_eq (hdsto.trans (Nat.zero_add _)), fun i hi => ?_⟩
  calc getBit u fb.toNat i = getBit u fb.toNat (0 + i) := by rw [Nat.zero_add]
    _ = getBit (answered 0#16 { s with dsto := dsto, mem := mem }) s.dstb.toNat (s.dsto.toNat + i) :=
      getBit_of_bitsWritten_getBits hcopy hi
    _ = getBit s s.srcb.toNat (s.srco.toNat + i) := getBit_of_bitsWritten_getBits hfield hi

/-- The first part of a passing append passes. -/
theorem appendPasses_firstPart {s : State} {sb so n1 n2 db off : Nat} (h : AppendPasses s sb so (n1 + n2) db off)
    (hn1 : 0 < n1) {len1 : Word} (hlen1 : len1.toNat = n1) :
    AppendPasses { s with len := len1 } sb so n1 db off where
  ready := h.ready
  cfgValid := h.cfgValid
  srcb := h.srcb
  srco := h.srco
  len := hlen1
  dstb := h.dstb
  dsto := h.dsto
  lenPos := hn1
  source := le_trans (by omega) h.source
  destination := le_trans (by omega) h.destination
  disjoint := spansDisjoint_of_parts h.disjoint le_rfl (by omega) le_rfl (by omega)

/-- The rest of a passing append passes after its first part: `SRCO` does not wrap, and the ranges are parts of the
whole ones. -/
theorem appendPasses_rest {s : State} {sb so n1 n2 db off : Nat} (h : AppendPasses s sb so (n1 + n2) db off)
    (hn2 : 0 < n2) {len1 len2 dsto : Word} (hlen1 : len1.toNat = n1) (hlen2 : len2.toNat = n2)
    (hdsto : dsto.toNat = off + n1) (mem : Memory) :
    AppendPasses
      { answered 0#16 { s with len := len1, dsto := dsto, mem := mem } with srco := s.srco + len1, len := len2 }
      sb (so + n1) n2 db (off + n1) where
  ready := h.ready
  cfgValid := h.cfgValid
  srcb := h.srcb
  srco := by
    have hfits := rangeEnd_lt h.cfgValid h.source
    rw [BitVec.toNat_add_of_lt (by rw [h.srco, hlen1]; omega), h.srco, hlen1]
  len := hlen2
  dstb := h.dstb
  dsto := hdsto
  lenPos := hn2
  source := le_trans (by omega) h.source
  destination := le_trans (by omega) h.destination
  disjoint := spansDisjoint_of_parts h.disjoint (by omega) (by omega) (by omega) (by omega)

/-- Settles O41: the two writes are one write of the whole field, and a write fixes every byte. -/
theorem appendConcatenates : Obligations.AppendConcatenates := by
  intro s n1 n2 h hv hn1 hn2 hlen hsrc hdst hdis
  rw [hlen] at hsrc hdst hdis
  have hwhole : AppendPasses s s.srcb.toNat s.srco.toNat (n1.toNat + n2.toNat) s.dstb.toNat s.dsto.toNat :=
    ⟨h, hv, rfl, rfl, hlen, rfl, rfl, Nat.add_pos_left hn1 _, hsrc, hdst, hdis⟩
  obtain ⟨v, hexecV, -, hdstoV, hbitsV⟩ := exec_bfbAppend hwhole
  obtain ⟨t, hexecT, hframe, hdstoT, hbitsT⟩ := exec_bfbAppend (appendPasses_firstPart hwhole hn1 rfl)
  obtain ⟨dsto, mem, rfl⟩ : ∃ dsto mem, t = answered 0#16 { s with len := n1, dsto := dsto, mem := mem } :=
    ⟨_, _, hframe⟩
  obtain ⟨u, hexecU, -, hdstoU, hbitsU⟩ := exec_bfbAppend (appendPasses_rest hwhole hn2 rfl rfl hdstoT mem)
  have hdisFirst : SpansDisjoint s.srcb.toNat s.srco.toNat (n1.toNat + n2.toNat) s.dstb.toNat s.dsto.toNat n1.toNat :=
    spansDisjoint_of_parts hdis le_rfl le_rfl le_rfl (by omega)
  have hbits := bitsWritten_getBits_append hdisFirst hbitsT hbitsU
  refine ⟨_, u, v, hexecT, hexecU, hexecV, BitVec.eq_of_toNat_eq ?_, memRead_eq_of_bitsWritten hbits hbitsV⟩
  rw [hdstoU, hdstoV, Nat.add_assoc]

/-! ### BFB.ACX -/

/-- A raw bit is taken where it lies below `LEN` (R104). -/
theorem lt_acxTaken_iff (skip n i : Nat) : i < acxTaken skip n ↔ skip + 2 * i < n := by
  rw [acxTaken]
  omega

/-- The taken raw bits stand first, in order (R104). -/
theorem acxBits_getD_taken (s : State) (sb : Nat) {skip n i : Nat} (hi : skip + 2 * i < n) (d : Bool) :
    (acxBits s sb skip n).getD i d = getBit s sb (skip + 2 * i) := by
  have htaken := (lt_acxTaken_iff skip n i).mpr hi
  rw [acxBits, List.getD_append _ _ _ _ (by simpa using htaken)]
  simp [htaken]

/-- Behind the taken raw bits stand zeros only (R104). -/
theorem acxBits_getD_fix (s : State) (sb : Nat) {skip n i : Nat} (hi : n ≤ skip + 2 * i)
    (hlen : i < (acxBits s sb skip n).length) (d : Bool) : (acxBits s sb skip n).getD i d = false := by
  have htaken : acxTaken skip n ≤ i := Nat.le_of_not_lt ((lt_acxTaken_iff skip n i).not.mpr (Nat.not_lt_of_le hi))
  rw [acxBits_length] at hlen
  rw [acxBits, List.getD_append_right _ _ _ _ (by simpa using htaken), List.length_map, List.length_range]
  exact List.getD_replicate _ (by omega)

/-- `BFB.ACX` past its checks writes its output bits at the destination (R104). -/
theorem effectOf_bfbAcx {s : State} (hskip : s.srco.toNat ≤ s.len.toNat) :
    effectOf .bfbAcx s = appendAtDestination (acxBits s s.srcb.toNat s.srco.toNat s.len.toNat) s :=
  if_neg (Nat.not_lt_of_le hskip)

/-- Settles O42: the bits of `acxBits` are written at the destination. -/
theorem acxExtractsBits : Obligations.AcxExtractsBits := by
  intro s h hv hskip hsrc hdst hdis
  have hcount : (acxBits s s.srcb.toNat s.srco.toNat s.len.toNat).length = acxCount s.srco.toNat s.len.toNat :=
    acxBits_length ..
  obtain ⟨t, rfl, hframe, hdsto, hbits⟩ := appendAtDestination_spec hv
    (lt_of_lt_of_eq (acx_count_pos _ _) hcount.symm) (hcount.symm ▸ hdst)
  have hc := (checkOf_bfbAcx hskip).trans (checkCopy_of_spansDisjoint hsrc hdst hdis)
  rw [hcount] at hdsto
  exact ⟨_, _, (exec_of_ready h rfl hc).trans (congrArg _ (effectOf_bfbAcx hskip)), hframe, hdsto, hcount,
    fun i hi => acxBits_getD_taken s _ hi true, fun i hlen hi => acxBits_getD_fix s _ hi hlen true, hbits⟩

end Sys2Proof.Machine
end

section
/-! PROOFS. The statements about the encoder (43_encoder.md). First who drives the line; then the check of `ENC.FRAME`
as one condition on the word and one on the payload range, which gives its faults and the frame it emits; last the bit
patterns and the length of a frame, for any measure of segments that adds up over a list. -/

namespace Sys2Proof.Machine

open Sys2Proof.Claims

/-! ### Who drives the line -/

/-- The decoder adds nothing to the line trace (R111). -/
theorem ReceiveFrame.lineTrace {s t : State} (h : ReceiveFrame s t) : t.lineTrace = s.lineTrace :=
  (congrArg State.lineTrace h.outside :)

/-- The decoder does not drive the line (R117). -/
theorem ReceiveFrame.line {s t : State} (h : ReceiveFrame s t) : t.line = s.line := (congrArg State.line h.outside :)

/-- Of the commands past their checks only `ENC.FRAME` adds to the line trace, and only it and `RESET` drive the
line (R111, R117). -/
theorem effectOf_line {i : Instr} {s : State} (hc : checkOf s i = none)
    (henc : ∀ scheme sof, i ≠ .encFrame scheme sof) :
    (effectOf i s).lineTrace = s.lineTrace ∧ (i ≠ .reset → (effectOf i s).line = s.line) := by
  cases i with
  | setr reg v =>
    obtain ⟨r, hr, _⟩ := reg_of_checkWrite hc
    rw [effectOf_setr hr, writeReg_eq]
    exact ⟨rfl, fun _ => rfl⟩
  | getr reg =>
    obtain ⟨r, hr⟩ := reg_of_checkRead hc
    rw [effectOf_getr hr]
    exact ⟨rfl, fun _ => rfl⟩
  | reset => exact ⟨rfl, absurd rfl⟩
  | bfbAppend =>
    obtain ⟨_, _, h⟩ := effectOf_append_eq (.inl rfl) s
    rw [h]
    exact ⟨rfl, fun _ => rfl⟩
  | bfbAcx =>
    obtain ⟨_, _, h⟩ := effectOf_append_eq (.inr rfl) s
    rw [h]
    exact ⟨rfl, fun _ => rfl⟩
  | encFrame scheme sof => exact absurd rfl (henc scheme sof)
  | decArm scheme =>
    obtain ⟨sch, hsch, _⟩ := scheme_of_checkArm hc
    rw [effectOf_decArm hsch]
    exact ⟨rfl, fun _ => rfl⟩
  | _ => exact ⟨rfl, fun _ => rfl⟩

/-- Settles O16: faults, refusals and the whole decoder leave the line alone, and of the effects only that of
`ENC.FRAME` and, for the level, that of `RESET` do not. -/
theorem onlyEncoderDrivesLine : Obligations.OnlyEncoderDrivesLine := by
  intro i s t h henc
  rcases exec_cases h with rfl | ⟨_, _, code, _, rfl⟩ | ⟨_, _, _, _, _, rfl⟩ | ⟨_, _, hc, _, rfl⟩ |
    ⟨_, _, rfl⟩ | ⟨_, n, _, hn⟩
  · exact ⟨rfl, fun _ => rfl⟩
  · rw [raiseFault_eq]
    exact ⟨rfl, fun _ => rfl⟩
  · exact ⟨rfl, fun _ => rfl⟩
  · exact effectOf_line hc henc
  · exact ⟨rfl, fun _ => rfl⟩
  · exact ⟨(receiveFrame_onEdge hn).lineTrace, fun _ => (receiveFrame_onEdge hn).line⟩

/-! ### The check of ENC.FRAME -/

/-- The fields are legal where the code names a scheme and that scheme allows the `sof` (R65, R110, R164). -/
theorem wellFormed_encFrame_eq : ∀ code sof : BitVec 3,
    (Instr.encFrame code sof).wellFormed = (schemeOfCode code).any (sofAllowed · sof) := by
  decide

/-- `ENC.FRAME` checks its fields, then the payload range (R110, R168). -/
theorem checkFrame_eq_ite (s : State) (code sof : BitVec 3) :
    checkFrame s code sof =
      if (Instr.encFrame code sof).wellFormed then checkSource s s.srcb.toNat s.srco.toNat s.len.toNat
      else some .operand := by
  rw [wellFormed_encFrame_eq, checkFrame]
  cases schemeOfCode code <;> rfl

/-- Illegal fields raise `OPERAND`, whatever the payload range (R164, R168). -/
theorem exec_encFrame_of_illegal {s : State} {code sof : BitVec 3} (h : Ready s)
    (hw : (Instr.encFrame code sof).wellFormed = false) :
    exec (.encFrame code sof) s = .next (faulted .operand s) := by
  refine exec_of_check (i := .encFrame code sof) h rfl ?_
  rw [checkOf, checkFrame_eq_ite, hw]
  rfl

/-- Settles O45: each of the three field conditions makes the word illegal, and past the fields the source check
names `ADDR`. -/
theorem encFrameFaults : Obligations.EncFrameFaults := by
  intro s code sof h
  refine ⟨fun hcode => exec_encFrame_of_illegal h ?unassigned,
    fun hcode h1 h3 h6 => exec_encFrame_of_illegal h ?sof,
    fun hcode h0 => exec_encFrame_of_illegal h ?reverse,
    fun hw hlen hout => exec_of_check (i := .encFrame code sof) h rfl ?range⟩
  case unassigned => simp [Instr.wellFormed, schemeAssigned, hcode]
  case sof =>
    have hne : code.toNat ≠ 4 := by omega
    simp [Instr.wellFormed, sofLegal, hne, h1, h3, h6]
  case reverse => simp [Instr.wellFormed, sofLegal, hcode, h0]
  case range => rw [checkOf, checkFrame_eq_ite, if_pos hw, checkSource_of_outside hlen hout]

/-! ### The frame that ENC.FRAME emits -/

/-- With legal fields and a payload that is empty or inside `M`, a ready block emits the frame (R110, R111, R117). -/
theorem exec_encFrame {s : State} {code sof : BitVec 3} {sch : Scheme} (h : Ready s)
    (hsch : schemeOfCode code = some sch) (hsof : sofAllowed sch sof = true)
    (hin : s.len.toNat = 0 ∨ 8 * s.srcb.toNat + s.srco.toNat + s.len.toNat ≤ 8 * s.cfg.memBytes) :
    exec (.encFrame code sof) s = .next (answered 0#16
      { s with
        line := .low
        lineTrace := s.lineTrace ++
          (frameSegments s.cfg sch sof.toNat (getBits s s.srcb.toNat s.srco.toNat s.len.toNat)).map asTrace ++
          [.rest] }) := by
  have hw : (Instr.encFrame code sof).wellFormed = true := by rw [wellFormed_encFrame_eq, hsch]; exact hsof
  have hc : checkOf s (.encFrame code sof) = none := by
    rw [checkOf, checkFrame_eq_ite, if_pos hw, checkSource_none_iff]
    exact hin
  rw [exec_of_ready h rfl hc, effectOf_encFrame hsch]
  rfl

/-- Only the reverse link has a closing pulse (R110, R115). -/
theorem closingSegments_of_ne_rl (c : Config) {sch : Scheme} (h : sch ≠ .rl) : closingSegments c sch = [] := by
  cases sch with
  | rl => exact absurd rfl h
  | _ => rfl

/-- The document's four schemes allow the document's three SOF lengths (R110, R164). -/
theorem sofAllowed_of_ne_rl {sch : Scheme} (h : sch ≠ .rl) {sof : BitVec 3} (hsof : sof ∈ [1#3, 3#3, 6#3]) :
    sofAllowed sch sof = true := by
  have hor : (sof == 1#3 || sof == 3#3 || sof == 6#3) = true := by simpa [or_assoc] using hsof
  cases sch with
  | rl => exact absurd rfl h
  | _ => exact hor

/-- Settles O44: the frame of `exec_encFrame`, without closing pulse for the four schemes and without SOF for the
reverse link. -/
theorem encFrameEmitsFrame : Obligations.EncFrameEmitsFrame := by
  intro s sof h hin
  refine ⟨fun code sch hcode hsof => ?_, exec_encFrame (code := 4#3) (sof := 0#3) h rfl rfl hin⟩
  have hscheme : ∀ p ∈ [(0#3, Scheme.ac2k), (1#3, .ac4k), (2#3, .mc4k), (3#3, .mc8k)],
      schemeOfCode p.1 = some p.2 ∧ p.2 ≠ .rl := by decide
  obtain ⟨hsch, hne⟩ := hscheme _ hcode
  rw [exec_encFrame h hsch (sofAllowed_of_ne_rl hne hsof) hin, frameSegments, closingSegments_of_ne_rl _ hne,
    List.append_nil]

/-! ### Bit patterns -/

/-- Settles O43: the patterns are the definitions, at each configuration's timings. -/
theorem bitPatterns : Obligations.BitPatterns :=
  fun _ => ⟨rfl, rfl, rfl, rfl, rfl, rfl, rfl, rfl, rfl, rfl⟩

/-! ### The length of a frame -/

/-- Durations add up over a list of segments. -/
theorem lasting_append (a b : List (Level × Nat)) : lasting (a ++ b) = lasting a + lasting b := by
  simp [lasting]

section
variable {μ : List (Level × Nat) → Nat} (hnil : μ [] = 0) (happend : ∀ a b, μ (a ++ b) = μ a + μ b)
include hnil happend

/-- A measure that adds up over lists, of a bit string coded bit by bit. -/
theorem measure_flatMap (f : Bool → List (Level × Nat)) (bits : List Bool) :
    μ (bits.flatMap f) = μ (f true) * ones bits + μ (f false) * zeros bits := by
  induction bits with
  | nil => simp [hnil, ones, zeros]
  | cons bit bits ih =>
    rw [List.flatMap_cons, happend, ih]
    cases bit <;> simp [ones, zeros] <;> ring

/-- A measure that adds up over lists, of a frame: the SOF counts as ones (R110, R116). -/
theorem measure_frameSegments (c : Config) (sch : Scheme) (sof : Nat) (bits : List Bool) :
    μ (frameSegments c sch sof bits) =
      μ (bitSegments c sch true) * (sof + ones bits) + μ (bitSegments c sch false) * zeros bits +
        μ (closingSegments c sch) := by
  have hones : ones (List.replicate sof true ++ bits) = sof + ones bits := by simp [ones]
  have hzeros : zeros (List.replicate sof true ++ bits) = zeros bits := by simp [zeros, List.count_replicate]
  rw [frameSegments, happend, measure_flatMap hnil happend, hones, hzeros]

end

/-- How many segments a frame has, bit by bit. -/
theorem length_frameSegments (c : Config) (sch : Scheme) (sof : Nat) (bits : List Bool) :
    (frameSegments c sch sof bits).length =
      (bitSegments c sch true).length * (sof + ones bits) + (bitSegments c sch false).length * zeros bits +
        (closingSegments c sch).length :=
  measure_frameSegments List.length_nil (fun _ _ => List.length_append) c sch sof bits

/-- How long a frame lasts, bit by bit. -/
theorem lasting_frameSegments (c : Config) (sch : Scheme) (sof : Nat) (bits : List Bool) :
    lasting (frameSegments c sch sof bits) =
      lasting (bitSegments c sch true) * (sof + ones bits) + lasting (bitSegments c sch false) * zeros bits +
        lasting (closingSegments c sch) :=
  measure_frameSegments rfl lasting_append c sch sof bits

/-- A Manchester frame: two segments and two half-periods for every bit (R113, R118). -/
theorem frameLength_manchester {c : Config} {sch : Scheme} {h : Nat} (hbits : bitSegments c sch = manchesterBit h)
    (hclosing : closingSegments c sch = []) (sof : Nat) (bits : List Bool) :
    (frameSegments c sch sof bits).length = 2 * (sof + ones bits + zeros bits) ∧
      lasting (frameSegments c sch sof bits) = 2 * h * (sof + ones bits + zeros bits) := by
  rw [length_frameSegments, lasting_frameSegments, hbits, hclosing]
  exact ⟨by simp [manchesterBit]; ring, by simp [manchesterBit, lasting]; ring⟩

/-- An AC frame: four half-periods for every bit, in four segments for a one and two for a zero (R114, R118). -/
theorem frameLength_ac {c : Config} {sch : Scheme} {h : Nat} (hbits : bitSegments c sch = acBit h)
    (hclosing : closingSegments c sch = []) (sof : Nat) (bits : List Bool) :
    (frameSegments c sch sof bits).length = 4 * (sof + ones bits) + 2 * zeros bits ∧
      lasting (frameSegments c sch sof bits) = 4 * h * (sof + ones bits + zeros bits) := by
  rw [length_frameSegments, lasting_frameSegments, hbits, hclosing]
  exact ⟨by simp [acBit], by simp [acBit, lasting]; ring⟩

/-- The pulse and the rest of a reverse-link bit fill its window, the pulse being shorter in a valid configuration (R6,
R115). -/
theorem lasting_reverseBit {t : ReverseTiming} (ht : t.Valid) :
    lasting (reverseBit t true) = t.w1 ∧ lasting (reverseBit t false) = t.w0 := by
  obtain ⟨_, htb, hw0, hta, hw1, _⟩ := ht
  constructor <;> simp [reverseBit, lasting] <;> omega

/-- A reverse-link frame: two segments and one window for every bit, and the closing pulse (R115, R118). -/
theorem frameLength_reverse {c : Config} (hc : c.Valid) (bits : List Bool) :
    (frameSegments c .rl 0 bits).length = 2 * (ones bits + zeros bits) + 1 ∧
      lasting (frameSegments c .rl 0 bits) = c.rl.w1 * ones bits + c.rl.w0 * zeros bits + c.rl.tLow := by
  obtain ⟨_, _, _, _, _, _, _, hrl⟩ := hc
  obtain ⟨hone, hzero⟩ := lasting_reverseBit hrl
  rw [length_frameSegments, lasting_frameSegments]
  simp only [bitSegments, hone, hzero, Nat.zero_add]
  exact ⟨by simp [reverseBit, closingSegments]; ring, by simp [closingSegments, lasting]⟩

/-- Settles O46: each scheme codes its bits in one of the three ways, and only the reverse link has a closing pulse. -/
theorem frameLengths : Obligations.FrameLengths :=
  fun _ sof bits => ⟨frameLength_manchester rfl rfl sof bits, frameLength_manchester rfl rfl sof bits,
    frameLength_ac rfl rfl sof bits, frameLength_ac rfl rfl sof bits, fun hc => frameLength_reverse hc bits⟩

end Sys2Proof.Machine
end

section
/-! PROOFS. The statements about the decoder (44_decoder.md) one event at a time: what the step takes from the ports,
what an idle block keeps of a cycle, the start of a cycle, the classes of an interval, and what an edge of each class
does. `storesRaw_putRaw` says in the words of the statements what `PutRaw` does; the statements about the classes that
store rest on it. -/

namespace Sys2Proof.Machine

open Sys2Proof.Claims

/-! ### Taking a word -/

/-- A step that takes a word performs the instruction it decodes to. -/
theorem step_of_nextWord {s t : State} {w : PortWord} {i : Instr} (hn : nextWord s = some (w, t))
    (hd : decode w = .ok i) : step s = exec i t := by
  simp only [step, hn, hd]

/-- A step that takes no word waits (R177). -/
theorem step_of_nothing {s : State} (hn : nextWord s = none) : step s = .next s := by
  simp only [step, hn]

/-- Settles O7: in IDLE the head of the list is taken, in RX the first event past the commands held. -/
theorem stepRunsDecodedInstruction : Obligations.StepRunsDecodedInstruction := by
  refine ⟨fun s w rest i hm hin hd => step_of_nextWord (nextWord_of_idle s w rest hm hin) hd,
    fun s held e rest i hm hheld hin hd => step_of_nextWord ?_ hd⟩
  rw [nextWord_of_rx s hm, hin, takeEvent_append held hheld]
  rfl

/-- Settles O9: nothing waits at an open port, so nothing is taken. -/
theorem waitingKeepsState : Obligations.WaitingKeepsState := by
  refine fun s => ⟨fun hm hin => step_of_nothing (nextWord_of_idle_empty s hm hin),
    fun hm hheld => step_of_nothing ?_⟩
  rw [nextWord_of_rx s hm, takeEvent_of_commands _ hheld]
  rfl

/-- Settles O10: a step in RX takes at most an event, and no instruction touches the ports. -/
theorem portGating : Obligations.PortGating := by
  refine ⟨fun s t hm h => ?_, fun s i => exec_held i s, fun s i => exec_dropped i s⟩
  rcases step_cases h with rfl | ⟨_, _, hidle, _⟩ | ⟨e, left, _, htake, hx⟩
  · rfl
  · exact absurd (hm.symm.trans hidle) (by decide)
  · rw [waitingCommands, inputs_exec hx]
    exact (takeEvent_cases htake).2

/-! ### What an idle block keeps of a cycle -/

/-- The registers in which a cycle leaves its result (R145). -/
def cycleRegisters (s : State) : Word × Word × Bool × Bool × Scheme × Word × RxEnd × Mode :=
  (s.rxlen, s.noise, s.last, s.skip, s.rxsch, s.rxbase, s.rxend, s.mode)

/-- Of the commands past their checks only `DEC.ARM` and `RESET` write the registers of a cycle (R145). -/
theorem cycleRegisters_effectOf {i : Instr} {s : State} (hc : checkOf s i = none)
    (harm : ∀ scheme, i ≠ .decArm scheme) (hreset : i ≠ .reset) :
    cycleRegisters (effectOf i s) = cycleRegisters s := by
  cases i with
  | setr reg v =>
    obtain ⟨r, hr, _⟩ := reg_of_checkWrite hc
    rw [effectOf_setr hr, writeReg_eq]
    rfl
  | getr reg =>
    obtain ⟨r, hr⟩ := reg_of_checkRead hc
    rw [effectOf_getr hr]
    rfl
  | reset => exact absurd rfl hreset
  | bfbAppend =>
    obtain ⟨_, _, h⟩ := effectOf_append_eq (.inl rfl) s
    rw [h]
    rfl
  | bfbAcx =>
    obtain ⟨_, _, h⟩ := effectOf_append_eq (.inr rfl) s
    rw [h]
    rfl
  | encFrame scheme sof =>
    obtain ⟨sch, hsch, _⟩ := scheme_of_checkFrame hc
    rw [effectOf_encFrame hsch]
    rfl
  | decArm scheme => exact absurd rfl (harm scheme)
  | _ => rfl

/-- Settles O19: faults and refusals leave a cycle's registers alone, of the effects only those of `DEC.ARM` and `RESET`
do not, and events are dropped. -/
theorem cycleResultKept : Obligations.CycleResultKept := by
  intro i s t hm h harm hreset
  have hkept : cycleRegisters t = cycleRegisters s := by
    rcases exec_cases h with rfl | ⟨_, _, code, _, rfl⟩ | ⟨_, _, _, _, _, rfl⟩ | ⟨_, _, hc, _, rfl⟩ |
      ⟨hrx, _⟩ | ⟨hrx, _⟩
    · rfl
    · rw [raiseFault_eq]
      rfl
    · rfl
    · exact cycleRegisters_effectOf hc harm hreset
    all_goals exact absurd (hm.symm.trans hrx) (by decide)
  simpa only [cycleRegisters, Prod.mk.injEq] using hkept

/-! ### The start and the end of a cycle -/

/-- Past the scheme code `DEC.ARM` checks the receive buffer (R132, R163). -/
theorem checkArm_of_scheme {s : State} {code : BitVec 3} {sch : Scheme} (h : schemeOfCode code = some sch) :
    checkArm s code = if s.dstb.toNat + s.cfg.rxCapBits / 8 ≤ s.cfg.memBytes then none else some .addr := by
  simp only [checkArm, h]

/-- `DEC.ARM` with the receive buffer inside `M` starts a cycle (R132). -/
theorem exec_decArm {s : State} {code : BitVec 3} {sch : Scheme} (h : Ready s) (hsch : schemeOfCode code = some sch)
    (hin : s.dstb.toNat + s.cfg.rxCapBits / 8 ≤ s.cfg.memBytes) :
    exec (.decArm code) s = .next (startCycle sch s) := by
  have hc : checkOf s (.decArm code) = none := (checkArm_of_scheme hsch).trans (if_pos hin)
  rw [exec_of_ready h rfl hc, effectOf_decArm hsch]

/-- Codes 5 to 7 name no scheme (R65). -/
theorem schemeOfCode_of_unassigned : ∀ code : BitVec 3, 4 < code.toNat → schemeOfCode code = none := by
  decide

/-- Settles O47: the check of `DEC.ARM` names the scheme, then the receive buffer. -/
theorem decArmStartsCycle : Obligations.DecArmStartsCycle := by
  intro s code h
  refine ⟨fun sch hcode => ?_, fun hcode => exec_of_check (i := .decArm code) h rfl ?_⟩
  · have hscheme : ∀ p ∈ [(0#3, Scheme.ac2k), (1#3, .ac4k), (2#3, .mc4k), (3#3, .mc8k), (4#3, .rl)],
        schemeOfCode p.1 = some p.2 := by decide
    have hsch := hscheme _ hcode
    refine ⟨exec_decArm h hsch, fun hout => exec_of_check (i := .decArm code) h rfl ?_⟩
    exact (checkArm_of_scheme hsch).trans (if_neg (Nat.not_le_of_lt hout))
  · simp only [checkOf, checkArm, schemeOfCode_of_unassigned code hcode]

/-- Settles O54: in RX the cycle ends, in IDLE the event is dropped. -/
theorem timeoutEndsCycle : Obligations.TimeoutEndsCycle :=
  fun s => ⟨fun hm => if_pos hm, fun hm => exec_dropped .timeout s hm rfl⟩

/-! ### The classes of an interval -/

/-- The document's four schemes classify by their own thresholds (R133, R134). -/
theorem classify_of_thresholds {c : Config} {sch : Scheme} {t : HalfPeriodTiming} (h : thresholds c sch = some t)
    (n : Nat) : classify c sch n = classifyHalfPeriods t n := by
  cases sch <;> cases h <;> rfl

/-- R133's table, row by row. -/
theorem classifyHalfPeriods_cases (t : HalfPeriodTiming) (n : Nat) :
    (classifyHalfPeriods t n = .start ∧ t.ts ≤ n) ∨
    (classifyHalfPeriods t n = .h4 ∧ n < t.ts ∧ t.t4 ≤ n) ∨
    (classifyHalfPeriods t n = .h3 ∧ n < t.ts ∧ n < t.t4 ∧ t.t3 ≤ n) ∨
    (classifyHalfPeriods t n = .h2 ∧ n < t.ts ∧ n < t.t4 ∧ n < t.t3 ∧ t.t2 ≤ n) ∨
    (classifyHalfPeriods t n = .noise ∧ n < t.ts ∧ n < t.t4 ∧ n < t.t3 ∧ n < t.t2) := by
  simp only [classifyHalfPeriods]
  split_ifs <;> simp <;> omega

/-- R135's table, row by row. -/
theorem classifyReverse_cases (t : ReverseTiming) (n : Nat) :
    (classifyReverse t n = .start ∧ t.ts ≤ n) ∨
    (classifyReverse t n = .one ∧ n < t.ts ∧ t.ta ≤ n) ∨
    (classifyReverse t n = .zero ∧ n < t.ts ∧ n < t.ta ∧ t.tb ≤ n) ∨
    (classifyReverse t n = .noise ∧ n < t.ts ∧ n < t.ta ∧ n < t.tb) := by
  simp only [classifyReverse]
  split_ifs <;> simp <;> omega

/-- Settles O48: the rows of each table share no interval when the thresholds rise. -/
theorem intervalClasses : Obligations.IntervalClasses := by
  refine ⟨fun c sch t n ht h23 h34 h4s => ?_, fun c n hba has => ?_⟩
  · rw [classify_of_thresholds ht]
    rcases classifyHalfPeriods_cases t n with ⟨h, hn⟩ | ⟨h, hn⟩ | ⟨h, hn⟩ | ⟨h, hn⟩ | ⟨h, hn⟩ <;>
      simp only [h, reduceCtorEq, true_iff, false_iff] <;> omega
  · rw [classify]
    rcases classifyReverse_cases c.rl n with ⟨h, hn⟩ | ⟨h, hn⟩ | ⟨h, hn⟩ | ⟨h, hn⟩ <;>
      simp only [h, reduceCtorEq, true_iff, false_iff] <;> omega

/-! ### The receive buffer -/

/-- The receive buffer is a positive number of whole bytes, no more than `M` has (R6). -/
theorem rxCapBits_of_valid {c : Config} (h : c.Valid) :
    c.rxCapBits % 8 = 0 ∧ 8 ≤ c.rxCapBits ∧ c.rxCapBits ≤ 8 * c.memBytes := by
  obtain ⟨-, hcap, -⟩ := h
  exact hcap

/-! ### What PutRaw does, in the words of the statements -/

/-- The decoder keeps the configuration (R31). -/
theorem ReceiveFrame.cfg {s t : State} (h : ReceiveFrame s t) : t.cfg = s.cfg := (congrArg State.cfg h.outside :)

/-- The scheme of a cycle stays latched (R132). -/
theorem ReceiveFrame.rxsch {s t : State} (h : ReceiveFrame s t) : t.rxsch = s.rxsch :=
  (congrArg State.rxsch h.outside :)

/-- The place of the receive buffer stays latched (R132). -/
theorem ReceiveFrame.rxbase {s t : State} (h : ReceiveFrame s t) : t.rxbase = s.rxbase :=
  (congrArg State.rxbase h.outside :)

/-- What a store leaves in `M`, counted from the start of the receive buffer, whose padding is 0 (R136). -/
theorem getBit_storeRaw_buffer {s : State} (hpad : receivePadding s) (bit : Bool) (i : Nat)
    (hbyte : i / 8 ≤ s.rxlen.toNat / 8) :
    getBit (storeRaw bit s) s.rxbase.toNat i =
      if i < s.rxlen.toNat then getBit s s.rxbase.toNat i else bit && decide (i = s.rxlen.toNat) := by
  have hpadding : s.rxlen.toNat ≤ i → s.rxlen.toNat % 8 ≠ 0 → getBit s s.rxbase.toNat i = false :=
    fun hle hmod => hpad i hle (by omega) hmod
  rw [getBit_global, getBit_storeRaw, ← getBit_global]
  by_cases hlt : i < s.rxlen.toNat
  · rw [if_neg (by omega), if_neg (by omega), if_pos hlt]
  · rw [if_neg hlt]
    by_cases heq : i = s.rxlen.toNat
    · rw [if_pos (by rw [heq]), decide_eq_true heq, Bool.and_true]
      by_cases hmod : s.rxlen.toNat % 8 = 0
      · simp [hmod]
      · simp [hpadding heq.ge hmod]
    · rw [if_neg (by omega), decide_eq_false heq, Bool.and_false]
      split
      · rfl
      · exact hpadding (by omega) (by omega)

/-- `PutRaw` in a running cycle is the statements' store (R136, R143). -/
theorem storesRaw_putRaw {s t : State} {bit : Bool} (hs : s.Inv) (hm : s.mode = .rx) (h : putRaw bit s = .ok t) :
    StoresRaw bit s t := by
  obtain ⟨hplace, hlen⟩ := receive_place hs hm
  have hbits := getBit_storeRaw_buffer (hs.rxPadding hm) bit
  have ht : t = if s.rxlen.toNat + 1 = s.cfg.rxCapBits then cycleEnded .full (storeRaw bit s) else storeRaw bit s := by
    rw [putRaw_of_rx bit s hm hplace, hlen] at h
    exact (Except.ok.inj h).symm
  have hmem : t.mem = (storeRaw bit s).mem := by rw [ht]; split <;> rfl
  have hpower : t.powerOn = (storeRaw bit s).powerOn := by rw [ht]; split <;> rfl
  have hread := memRead_congr _ _ hmem hpower
  have hget := getBit_congr _ _ hmem hpower
  refine ⟨?whole, ?bit, fun i hi => ?earlier, fun i hi hbyte => ?padding, fun a ha => ?outside⟩
  case whole => rwa [hmem, ← storeRaw_eq]
  case bit => simp [hget, hbits]
  case earlier => rw [hget, hbits i (by omega), if_pos hi]
  case padding => rw [hget, hbits i (by omega), if_neg (by omega), decide_eq_false (by omega), Bool.and_false]
  case outside => rw [hread, memRead_storeRaw_outside bit s a ha]

/-- In a running cycle `PutRaw` stores (R136). -/
theorem putRaw_stores {s : State} (hs : s.Inv) (hm : s.mode = .rx) (bit : Bool) :
    ∃ t, putRaw bit s = .ok t ∧ StoresRaw bit s t := by
  obtain ⟨t, ht⟩ := putRaw_total hs bit
  exact ⟨t, ht, storesRaw_putRaw hs hm ht⟩

/-- `PutRaw` twice, the first in a running cycle, is the statements' double store (R136, R143). -/
theorem putRawTwo_stores {s : State} (hs : s.Inv) (hm : s.mode = .rx) (bit1 bit2 : Bool) :
    ∃ t, putRawTwo bit1 bit2 s = .ok t ∧ StoresRawTwice bit1 bit2 s t := by
  obtain ⟨u, hu, hfirst⟩ := putRaw_stores hs hm bit1
  obtain ⟨t, ht⟩ := putRaw_total (putRaw_inv hs hu) bit2
  refine ⟨t, by simp only [putRawTwo, hu, ht], u, hfirst, fun hidle => ?ended,
    fun hrx => storesRaw_putRaw (putRaw_inv hs hu) hrx ht⟩
  case ended =>
    rw [putRaw_of_idle bit2 u hidle] at ht
    exact (Except.ok.inj ht).symm

/-! ### What an edge of each class does -/

/-- An edge of a running cycle answers what `onEdge` does (R134). -/
theorem exec_edge {s t : State} {n : Word} (hm : s.mode = .rx) (h : onEdge n s = .ok t) :
    exec (.edge n) s = .next t := by
  simp only [exec, execEdge, if_pos hm, h]

section
variable {s t : State} {n : Word} (hm : s.mode = .rx)
include hm

/-- An edge of class H2 is one store, of `LAST` (R139). -/
theorem exec_edge_h2 (hc : classify s.cfg s.rxsch n.toNat = .h2) (h : putRaw s.last s = .ok t) :
    exec (.edge n) s = .next t :=
  exec_edge hm (by simp only [onEdge, hc, h])

/-- An edge of class ONE is one store, of a 1 (R142). -/
theorem exec_edge_one (hc : classify s.cfg s.rxsch n.toNat = .one) (h : putRaw true s = .ok t) :
    exec (.edge n) s = .next t :=
  exec_edge hm (by simp only [onEdge, hc, h])

/-- An edge of class ZERO is one store, of a 0 (R142). -/
theorem exec_edge_zero (hc : classify s.cfg s.rxsch n.toNat = .zero) (h : putRaw false s = .ok t) :
    exec (.edge n) s = .next t :=
  exec_edge hm (by simp only [onEdge, hc, h])

/-- An edge of class H4 is two stores, of a 0 and a 1 (R138). -/
theorem exec_edge_h4 (hc : classify s.cfg s.rxsch n.toNat = .h4) (h : putRawTwo false true s = .ok t) :
    exec (.edge n) s = .next t :=
  exec_edge hm (by simp only [onEdge, hc, h])

/-- An edge of class H3 with `SKIP` set is one store, of a 0, and clears it (R140). -/
theorem exec_edge_h3_of_skip (hc : classify s.cfg s.rxsch n.toNat = .h3) (hskip : s.skip = true)
    (h : putRaw false s = .ok t) : exec (.edge n) s = .next { t with skip := false } :=
  exec_edge hm (by simp [onEdge, hc, onH3, hskip, h])

/-- An edge of class H3 with `SKIP` clear is two stores, of a 0 and a 1, and sets it (R140). -/
theorem exec_edge_h3_of_not_skip (hc : classify s.cfg s.rxsch n.toNat = .h3) (hskip : s.skip = false)
    (h : putRawTwo false true s = .ok t) : exec (.edge n) s = .next { t with skip := true } :=
  exec_edge hm (by simp [onEdge, hc, onH3, hskip, h])

/-- A start marker of the reverse link only begins the frame again (R142). -/
theorem exec_edge_start_of_rl (hc : classify s.cfg s.rxsch n.toNat = .start) (hsch : s.rxsch = .rl) :
    exec (.edge n) s = .next (restartFrame s) :=
  exec_edge hm (by simp only [onEdge, hc, onStart]; simp only [hsch])

/-- A start marker of Manchester or AC begins the frame again and stores a 1 (R137). -/
theorem exec_edge_start (hc : classify s.cfg s.rxsch n.toNat = .start) (hsch : s.rxsch ≠ .rl)
    (h : putRaw true (restartFrame s) = .ok t) : exec (.edge n) s = .next t := by
  refine exec_edge hm ?_
  simp only [onEdge, hc, onStart]
  cases hr : s.rxsch with
  | rl => exact absurd hr hsch
  | _ => exact h

end

/-- Settles O50: each of the three classes is one store. -/
theorem singleBitClassesStore : Obligations.SingleBitClassesStore := by
  intro s n hs hm
  refine ⟨fun hc => ?h2, fun hc => ?one, fun hc => ?zero⟩
  case h2 =>
    obtain ⟨t, ht, hstores⟩ := putRaw_stores hs hm s.last
    exact ⟨t, exec_edge_h2 hm hc ht, hstores⟩
  case one =>
    obtain ⟨t, ht, hstores⟩ := putRaw_stores hs hm true
    exact ⟨t, exec_edge_one hm hc ht, hstores⟩
  case zero =>
    obtain ⟨t, ht, hstores⟩ := putRaw_stores hs hm false
    exact ⟨t, exec_edge_zero hm hc ht, hstores⟩

/-- Settles O51: class H4 is two stores. -/
theorem fourHalfPeriodsStoreZeroOne : Obligations.FourHalfPeriodsStoreZeroOne := by
  intro s n hs hm hc
  obtain ⟨t, ht, hstores⟩ := putRawTwo_stores hs hm false true
  exact ⟨t, exec_edge_h4 hm hc ht, hstores⟩

/-- Settles O52: class H3 is one store or two, as `SKIP` says, and toggles it afterwards. -/
theorem threeHalfPeriodsAlternate : Obligations.ThreeHalfPeriodsAlternate := by
  intro s n hs hm hc
  refine ⟨fun hskip => ?one, fun hskip => ?two⟩
  case one =>
    obtain ⟨u, hu, hstores⟩ := putRaw_stores hs hm false
    exact ⟨u, hstores, exec_edge_h3_of_skip hm hc hskip hu⟩
  case two =>
    obtain ⟨u, hu, hstores⟩ := putRawTwo_stores hs hm false true
    exact ⟨u, hstores, exec_edge_h3_of_not_skip hm hc hskip hu⟩

/-- A byte whose first bit alone is set, bit indices counted from the most significant bit (R7). -/
theorem memRead_eq_of_first_bit {s : State} {b : Nat} (h : ∀ i < 8, getBit s b i = decide (i = 0)) :
    memRead s b = 0x80#8 := by
  refine BitVec.eq_of_getLsbD_eq fun k hk => ?_
  have hbit := h (7 - k) (by omega)
  have hbyte : b + (7 - k) / 8 = b := by omega
  have hplace : 7 - (7 - k) % 8 = k := by omega
  rw [getBit, hbyte, hplace] at hbit
  rw [hbit]
  have hall : ∀ j < 8, decide (7 - j = 0) = (0x80#8).getLsbD j := by decide
  exact hall k hk

/-- Settles O49: for Manchester and AC the marker's 1 is the first store into an empty buffer, which it does not
fill. -/
theorem startMarkerBeginsFrame : Obligations.StartMarkerBeginsFrame := by
  intro s n hs hm hc
  refine ⟨fun hsch => exec_edge_start_of_rl hm hc hsch, fun hsch => ?_⟩
  obtain ⟨t, ht, hwhole, hbit, -, hpadding, houtside⟩ := putRaw_stores (restartFrame_inv hs) hm true
  have hcap : ¬ (restartFrame s).rxlen.toNat + 1 = (restartFrame s).cfg.rxCapBits := by
    obtain ⟨-, hpos, -⟩ := rxCapBits_of_valid hs.cfgValid
    simp only [restartFrame_rxlen, restartFrame_cfg, BitVec.toNat_ofNat]
    omega
  rw [if_neg hcap] at hwhole
  refine ⟨t, exec_edge_start hm hc hsch ht, hwhole, memRead_eq_of_first_bit fun i hi => ?_,
    fun a ha => houtside a (by simpa using ha)⟩
  rcases Nat.eq_zero_or_pos i with rfl | hpos
  · exact hbit
  · rw [decide_eq_false (Nat.ne_of_gt hpos)]
    exact hpadding i hpos (by simpa using hi)

/-- The noise count against its limit (R141). -/
theorem onNoise_eq_ite (s : State) :
    onNoise s = if s.cfg.noiseMax < (s.noise + 1#16).toNat then cycleEnded .noise { s with noise := s.noise + 1#16 }
      else { s with noise := s.noise + 1#16 } := rfl

/-- Settles O53: the count does not wrap, so it exceeds `NOISE_MAX` exactly from `NOISE_MAX` on. -/
theorem noiseIsCounted : Obligations.NoiseIsCounted := by
  intro s n hs hm hc
  have hcount := noise_succ hs hm
  have hexec : exec (.edge n) s = .next (onNoise s) := exec_edge hm (by simp only [onEdge, hc])
  rw [hexec, onNoise_eq_ite, hcount]
  exact ⟨fun hlt => by rw [if_neg (by omega)], fun heq => by rw [if_pos (by omega)]⟩

/-! ### What an edge leaves alone in M -/

/-- Every byte outside the receive buffer of the cycle reads as before. -/
def BufferFrame (s t : State) : Prop :=
  ∀ a, a < s.rxbase.toNat ∨ s.rxbase.toNat + s.cfg.rxCapBits / 8 ≤ a → memRead t a = memRead s a

/-- Writes into one buffer, one after the other. -/
theorem bufferFrame_trans {s t u : State} (hbase : t.rxbase = s.rxbase) (hcfg : t.cfg = s.cfg)
    (h1 : BufferFrame s t) (h2 : BufferFrame t u) : BufferFrame s u := by
  intro a ha
  rw [h2 a (by rwa [hbase, hcfg]), h1 a ha]

/-- The next raw bit of a running cycle has its byte in the receive buffer (R46). -/
theorem bufferFrame_storesRaw {s t : State} {bit : Bool} (hs : s.Inv) (hm : s.mode = .rx) (h : StoresRaw bit s t) :
    BufferFrame s t := by
  obtain ⟨-, -, -, -, houtside⟩ := h
  have hfull := hs.rxNotFull hm
  obtain ⟨hbytes, -, -⟩ := rxCapBits_of_valid hs.cfgValid
  exact fun a ha => houtside a (by omega)

/-- `PutRaw`, in and outside a cycle. -/
theorem bufferFrame_putRaw {s t : State} {bit : Bool} (hs : s.Inv) (h : putRaw bit s = .ok t) : BufferFrame s t := by
  rcases mode_idle_or_rx s with hm | hm
  · rw [putRaw_of_idle bit s hm] at h
    cases h
    exact fun _ _ => rfl
  · exact bufferFrame_storesRaw hs hm (storesRaw_putRaw hs hm h)

/-- `PutRaw` twice. -/
theorem bufferFrame_putRawTwo {s t : State} {bit1 bit2 : Bool} (hs : s.Inv) (h : putRawTwo bit1 bit2 s = .ok t) :
    BufferFrame s t := by
  simp only [putRawTwo] at h
  split at h
  · cases h
  · next u hu =>
    have hframe := receiveFrame_putRaw hu
    exact bufferFrame_trans hframe.rxbase hframe.cfg (bufferFrame_putRaw hs hu)
      (bufferFrame_putRaw (putRaw_inv hs hu) h)

/-- Class START writes into the same buffer from its first bit on (R137, R142). -/
theorem bufferFrame_onStart {s t : State} (hs : s.Inv) (h : onStart s = .ok t) : BufferFrame s t := by
  simp only [onStart] at h
  split at h
  case h_1 => cases h; exact fun _ _ => rfl
  all_goals exact (bufferFrame_putRaw (restartFrame_inv hs) h :)

/-- Class H3 (R140). -/
theorem bufferFrame_onH3 {s t : State} (hs : s.Inv) (h : onH3 s = .ok t) : BufferFrame s t := by
  simp only [onH3] at h
  split at h
  · cases h
  · next u hu =>
    cases h
    have hstore : BufferFrame s u := by
      split at hu
      · exact bufferFrame_putRaw hs hu
      · exact bufferFrame_putRawTwo hs hu
    exact hstore

/-- Class NOISE stores nothing (R141). -/
theorem bufferFrame_onNoise (s : State) : BufferFrame s (onNoise s) := by
  simp only [onNoise]
  split <;> exact fun _ _ => rfl

/-- An edge of a running cycle writes nothing outside the receive buffer, in every class (R46, R134). -/
theorem bufferFrame_onEdge {s t : State} {n : Word} (hs : s.Inv) (h : onEdge n s = .ok t) : BufferFrame s t := by
  cases hc : classify s.cfg s.rxsch n.toNat <;> simp only [onEdge, hc] at h
  case start => exact bufferFrame_onStart hs h
  case h4 => exact bufferFrame_putRawTwo hs h
  case h3 => exact bufferFrame_onH3 hs h
  case noise => cases h; exact bufferFrame_onNoise s
  all_goals exact bufferFrame_putRaw hs h

/-- Settles O57: outside the registers of the cycle by the frame of the decoder's work, in `M` class by class. -/
theorem edgeFrame : Obligations.EdgeFrame := by
  intro s t n hs hm h
  obtain ⟨u, hu⟩ := onEdge_total hs n
  rw [exec_edge hm hu] at h
  cases h
  have hframe := (receiveFrame_onEdge hu).outside
  simp only [outsideReceive, State.mk.injEq] at hframe
  obtain ⟨_, _, hdstb, hdsto, hsrcb, hsrco, hlen, hcrc, hfault, herr, hline, _, _, _, _, _, _, hrxsch, hrxbase, _,
    hinputs, _, htrace⟩ := hframe
  exact ⟨hdstb, hdsto, hsrcb, hsrco, hlen, hcrc, hfault, herr, hline, htrace, hrxsch, hrxbase, hinputs,
    bufferFrame_onEdge hs hu⟩

end Sys2Proof.Machine
end

section
/-! PROOFS. The round-trip law (44_decoder.md R146 to R148). The work is cut in three. The channel: a frame is known by
the gaps between its falling edges (`fallGaps`). The decoder: `GapsStore` says which raw bits a run of gaps stores, and
`captured_gaps` that a cycle of the model stores them. The codings: the gaps of a Manchester, AC or reverse-link frame
store its bits. `holdsCapture_loopback` joins the three, and the unpack commands give the payload back. -/

namespace Sys2Proof.Machine

open Sys2Proof.Claims

/-! ### The gaps between falling edges -/

/-- The times between the falling edges of a stretch of line, which is at the given level and fell last `elapsed` units
ago; the terminating LOW follows (R146). -/
def fallGaps : Level → Nat → List (Level × Nat) → List Nat
  | .high, elapsed, [] => [elapsed]
  | .low, _, [] => []
  | .high, elapsed, (.low, d) :: rest => elapsed :: fallGaps .low d rest
  | .high, elapsed, (.high, d) :: rest => fallGaps .high (elapsed + d) rest
  | .low, elapsed, (level, d) :: rest => fallGaps level (elapsed + d) rest

/-- The gaps are the intervals between the times of the falling edges. -/
theorem intervals_fallingEdges (segments : List (Level × Nat)) : ∀ (level : Level) (fall elapsed : Nat),
    intervals (fall :: fallingEdges level (fall + elapsed) segments) = fallGaps level elapsed segments := by
  induction segments with
  | nil =>
    intro level fall elapsed
    cases level with
    | low => rfl
    | high => simp [fallingEdges, intervals, fallGaps]
  | cons segment rest ih =>
    obtain ⟨next, d⟩ := segment
    intro level fall elapsed
    cases level with
    | low => simp only [fallingEdges, fallGaps, Nat.add_assoc, ih]
    | high =>
      cases next with
      | low => simp only [fallingEdges, intervals, fallGaps, Nat.add_sub_cancel_left, ih]
      | high => simp only [fallingEdges, fallGaps, Nat.add_assoc, ih]

/-- The channel's events: the first falling edge as `g`, the further gaps, `TIMEOUT` (R146). -/
theorem channel_eq {segments : List (Level × Nat)} {first : Nat} {gaps : List Nat}
    (h : fallGaps .low 0 segments = first :: gaps) (g : Word) :
    channel g segments = .edge g :: (gaps.map edgeEvent ++ [.timeout]) := by
  have hgaps := intervals_fallingEdges segments .low 0 0
  rw [h] at hgaps
  simp only [channel]
  cases hfalls : fallingEdges .low 0 segments with
  | nil => simp [hfalls, intervals] at hgaps
  | cons t1 rest =>
    simp only [Nat.add_zero, hfalls, intervals, List.cons.injEq] at hgaps
    change Instr.edge g :: ((intervals (t1 :: rest)).map edgeEvent ++ [.timeout]) = _
    rw [hgaps.2]

/-! ### The raw bits that a run of gaps stores -/

/-- In a cycle with the given `LAST` and `SKIP` an interval of the class stores these raw bits and leaves these values
of `LAST` and `SKIP` (R138 to R142). START and NOISE are no part of it. -/
inductive ClassStores : IntervalClass → Bool → Bool → List Bool → Bool → Bool → Prop
  | h2 (last skip : Bool) : ClassStores .h2 last skip [last] last skip
  | h3OfSkip (last : Bool) : ClassStores .h3 last true [false] false false
  | h3 (last : Bool) : ClassStores .h3 last false [false, true] true true
  | h4 (last skip : Bool) : ClassStores .h4 last skip [false, true] true skip
  | one (last skip : Bool) : ClassStores .one last skip [true] true skip
  | zero (last skip : Bool) : ClassStores .zero last skip [false] false skip

/-- A run of gaps, each of a class that stores, stores these raw bits one after the other. -/
inductive GapsStore (cls : Nat → IntervalClass) : Bool → Bool → List Nat → List Bool → Prop
  | nil (last skip : Bool) : GapsStore cls last skip [] []
  | cons {last skip last' skip' : Bool} {n : Nat} {c : IntervalClass} {bits raw : List Bool} {gaps : List Nat}
      (hclass : cls n = c) (hfirst : ClassStores c last skip bits last' skip')
      (hrest : GapsStore cls last' skip' gaps raw) : GapsStore cls last skip (n :: gaps) (bits ++ raw)

/-- The largest interval word is a start marker in every scheme (R67, R134). -/
theorem classify_of_largest {c : Config} (hfits : c.StartFits) (sch : Scheme) {n : Nat} (hn : 65535 ≤ n) :
    classify c sch n = .start := by
  obtain ⟨hac2k, hac4k, hmc4k, hmc8k, hrl⟩ := hfits
  cases sch <;> exact if_pos (by omega)

/-- Saturation does not change the class of an interval (R67, R134). -/
theorem classify_saturated {c : Config} (hfits : c.StartFits) (sch : Scheme) (n : Nat) :
    classify c sch (BitVec.ofNat 16 (min n 65535)).toNat = classify c sch n := by
  have hword : (BitVec.ofNat 16 (min n 65535)).toNat = min n 65535 := by
    rw [BitVec.toNat_ofNat]
    omega
  rw [hword]
  rcases Nat.le_total n 65535 with hle | hge
  · rw [Nat.min_eq_left hle]
  · rw [Nat.min_eq_right hge, classify_of_largest hfits sch le_rfl, classify_of_largest hfits sch hge]

/-! ### A cycle that captures -/

/-- In the cycle armed in `s` the block has come to `u` by capturing exactly these raw bits, without noise; the cycle
runs until they fill the buffer (R136, R143). -/
structure Captured (s : State) (bits : List Bool) (last skip : Bool) (u : State) : Prop where
  frame : ReceiveFrame s u
  inv : u.Inv
  noise : u.noise = 0#16
  length : u.rxlen.toNat = bits.length
  stored : ∀ i, i < bits.length → getBit u s.rxbase.toNat i = bits.getD i false
  last : u.last = last
  skip : u.skip = skip
  running : bits.length < s.cfg.rxCapBits → u.mode = .rx
  full : bits.length = s.cfg.rxCapBits → u.mode = .idle ∧ u.rxend = .full

/-- A cycle that has just been armed has captured nothing (R132). -/
theorem captured_startCycle {s : State} (hs : s.Inv) (hf : s.fault = false)
    (hin : s.dstb.toNat + s.cfg.rxCapBits / 8 ≤ s.cfg.memBytes) (sch : Scheme) :
    Captured (startCycle sch s) [] true true (startCycle sch s) where
  frame := ⟨rfl, List.prefix_rfl⟩
  inv := startCycle_inv hs hf hin sch
  noise := rfl
  length := rfl
  stored i hi := absurd hi (Nat.not_lt_zero i)
  last := rfl
  skip := rfl
  running _ := rfl
  full h := by
    obtain ⟨-, hpos, -⟩ := rxCapBits_of_valid hs.cfgValid
    simp only [List.length_nil, startCycle_cfg] at h
    omega

/-- `SKIP` set by hand (R140). -/
theorem captured_skip {s u : State} {bits : List Bool} {last skip : Bool} (h : Captured s bits last skip u) (b : Bool) :
    Captured s bits last b { u with skip := b } :=
  ⟨⟨h.frame.outside, h.frame.responses⟩, inv_skip h.inv b, h.noise, h.length, h.stored, h.last, rfl, h.running, h.full⟩

/-- Where a bit still fits, `PutRaw` captures it (R136, R143). -/
theorem captured_putRaw {s u : State} {bits : List Bool} {last skip : Bool} (h : Captured s bits last skip u)
    (hroom : bits.length < s.cfg.rxCapBits) (bit : Bool) :
    ∃ v, putRaw bit u = .ok v ∧ Captured s (bits ++ [bit]) bit skip v := by
  have hm := h.running hroom
  obtain ⟨v, hv, hwhole, hbit, hearlier, -, -⟩ := putRaw_stores h.inv hm bit
  obtain ⟨-, hlen⟩ := receive_place h.inv hm
  have hbase := h.frame.rxbase
  rw [h.length, h.frame.cfg] at hwhole
  rw [h.length, hbase] at hbit hearlier
  obtain ⟨hvlen, hvlast, hvskip, hvnoise⟩ :
      v.rxlen = u.rxlen + 1#16 ∧ v.last = bit ∧ v.skip = u.skip ∧ v.noise = u.noise := by
    rw [hwhole]
    split <;> exact ⟨rfl, rfl, rfl, rfl⟩
  refine ⟨v, hv, h.frame.trans (receiveFrame_putRaw hv), putRaw_inv h.inv hv, hvnoise.trans h.noise, ?length,
    fun i hi => ?stored, hvlast, hvskip.trans h.skip, fun hlt => ?running, fun heq => ?full⟩
  case length => rw [hvlen, hlen, h.length, List.length_append, List.length_singleton]
  case stored =>
    rw [List.length_append, List.length_singleton] at hi
    by_cases hold : i < bits.length
    · rw [hearlier i hold, h.stored i hold, List.getD_append _ _ _ _ hold]
    · obtain rfl : i = bits.length := by omega
      rw [hbit, List.getD_append_right _ _ _ _ le_rfl, Nat.sub_self, List.getD_cons_zero]
  case running =>
    rw [List.length_append, List.length_singleton] at hlt
    rw [hwhole, if_neg (by omega)]
    exact hm
  case full =>
    rw [List.length_append, List.length_singleton] at heq
    rw [hwhole, if_pos heq]
    exact ⟨rfl, rfl⟩

/-- Where two bits still fit, `PutRaw` twice captures both. -/
theorem captured_putRawTwo {s u : State} {bits : List Bool} {last skip : Bool} (h : Captured s bits last skip u)
    (hroom : bits.length + 1 < s.cfg.rxCapBits) (bit1 bit2 : Bool) :
    ∃ v, putRawTwo bit1 bit2 u = .ok v ∧ Captured s (bits ++ [bit1, bit2]) bit2 skip v := by
  obtain ⟨w, hw, hfirst⟩ := captured_putRaw h (by omega) bit1
  obtain ⟨v, hv, hsecond⟩ := captured_putRaw hfirst (by simpa using hroom) bit2
  rw [List.append_assoc] at hsecond
  exact ⟨v, by simp only [putRawTwo, hw, hv], hsecond⟩

/-- Where its raw bits still fit, an interval of a class that stores is captured (R138 to R142). -/
theorem captured_gap {s u : State} (hfits : s.cfg.StartFits) {bits new : List Bool}
    {last skip last' skip' : Bool} {n : Nat} (h : Captured s bits last skip u)
    (hg : ClassStores (classify s.cfg s.rxsch n) last skip new last' skip')
    (hroom : bits.length + new.length ≤ s.cfg.rxCapBits) :
    ∃ v, exec (edgeEvent n) u = .next v ∧ Captured s (bits ++ new) last' skip' v := by
  have hclass : classify u.cfg u.rxsch (BitVec.ofNat 16 (min n 65535)).toNat = classify s.cfg s.rxsch n := by
    rw [h.frame.cfg, h.frame.rxsch, classify_saturated hfits]
  have hlast := h.last
  have hskip := h.skip
  generalize classify s.cfg s.rxsch n = c at hg hclass
  cases hg <;> simp only [List.length_cons, List.length_nil] at hroom
  all_goals have hm := h.running (by omega)
  case h2 =>
    obtain ⟨v, hv, hcap⟩ := captured_putRaw h (by omega) last
    exact ⟨v, exec_edge_h2 hm hclass (hlast ▸ hv), hcap⟩
  case h3OfSkip =>
    obtain ⟨v, hv, hcap⟩ := captured_putRaw h (by omega) false
    exact ⟨_, exec_edge_h3_of_skip hm hclass hskip hv, captured_skip hcap false⟩
  case h3 =>
    obtain ⟨v, hv, hcap⟩ := captured_putRawTwo h (by omega) false true
    exact ⟨_, exec_edge_h3_of_not_skip hm hclass hskip hv, captured_skip hcap true⟩
  case h4 =>
    obtain ⟨v, hv, hcap⟩ := captured_putRawTwo h (by omega) false true
    exact ⟨v, exec_edge_h4 hm hclass hv, hcap⟩
  case one =>
    obtain ⟨v, hv, hcap⟩ := captured_putRaw h (by omega) true
    exact ⟨v, exec_edge_one hm hclass hv, hcap⟩
  case zero =>
    obtain ⟨v, hv, hcap⟩ := captured_putRaw h (by omega) false
    exact ⟨v, exec_edge_zero hm hclass hv, hcap⟩

/-- One instruction and then the rest. -/
theorem execAll_cons {i : Instr} {s t : State} (h : exec i s = .next t) (rest : List Instr) :
    execAll (i :: rest) s = execAll rest t := by
  simp only [execAll, h]

/-- Some instructions and then the rest. -/
theorem execAll_append (first rest : List Instr) : ∀ {s t : State}, execAll first s = .next t →
    execAll (first ++ rest) s = execAll rest t := by
  induction first with
  | nil =>
    intro s t h
    cases h
    rfl
  | cons i is ih =>
    intro s t h
    simp only [execAll] at h
    split at h
    · next u hu => exact (execAll_cons hu _).trans (ih h)
    all_goals cases h

/-- A run of gaps is captured whole where its raw bits fit the buffer. -/
theorem captured_gaps {s : State} (hfits : s.cfg.StartFits) {last skip : Bool} {gaps : List Nat} {raw : List Bool}
    (hg : GapsStore (classify s.cfg s.rxsch) last skip gaps raw) : ∀ {bits : List Bool} {u : State},
    Captured s bits last skip u → bits.length + raw.length ≤ s.cfg.rxCapBits →
    ∃ last' skip' v, execAll (gaps.map edgeEvent) u = .next v ∧ Captured s (bits ++ raw) last' skip' v := by
  induction hg with
  | nil last skip =>
    intro bits u h _
    exact ⟨last, skip, u, rfl, by rwa [List.append_nil]⟩
  | @cons _ _ _ _ n _ new raw gaps hclass hfirst _ ih =>
    intro bits u h hroom
    rw [List.length_append, ← Nat.add_assoc] at hroom
    obtain ⟨v, hv, hcap⟩ := captured_gap hfits h (hclass ▸ hfirst) (by omega)
    obtain ⟨last', skip', w, hw, hwhole⟩ := ih hcap (by rwa [List.length_append])
    rw [List.append_assoc] at hwhole
    exact ⟨last', skip', w, (execAll_cons hv _).trans hw, hwhole⟩

/-- What the start marker itself stores (R137, R142). -/
def startBits : Scheme → List Bool
  | .rl => []
  | .ac2k => [true]
  | .ac4k => [true]
  | .mc4k => [true]
  | .mc8k => [true]

/-- The start marker begins the capture of an armed cycle (R137, R142). -/
theorem captured_start {s : State} {sch : Scheme} (h : Captured (startCycle sch s) [] true true (startCycle sch s))
    {g : Word} (hg : classify s.cfg sch g.toNat = .start) :
    ∃ u, exec (.edge g) (startCycle sch s) = .next u ∧ Captured (startCycle sch s) (startBits sch) true true u := by
  obtain ⟨-, hpos, -⟩ := rxCapBits_of_valid h.inv.cfgValid
  obtain ⟨u, hu, hone⟩ := captured_putRaw h (Nat.lt_of_lt_of_le (by decide) hpos) true
  have hmarker : sch ≠ .rl → exec (.edge g) (startCycle sch s) = .next u :=
    fun hsch => exec_edge_start rfl hg hsch hu
  cases sch with
  | rl => exact ⟨_, exec_edge_start_of_rl rfl hg rfl, h⟩
  | _ => exact ⟨u, hmarker (by decide), hone⟩

/-- What a finished cycle leaves: a ready block whose receive buffer at `base` holds the raw bits, without noise, ended
by TIMEOUT or, where the bits fill the buffer, FULL (R143, R144, R145). -/
structure HoldsCapture (c : Config) (base : Word) (bits : List Bool) (u : State) : Prop where
  ready : Ready u
  cfg : u.cfg = c
  noise : u.noise = 0#16
  length : u.rxlen.toNat = bits.length
  rxend : u.rxend = if u.rxlen.toNat = c.rxCapBits then .full else .timeout
  stored : ∀ i, i < bits.length → getBit u base.toNat i = bits.getD i false

/-- The `TIMEOUT` at the end of a frame finishes the cycle, or is dropped where the buffer is full (R143, R144). -/
theorem holdsCapture_timeout {s u : State} {bits : List Bool} {last skip : Bool} (hf : s.fault = false)
    (h : Captured s bits last skip u) :
    ∃ v, exec .timeout u = .next v ∧ HoldsCapture s.cfg s.rxbase bits v := by
  have hfault : u.fault = false := (congrArg State.fault h.frame.outside :).trans hf
  have hbound := h.inv.rxlenBound
  rw [h.length, h.frame.cfg] at hbound
  rcases Nat.lt_or_eq_of_le hbound with hlt | heq
  · refine ⟨_, (timeoutEndsCycle u).1 (h.running hlt), ⟨rfl, hfault⟩, h.frame.cfg, h.noise, h.length, ?_, h.stored⟩
    have hne : u.rxlen.toNat ≠ s.cfg.rxCapBits := h.length ▸ Nat.ne_of_lt hlt
    exact (if_neg hne).symm
  · obtain ⟨hm, hend⟩ := h.full heq
    refine ⟨u, (timeoutEndsCycle u).2 hm, ⟨hm, hfault⟩, h.frame.cfg, h.noise, h.length, ?_, h.stored⟩
    rw [hend, h.length, if_pos heq]

/-- A cycle armed in a ready block captures the frame that the channel delivers (R132, R146). -/
theorem holdsCapture_channel {s : State} {code : BitVec 3} {sch : Scheme} (hs : s.Inv) (h : Ready s)
    (hfits : s.cfg.StartFits) (hsch : schemeOfCode code = some sch)
    (hin : s.dstb.toNat + s.cfg.rxCapBits / 8 ≤ s.cfg.memBytes) {g : Word}
    (hg : classify s.cfg sch g.toNat = .start) {segments : List (Level × Nat)} {first : Nat} {gaps : List Nat}
    (hgaps : fallGaps .low 0 segments = first :: gaps) {raw : List Bool}
    (hraw : GapsStore (classify s.cfg sch) true true gaps raw)
    (hroom : (startBits sch ++ raw).length ≤ s.cfg.rxCapBits) :
    ∃ u, execAll (.decArm code :: channel g segments) s = .next u ∧
      HoldsCapture s.cfg s.dstb (startBits sch ++ raw) u := by
  have harmed := captured_startCycle hs h.2 hin sch
  obtain ⟨u1, hstart, hcap1⟩ := captured_start harmed hg
  obtain ⟨last, skip, u2, hrun, hcap2⟩ := captured_gaps (s := startCycle sch s) hfits hraw hcap1
    (by rwa [List.length_append] at hroom)
  obtain ⟨u3, hend, hholds⟩ := holdsCapture_timeout (s := startCycle sch s) h.2 hcap2
  refine ⟨u3, ?_, hholds⟩
  calc execAll (.decArm code :: channel g segments) s
      = execAll (.edge g :: (gaps.map edgeEvent ++ [.timeout])) (startCycle sch s) := by
        rw [execAll_cons (exec_decArm h hsch hin), channel_eq hgaps]
    _ = execAll (gaps.map edgeEvent ++ [.timeout]) u1 := execAll_cons hstart _
    _ = execAll [.timeout] u2 := execAll_append _ _ hrun
    _ = .next u3 := execAll_cons hend []

/-! ### A frame sent and captured -/

/-- The segments among the entries of a trace. -/
theorem traceSegments_map (segments : List (Level × Nat)) (rest : List LineEvent) :
    traceSegments (segments.map asTrace ++ rest) = segments ++ traceSegments rest := by
  induction segments with
  | nil => rfl
  | cons segment segments ih => simp only [List.map_cons, List.cons_append, asTrace, traceSegments, ih]

/-- What a step that sends a frame added to the trace. -/
theorem newSegments_of_lineTrace {s t : State} {segments : List (Level × Nat)}
    (h : t.lineTrace = s.lineTrace ++ segments.map asTrace ++ [.rest]) : newSegments s t = segments := by
  rw [newSegments, h, List.append_assoc, List.drop_left, traceSegments_map]
  exact List.append_nil _

/-- The bits that a frame of `s` carries: its SOF and its payload (R110). -/
def frameBits (s : State) (sof : BitVec 3) : List Bool :=
  List.replicate sof.toNat true ++ getBits s s.srcb.toNat s.srco.toNat s.len.toNat

/-- `ENC.FRAME` puts the coded bits of the frame on the line and leaves a ready block in the invariant (R110). -/
theorem frame_sent {s : State} {code sof : BitVec 3} {sch : Scheme} (hs : s.Inv) (h : Ready s)
    (hsch : schemeOfCode code = some sch) (hsof : sofAllowed sch sof = true)
    (hsrc : 8 * s.srcb.toNat + s.srco.toNat + s.len.toNat ≤ 8 * s.cfg.memBytes) :
    ∃ t, exec (.encFrame code sof) s = .next t ∧ t.Inv ∧ Ready t ∧ t.cfg = s.cfg ∧
      newSegments s t = (frameBits s sof).flatMap (bitSegments s.cfg sch) ++ closingSegments s.cfg sch := by
  have hsent := exec_encFrame h hsch hsof (.inr hsrc)
  exact ⟨_, hsent, exec_inv hs hsent, h, rfl, newSegments_of_lineTrace rfl⟩

/-- `ENC.FRAME`, the channel and a receive cycle leave what the gaps of the frame store in the receive buffer (R110,
R132, R146). -/
theorem holdsCapture_loopback {s : State} {code sof : BitVec 3} {sch : Scheme} (hs : s.Inv) (h : Ready s)
    (hfits : s.cfg.StartFits) (hsch : schemeOfCode code = some sch) (hsof : sofAllowed sch sof = true)
    (hsrc : 8 * s.srcb.toNat + s.srco.toNat + s.len.toNat ≤ 8 * s.cfg.memBytes) {raw : Word}
    (hin : raw.toNat + s.cfg.rxCapBits / 8 ≤ s.cfg.memBytes) {g : Word}
    (hg : classify s.cfg sch g.toNat = .start) {first : Nat} {gaps : List Nat}
    (hgaps : fallGaps .low 0 ((frameBits s sof).flatMap (bitSegments s.cfg sch) ++ closingSegments s.cfg sch) =
      first :: gaps)
    {bits : List Bool} (hbits : GapsStore (classify s.cfg sch) true true gaps bits)
    (hroom : (startBits sch ++ bits).length ≤ s.cfg.rxCapBits) :
    ∃ t u, exec (.encFrame code sof) s = .next t ∧
      execAll (.decArm code :: channel g (newSegments s t)) { t with dstb := raw } = .next u ∧
      HoldsCapture s.cfg raw (startBits sch ++ bits) u := by
  obtain ⟨t, hsent, ht, hready, hcfg, hsegments⟩ := frame_sent hs h hsch hsof hsrc
  rw [← hsegments] at hgaps
  rw [← hcfg] at hfits hin hg hbits hroom ⊢
  obtain ⟨u, hu, hholds⟩ := holdsCapture_channel (s := { t with dstb := raw })
    (inv_operands ht raw t.dsto t.srcb t.srco t.len t.crc) hready hfits hsch hin hg hgaps hbits hroom
  exact ⟨t, u, hsent, hu, hholds⟩

/-! ### The codings -/

section
variable {t : HalfPeriodTiming} (ht : t.Valid) {n : Nat}
include ht

/-- Two half-periods are of class H2 (R6, R133). -/
theorem classifyHalfPeriods_two (hn : n = 2 * t.hp) : classifyHalfPeriods t n = .h2 := by
  rw [classifyHalfPeriods, if_neg (by omega), if_neg (by omega), if_neg (by omega), if_pos (by omega)]

/-- Three half-periods are of class H3 (R6, R133). -/
theorem classifyHalfPeriods_three (hn : n = 3 * t.hp) : classifyHalfPeriods t n = .h3 := by
  rw [classifyHalfPeriods, if_neg (by omega), if_neg (by omega), if_pos (by omega)]

/-- Four half-periods are of class H4 (R6, R133). -/
theorem classifyHalfPeriods_four (hn : n = 4 * t.hp) : classifyHalfPeriods t n = .h4 := by
  rw [classifyHalfPeriods, if_neg (by omega), if_pos (by omega)]

/-- Manchester (R113, R147). Between two bits the coder is in one of three places: behind a one, the line LOW since half
a bit, every bit stored; behind the first or a further zero after a one, the line HIGH, three or two half-periods after
the last falling edge, that zero not stored yet, `SKIP` set or clear. -/
theorem manchester_gapsStore (bits : List Bool) :
    GapsStore (classifyHalfPeriods t) true true (fallGaps .low t.hp (bits.flatMap (manchesterBit t.hp))) bits ∧
    GapsStore (classifyHalfPeriods t) true true (fallGaps .high (3 * t.hp) (bits.flatMap (manchesterBit t.hp)))
      (false :: bits) ∧
    GapsStore (classifyHalfPeriods t) false false (fallGaps .high (2 * t.hp) (bits.flatMap (manchesterBit t.hp)))
      (false :: bits) := by
  have htwo := fun {n} => classifyHalfPeriods_two ht (n := n)
  have hthree := fun {n} => classifyHalfPeriods_three ht (n := n)
  have hfour := fun {n} => classifyHalfPeriods_four ht (n := n)
  induction bits with
  | nil => exact ⟨.nil _ _, .cons (hthree rfl) (.h3OfSkip _) (.nil _ _), .cons (htwo rfl) (.h2 _ _) (.nil _ _)⟩
  | cons bit bits ih =>
    obtain ⟨hone, hzero, hzeros⟩ := ih
    have hlow : t.hp + t.hp = 2 * t.hp := by omega
    have hpending : 2 * t.hp + t.hp = 3 * t.hp := by omega
    cases bit with
    | true =>
      simp only [List.flatMap_cons, manchesterBit, List.cons_append, List.nil_append, fallGaps]
      exact ⟨.cons (htwo (by omega)) (.h2 _ _) hone, .cons (hfour (by omega)) (.h4 _ _) hone,
        .cons (hthree (by omega)) (.h3 _) hone⟩
    | false =>
      simp only [List.flatMap_cons, manchesterBit, List.cons_append, List.nil_append, fallGaps, hlow, hpending]
      exact ⟨hzero, .cons (hthree rfl) (.h3OfSkip _) hzeros, .cons (htwo rfl) (.h2 _ _) hzeros⟩

end

/-- The raw bits of an AC frame, `prev` being the bit before (R148): two for a bit, of which the second is the bit
itself. The second raw bit of a zero comes with the next bit, so that of a last zero is missing. -/
def acRaw : Bool → List Bool → List Bool
  | _, [] => []
  | true, true :: bits => true :: true :: acRaw true bits
  | true, false :: bits => false :: acRaw false bits
  | false, true :: bits => false :: true :: true :: acRaw true bits
  | false, false :: bits => false :: true :: acRaw false bits

/-- AC (R114, R148). Between two bits the coder is behind a one, one half-period after the last falling edge, or behind
a zero, two half-periods after it and with `SKIP` clear. -/
theorem ac_gapsStore {t : HalfPeriodTiming} (ht : t.Valid) (bits : List Bool) :
    GapsStore (classifyHalfPeriods t) true true (fallGaps .low t.hp (bits.flatMap (acBit t.hp))) (acRaw true bits) ∧
    ∀ last, GapsStore (classifyHalfPeriods t) last false (fallGaps .low (2 * t.hp) (bits.flatMap (acBit t.hp)))
      (acRaw false bits) := by
  have htwo := fun {n} => classifyHalfPeriods_two ht (n := n)
  have hthree := fun {n} => classifyHalfPeriods_three ht (n := n)
  have hfour := fun {n} => classifyHalfPeriods_four ht (n := n)
  induction bits with
  | nil => exact ⟨.nil _ _, fun last => .nil _ _⟩
  | cons bit bits ih =>
    obtain ⟨hone, hzero⟩ := ih
    cases bit with
    | true =>
      simp only [List.flatMap_cons, acBit, List.cons_append, List.nil_append, fallGaps, acRaw]
      have hsecond := GapsStore.cons (n := t.hp + t.hp) (htwo (by omega)) (.h2 true true) hone
      exact ⟨.cons (htwo (by omega)) (.h2 _ _) hsecond, fun last => .cons (hthree (by omega)) (.h3 _) hsecond⟩
    | false =>
      simp only [List.flatMap_cons, acBit, List.cons_append, List.nil_append, fallGaps, acRaw]
      exact ⟨.cons (hthree (by omega)) (.h3OfSkip _) (hzero false),
        fun last => .cons (hfour (by omega)) (.h4 _ _) (hzero true)⟩

/-- How many raw bits an AC frame has: one is missing behind a last zero (R148). -/
theorem acRaw_length (bits : List Bool) : ∀ prev,
    (acRaw prev bits).length + (!bits.getLastD prev).toNat = 2 * bits.length + (!prev).toNat := by
  induction bits with
  | nil => intro prev; simp [acRaw]
  | cons bit bits ih =>
    intro prev
    have h := ih bit
    rw [List.getLastD_cons, List.length_cons]
    cases prev <;> cases bit <;> simp only [acRaw, List.length_cons, Bool.not_true, Bool.not_false, Bool.toNat_true,
      Bool.toNat_false] at h ⊢ <;> omega

/-- Behind a zero the next raw bit is the zero's second (R148). -/
theorem acRaw_false_getD_zero (bits : List Bool) : (acRaw false bits).getD 0 false = false := by
  cases bits with
  | nil => rfl
  | cons bit bits => cases bit <;> rfl

/-- Every second raw bit of an AC frame is a bit of the frame, a missing one counted as 0 (R148). -/
theorem acRaw_getD (bits : List Bool) : ∀ prev j,
    (acRaw prev bits).getD (2 * j + 1 + (!prev).toNat) false = bits.getD j false := by
  induction bits with
  | nil => intro prev j; simp [acRaw]
  | cons bit bits ih =>
    intro prev j
    have hhead := acRaw_false_getD_zero bits
    cases j with
    | zero =>
      cases bit with
      | true => cases prev <;> rfl
      | false => cases prev <;> exact hhead
    | succ j =>
      have h := ih bit j
      cases prev <;> cases bit <;> simpa [acRaw, Nat.mul_add, Nat.add_right_comm] using h

/-- The reverse link (R115, R142): each gap is the window of the bit before, and the closing pulse ends the last. -/
theorem reverse_gapsStore {t : ReverseTiming} (ht : t.Valid) (bits : List Bool) : ∀ (last : Bool) (elapsed : Nat),
    ∃ gaps, fallGaps .low elapsed (bits.flatMap (reverseBit t) ++ [(.high, t.tLow)]) = (elapsed + t.tLow) :: gaps ∧
      GapsStore (classifyReverse t) last true gaps bits := by
  induction bits with
  | nil => exact fun last elapsed => ⟨[], rfl, .nil _ _⟩
  | cons bit bits ih =>
    intro last elapsed
    cases bit with
    | true =>
      obtain ⟨gaps, hgaps, hstore⟩ := ih true (t.w1 - t.tLow)
      have hclass : classifyReverse t (t.w1 - t.tLow + t.tLow) = .one := by
        rw [classifyReverse, if_neg (by omega), if_pos (by omega)]
      refine ⟨_, ?_, .cons hclass (.one _ _) hstore⟩
      simp only [List.flatMap_cons, reverseBit, List.cons_append, List.nil_append, fallGaps, hgaps]
    | false =>
      obtain ⟨gaps, hgaps, hstore⟩ := ih false (t.w0 - t.tLow)
      have hclass : classifyReverse t (t.w0 - t.tLow + t.tLow) = .zero := by
        rw [classifyReverse, if_neg (by omega), if_neg (by omega), if_pos (by omega)]
      refine ⟨_, ?_, .cons hclass (.zero _ _) hstore⟩
      simp only [List.flatMap_cons, reverseBit, List.cons_append, List.nil_append, fallGaps, hgaps]

/-! ### The frames of the document's four schemes -/

/-- The timings of a valid configuration are valid (R6). -/
theorem valid_of_thresholds {c : Config} (hc : c.Valid) {sch : Scheme} {tm : HalfPeriodTiming}
    (h : thresholds c sch = some tm) : tm.Valid := by
  obtain ⟨-, -, -, hac2k, hac4k, hmc4k, hmc8k, -⟩ := hc
  cases sch <;> cases h <;> assumption

/-- A scheme with half-period thresholds is not the reverse link (R6). -/
theorem ne_rl_of_thresholds {c : Config} {sch : Scheme} {tm : HalfPeriodTiming} (h : thresholds c sch = some tm) :
    sch ≠ .rl := by
  rintro rfl
  cases h

/-- The start marker of the document's four schemes stores a 1 (R137). -/
theorem startBits_of_ne_rl {sch : Scheme} (h : sch ≠ .rl) : startBits sch = [true] := by
  cases sch with
  | rl => exact absurd rfl h
  | _ => rfl

/-- A frame with an SOF begins with a one (R110). -/
theorem frameBits_eq_cons (s : State) {sof : BitVec 3} (hsof : sof ∈ [1#3, 3#3, 6#3]) :
    ∃ rest, frameBits s sof = true :: rest := by
  have hpos : ∀ x ∈ [1#3, 3#3, 6#3], x.toNat = x.toNat - 1 + 1 := by decide
  rw [frameBits, hpos sof hsof, List.replicate_succ]
  exact ⟨_, rfl⟩

/-- The SOF and the payload count (R110). -/
theorem frameBits_length (s : State) (sof : BitVec 3) : (frameBits s sof).length = sof.toNat + s.len.toNat := by
  rw [frameBits, List.length_append, List.length_replicate, getBits_length]

/-- Behind the SOF stand the bits of the payload (R110). -/
theorem frameBits_getD (s : State) (sof : BitVec 3) {i : Nat} (hi : i < s.len.toNat) :
    (frameBits s sof).getD (sof.toNat + i) false = getBit s s.srcb.toNat (s.srco.toNat + i) := by
  have hreplicate : (List.replicate sof.toNat true).length = sof.toNat := List.length_replicate
  rw [frameBits, List.getD_append_right _ _ _ _ (by omega), hreplicate, Nat.add_sub_cancel_left,
    getBits_getD s _ _ hi]

/-- The last bit of a frame is the last bit of its payload, if it has one, else a one of the SOF (R110). -/
theorem frameBits_getLastD (s : State) (sof : BitVec 3) :
    (frameBits s sof).getLastD true =
      if s.len.toNat = 0 then true else getBit s s.srcb.toNat (s.srco.toNat + s.len.toNat - 1) := by
  by_cases hlen : s.len.toNat = 0
  · rw [if_pos hlen, frameBits, hlen]
    cases sof.toNat <;> simp [getBits, List.getLast?_replicate]
  · have hlast : (getBits s s.srcb.toNat s.srco.toNat s.len.toNat).getLast? =
        some (getBit s s.srcb.toNat (s.srco.toNat + s.len.toNat - 1)) := by
      rw [List.getLast?_eq_getElem?, getBits_length, getBits_getElem? s _ _ _ _ (by omega)]
      congr 2
      omega
    rw [if_neg hlen, frameBits, List.getLastD_eq_getLast?, List.getLast?_append, hlast]
    rfl

section
variable {s : State} {code sof : BitVec 3} {sch : Scheme} {tm : HalfPeriodTiming} {g raw : Word} (hs : s.Inv)
  (h : Ready s) (hfits : s.cfg.StartFits) (hsch : schemeOfCode code = some sch) (htm : thresholds s.cfg sch = some tm)
  (hsof : sof ∈ [1#3, 3#3, 6#3]) (hg : tm.ts ≤ g.toNat)
  (hsrc : 8 * s.srcb.toNat + s.srco.toNat + s.len.toNat ≤ 8 * s.cfg.memBytes)
  (hin : raw.toNat + s.cfg.rxCapBits / 8 ≤ s.cfg.memBytes)
include hs h hfits hsch htm hsof hg hsrc hin

/-- A frame of the document's four schemes comes back as the marker's 1 and what its gaps store. -/
theorem holdsCapture_of_thresholds {first : Nat} {gaps : List Nat}
    (hgaps : fallGaps .low 0 ((frameBits s sof).flatMap (bitSegments s.cfg sch)) = first :: gaps) {bits : List Bool}
    (hbits : GapsStore (classifyHalfPeriods tm) true true gaps bits)
    (hroom : (true :: bits).length ≤ s.cfg.rxCapBits) :
    ∃ t u, exec (.encFrame code sof) s = .next t ∧
      execAll (.decArm code :: channel g (newSegments s t)) { t with dstb := raw } = .next u ∧
      HoldsCapture s.cfg raw (true :: bits) u := by
  have hne := ne_rl_of_thresholds htm
  have hclassify : classify s.cfg sch = classifyHalfPeriods tm := funext (classify_of_thresholds htm)
  have hstart : startBits sch ++ bits = true :: bits := by rw [startBits_of_ne_rl hne]; rfl
  rw [← hclassify] at hbits
  rw [← hstart] at hroom ⊢
  refine holdsCapture_loopback (first := first) hs h hfits hsch (sofAllowed_of_ne_rl hne hsof) hsrc hin ?_ ?_
    hbits hroom
  · rw [hclassify]
    exact if_pos hg
  · rw [closingSegments_of_ne_rl _ hne, List.append_nil]
    exact hgaps

/-- A Manchester frame comes back bit for bit (R147). -/
theorem holdsCapture_manchester (hcode : bitSegments s.cfg sch = manchesterBit tm.hp)
    (hroom : sof.toNat + s.len.toNat ≤ s.cfg.rxCapBits) :
    ∃ t u, exec (.encFrame code sof) s = .next t ∧
      execAll (.decArm code :: channel g (newSegments s t)) { t with dstb := raw } = .next u ∧
      HoldsCapture s.cfg raw (frameBits s sof) u := by
  obtain ⟨rest, hrest⟩ := frameBits_eq_cons s hsof
  obtain ⟨hstore, -⟩ := manchester_gapsStore (valid_of_thresholds hs.cfgValid htm) rest
  rw [← frameBits_length, hrest] at hroom
  rw [hrest]
  refine holdsCapture_of_thresholds (first := 0 + tm.hp) hs h hfits hsch htm hsof hg hsrc hin ?_ hstore hroom
  rw [hrest, hcode]
  rfl

/-- An AC frame comes back as the raw bits of R148. -/
theorem holdsCapture_ac (hcode : bitSegments s.cfg sch = acBit tm.hp)
    (hroom : 2 * sof.toNat + 2 * s.len.toNat ≤ s.cfg.rxCapBits) :
    ∃ t u, exec (.encFrame code sof) s = .next t ∧
      execAll (.decArm code :: channel g (newSegments s t)) { t with dstb := raw } = .next u ∧
      HoldsCapture s.cfg raw (acRaw true (frameBits s sof)) u := by
  obtain ⟨rest, hrest⟩ := frameBits_eq_cons s hsof
  have ht := valid_of_thresholds hs.cfgValid htm
  obtain ⟨hstore, -⟩ := ac_gapsStore ht rest
  have hlen := acRaw_length (frameBits s sof) true
  rw [frameBits_length, Bool.not_true, Bool.toNat_false] at hlen
  have hroom : (acRaw true (frameBits s sof)).length ≤ s.cfg.rxCapBits := by omega
  rw [hrest] at hroom ⊢
  refine holdsCapture_of_thresholds (first := 0 + tm.hp) hs h hfits hsch htm hsof hg hsrc hin ?_
    (.cons (n := tm.hp + tm.hp) (classifyHalfPeriods_two ht (by omega)) (.h2 true true) hstore) hroom
  rw [hrest, hcode]
  rfl

end

/-! ### The unpack step -/

/-- The receive buffer and the field buffer of the statements lie apart, so no span in the one meets a span in the
other. -/
theorem spansDisjoint_of_apart {raw fb cap off n m : Nat} (hcap : cap % 8 = 0) (hroom : off + n ≤ cap)
    (h : fb + (m + 7) / 8 ≤ raw ∨ raw + cap / 8 ≤ fb) : SpansDisjoint raw off n fb 0 m := by
  rintro x ⟨hn, hfirst, hlast⟩ ⟨hm, hfirst', hlast'⟩
  omega

/-- The state in which the host asks for the unpack step: operand registers written, all else as the cycle left it. -/
def unpacking (u : State) (fb raw off len : Word) : State :=
  { u with dstb := fb, dsto := 0#16, srcb := raw, srco := off, len := len }

section
variable {c : Config} {raw fb : Word} {bits : List Bool} {u : State} (hv : c.Valid) (hu : HoldsCapture c raw bits u)
  (hin : raw.toNat + c.rxCapBits / 8 ≤ c.memBytes) (hcap : bits.length ≤ c.rxCapBits)
include hv hu hin hcap

/-- `BFB.APPEND` past a header takes the rest of the capture (R105). -/
theorem bfbAppend_unpacks {off len : Word} (hlen : off.toNat + len.toNat = bits.length)
    (hfb : 8 * fb.toNat + len.toNat ≤ 8 * c.memBytes)
    (hapart : fb.toNat + (len.toNat + 7) / 8 ≤ raw.toNat ∨ raw.toNat + c.rxCapBits / 8 ≤ fb.toNat) :
    ∃ w, exec .bfbAppend (unpacking u fb raw off len) = .next w ∧ w.dsto = len ∧
      ∀ i, i < len.toNat → getBit w fb.toNat i = bits.getD (off.toNat + i) false := by
  obtain ⟨hready, rfl, -, -, -, hstored⟩ := hu
  obtain ⟨hbytes, -, -⟩ := rxCapBits_of_valid hv
  rcases Nat.eq_zero_or_pos len.toNat with hzero | hpos
  · have hc : checkOf (unpacking u fb raw off len) .bfbAppend = none := if_pos hzero
    exact ⟨_, (exec_of_ready (s := unpacking u fb raw off len) hready rfl hc).trans (congrArg _ (if_pos hzero)),
      BitVec.eq_of_toNat_eq hzero.symm, fun i hi => by omega⟩
  · have hpasses : AppendPasses (unpacking u fb raw off len) raw.toNat off.toNat len.toNat fb.toNat 0 :=
      ⟨hready, hv, rfl, rfl, rfl, rfl, rfl, hpos, by simp only [unpacking]; omega, hfb,
        spansDisjoint_of_apart hbytes (by omega) hapart⟩
    obtain ⟨w, hw, -, hdsto, hbits⟩ := exec_bfbAppend hpasses
    refine ⟨w, hw, BitVec.eq_of_toNat_eq (by omega), fun i hi => ?_⟩
    calc getBit w fb.toNat i = getBit w fb.toNat (0 + i) := by rw [Nat.zero_add]
      _ = getBit u raw.toNat (off.toNat + i) := getBit_of_bitsWritten_getBits hbits hi
      _ = bits.getD (off.toNat + i) false := hstored _ (by omega)

/-- `BFB.ACX` takes every second bit of the capture past a header, a missing last one as 0 (R104, R105). -/
theorem bfbAcx_unpacks {skip : Word} {count : Nat}
    (hcount : (if bits.length < skip.toNat then 0 else acxCount skip.toNat bits.length) = count)
    (hfb : 8 * fb.toNat + count ≤ 8 * c.memBytes)
    (hapart : fb.toNat + (count + 7) / 8 ≤ raw.toNat ∨ raw.toNat + c.rxCapBits / 8 ≤ fb.toNat) :
    ∃ w, exec .bfbAcx (unpacking u fb raw skip u.rxlen) = .next w ∧ w.dsto.toNat = count ∧
      ∀ i, i < count → getBit w fb.toNat i = bits.getD (skip.toNat + 2 * i) false := by
  obtain ⟨hready, rfl, -, hlen, -, hstored⟩ := hu
  obtain ⟨hbytes, -, -⟩ := rxCapBits_of_valid hv
  rw [← hlen] at hcount
  by_cases hempty : u.rxlen.toNat < skip.toNat
  · rw [if_pos hempty] at hcount
    have hc : checkOf (unpacking u fb raw skip u.rxlen) .bfbAcx = none := if_pos hempty
    exact ⟨_, (exec_of_ready (s := unpacking u fb raw skip u.rxlen) hready rfl hc).trans (congrArg _ (if_pos hempty)),
      hcount, fun i hi => by omega⟩
  · rw [if_neg hempty] at hcount
    subst hcount
    obtain ⟨w, out, hw, -, hdsto, houtlen, htaken, hfix, hwritten, -⟩ :=
      acxExtractsBits (unpacking u fb raw skip u.rxlen) hready hv (Nat.le_of_not_lt hempty)
        (by simp only [unpacking]; omega) hfb
        (spansDisjoint_of_apart (n := u.rxlen.toNat) hbytes (by omega) hapart)
    refine ⟨w, hw, hdsto.trans (Nat.zero_add _), fun i hi => ?_⟩
    have hout : i < out.length := houtlen.symm ▸ hi
    calc getBit w fb.toNat i = getBit w fb.toNat (0 + i) := by rw [Nat.zero_add]
      _ = out.getD i false := hwritten i hout
      _ = out.getD i true := by rw [List.getD_eq_getElem _ _ hout, List.getD_eq_getElem _ _ hout]
      _ = bits.getD (skip.toNat + 2 * i) false := by
        by_cases hin : skip.toNat + 2 * i < u.rxlen.toNat
        · exact (htaken i hin).trans (hstored _ (hlen ▸ hin))
        · rw [List.getD_eq_default bits _ (by omega)]
          exact hfix i hout (Nat.le_of_not_lt hin)

end

/-! ### The round trips -/

/-- The codes and the bit patterns of the Manchester schemes (R65, R113). -/
theorem manchester_scheme {c : Config} {code : BitVec 3} {sch : Scheme} {tm : HalfPeriodTiming}
    (hcode : (code, sch) ∈ [(2#3, Scheme.mc4k), (3#3, Scheme.mc8k)]) (htm : thresholds c sch = some tm) :
    schemeOfCode code = some sch ∧ bitSegments c sch = manchesterBit tm.hp := by
  simp only [List.mem_cons, Prod.mk.injEq, List.not_mem_nil, or_false] at hcode
  rcases hcode with ⟨rfl, rfl⟩ | ⟨rfl, rfl⟩ <;> cases htm <;> exact ⟨rfl, rfl⟩

/-- The codes and the bit patterns of the AC schemes (R65, R114). -/
theorem ac_scheme {c : Config} {code : BitVec 3} {sch : Scheme} {tm : HalfPeriodTiming}
    (hcode : (code, sch) ∈ [(0#3, Scheme.ac2k), (1#3, Scheme.ac4k)]) (htm : thresholds c sch = some tm) :
    schemeOfCode code = some sch ∧ bitSegments c sch = acBit tm.hp := by
  simp only [List.mem_cons, Prod.mk.injEq, List.not_mem_nil, or_false] at hcode
  rcases hcode with ⟨rfl, rfl⟩ | ⟨rfl, rfl⟩ <;> cases htm <;> exact ⟨rfl, rfl⟩

/-- Settles O58: the capture is the frame, and the append past its SOF takes the payload. -/
theorem manchesterRoundTrip : Obligations.ManchesterRoundTrip := by
  intro s code sof sch tm g raw fb hs h hfits hcode htm hsof hg hsrc hroom hin hfb hapart
  obtain ⟨hsch, hbits⟩ := manchester_scheme hcode htm
  have hlen := frameBits_length s sof
  obtain ⟨t, u, ht, hu, hholds⟩ := holdsCapture_manchester hs h hfits hsch htm hsof hg hsrc hin hbits hroom
  have hoff : (sof.setWidth 16).toNat = sof.toNat := by
    rw [BitVec.toNat_setWidth]
    omega
  obtain ⟨w, hw, hdsto, hpayload⟩ := bfbAppend_unpacks hs.cfgValid hholds hin (by omega)
    (off := sof.setWidth 16) (len := s.len) (by omega) hfb hapart
  rw [hoff] at hpayload
  exact ⟨t, u, w, ht, hu, hholds.noise, hholds.length.trans hlen, hholds.rxend, hw, hdsto,
    fun i hi => (hpayload i hi).trans (frameBits_getD s sof hi)⟩

/-- How many raw bits the AC frame of `s` has: two for each bit, less one behind a payload that ends in 0 (R148). -/
theorem acRaw_frameBits_length (s : State) (sof : BitVec 3) :
    (s.len.toNat = 0 ∨ getBit s s.srcb.toNat (s.srco.toNat + s.len.toNat - 1) = true →
      (acRaw true (frameBits s sof)).length = 2 * sof.toNat + 2 * s.len.toNat) ∧
    (0 < s.len.toNat → getBit s s.srcb.toNat (s.srco.toNat + s.len.toNat - 1) = false →
      (acRaw true (frameBits s sof)).length + 1 = 2 * sof.toNat + 2 * s.len.toNat) := by
  have hlen := acRaw_length (frameBits s sof) true
  rw [frameBits_length, frameBits_getLastD, Bool.not_true, Bool.toNat_false] at hlen
  constructor
  · intro hlast
    have hone : (if s.len.toNat = 0 then true
        else getBit s s.srcb.toNat (s.srco.toNat + s.len.toNat - 1)) = true := by simpa using hlast
    rw [hone, Bool.not_true, Bool.toNat_false] at hlen
    omega
  · intro hpos hlast
    rw [if_neg (Nat.ne_of_gt hpos), hlast, Bool.not_false, Bool.toNat_true] at hlen
    omega

/-- `BFB.ACX` past the header of an AC frame writes one bit for each bit of the payload (R104, R148). -/
theorem acxCount_of_frame {sof len n : Nat} (h : n = 2 * sof + 2 * len ∨ (0 < len ∧ n + 1 = 2 * sof + 2 * len)) :
    (if n < 2 * sof + 1 then 0 else acxCount (2 * sof + 1) n) = len := by
  rw [acxCount]
  split_ifs <;> omega

/-- Settles O59: every second raw bit of the frame is a bit of it, and `BFB.ACX` takes those past the SOF. -/
theorem acRoundTrip : Obligations.AcRoundTrip := by
  intro s code sof sch tm g raw fb hs h hfits hcode htm hsof hg hsrc hroom hin hfb hapart
  obtain ⟨hsch, hbits⟩ := ac_scheme hcode htm
  obtain ⟨t, u, ht, hu, hholds⟩ := holdsCapture_ac hs h hfits hsch htm hsof hg hsrc hin hbits hroom
  obtain ⟨hone, hzero⟩ := acRaw_frameBits_length s sof
  have hlen : (acRaw true (frameBits s sof)).length = 2 * sof.toNat + 2 * s.len.toNat ∨
      (0 < s.len.toNat ∧ (acRaw true (frameBits s sof)).length + 1 = 2 * sof.toNat + 2 * s.len.toNat) := by
    rcases Nat.eq_zero_or_pos s.len.toNat with hempty | hpos
    · exact .inl (hone (.inl hempty))
    · cases hlast : getBit s s.srcb.toNat (s.srco.toNat + s.len.toNat - 1) with
      | true => exact .inl (hone (.inr hlast))
      | false => exact .inr ⟨hpos, hzero hpos hlast⟩
  have hskip : (BitVec.ofNat 16 (2 * sof.toNat + 1)).toNat = 2 * sof.toNat + 1 := by
    rw [BitVec.toNat_ofNat]
    omega
  have hcount := acxCount_of_frame hlen
  rw [← hskip] at hcount
  obtain ⟨w, hw, hdsto, hpayload⟩ := bfbAcx_unpacks hs.cfgValid hholds hin (by omega) hcount hfb hapart
  refine ⟨t, u, w, ht, hu, hholds.noise, hholds.length.symm ▸ hone, hholds.length.symm ▸ hzero, hholds.rxend, hw,
    BitVec.eq_of_toNat_eq hdsto, fun i hi => ?_⟩
  have hplace : 2 * sof.toNat + 1 + 2 * i = 2 * (sof.toNat + i) + 1 + (!true).toNat := by
    rw [Bool.not_true, Bool.toNat_false]
    omega
  rw [hpayload i hi, hskip, hplace, acRaw_getD, frameBits_getD s sof hi]

/-- Settles O60: the marker stores nothing and each gap stores the bit whose window it spans. -/
theorem reverseLinkRoundTrip : Obligations.ReverseLinkRoundTrip := by
  intro s g raw hs h hfits hg hsrc hroom hin
  obtain ⟨-, -, -, -, -, -, -, hrl⟩ := hs.cfgValid
  have hlen := frameBits_length s 0#3
  rw [BitVec.toNat_zero, Nat.zero_add] at hlen
  obtain ⟨gaps, hgaps, hstore⟩ := reverse_gapsStore hrl (frameBits s 0#3) true 0
  obtain ⟨t, u, ht, hu, hholds⟩ := holdsCapture_loopback (code := 4#3) (sof := 0#3) hs h hfits rfl rfl hsrc hin
    (if_pos hg) hgaps hstore (hlen.trans_le hroom)
  refine ⟨t, u, ht, hu, hholds.noise, BitVec.eq_of_toNat_eq (hholds.length.trans hlen), hholds.rxend, fun i hi => ?_⟩
  have hstored := hholds.stored i (hi.trans_eq hlen.symm)
  have hpayload := frameBits_getD s 0#3 hi
  rw [BitVec.toNat_zero, Nat.zero_add] at hpayload
  exact hstored.trans hpayload

end Sys2Proof.Machine
end

section
/-! PROOFS. The statements about the fault state (60_exceptions.md): which steps enter it, keep it and leave it, what a
faulted block still does, when the register checks and the empty cases decide, and that no step stops. First what an
instruction and a step can do to `FAULT` and `ERR`, said once; the statements rest on it. -/

namespace Sys2Proof.Machine

open Sys2Proof.Claims

/-! ### What an instruction does to FAULT and ERR -/

/-- `FAULT` and `ERR` are as they were. -/
structure FaultStateKept (s t : State) : Prop where
  fault : t.fault = s.fault
  err : t.err = s.err

/-- Of the commands past their checks only `RESET` writes the fault state (R171). -/
theorem faultStateKept_effectOf {i : Instr} {s : State} (hc : checkOf s i = none) (hreset : i ≠ .reset) :
    FaultStateKept s (effectOf i s) := by
  cases i with
  | setr reg v =>
    obtain ⟨r, hr, _⟩ := reg_of_checkWrite hc
    rw [effectOf_setr hr, writeReg_eq]
    exact ⟨rfl, rfl⟩
  | getr reg =>
    obtain ⟨r, hr⟩ := reg_of_checkRead hc
    rw [effectOf_getr hr]
    exact ⟨rfl, rfl⟩
  | reset => exact absurd rfl hreset
  | bfbAppend =>
    obtain ⟨_, _, h⟩ := effectOf_append_eq (.inl rfl) s
    rw [h]
    exact ⟨rfl, rfl⟩
  | bfbAcx =>
    obtain ⟨_, _, h⟩ := effectOf_append_eq (.inr rfl) s
    rw [h]
    exact ⟨rfl, rfl⟩
  | encFrame scheme sof =>
    obtain ⟨sch, hsch, _⟩ := scheme_of_checkFrame hc
    rw [effectOf_encFrame hsch]
    exact ⟨rfl, rfl⟩
  | decArm scheme =>
    obtain ⟨sch, hsch, _⟩ := scheme_of_checkArm hc
    rw [effectOf_decArm hsch]
    exact ⟨rfl, rfl⟩
  | _ => exact ⟨rfl, rfl⟩

/-- No effect sets `FAULT`: what a command does past its checks is no fault entry (R168 step 9, R169). -/
theorem effectOf_faultFree {i : Instr} {s : State} (hf : s.fault = false) (hc : checkOf s i = none) :
    (effectOf i s).fault = false := by
  by_cases hreset : i = .reset
  · subst hreset
    rfl
  · exact (faultStateKept_effectOf hc hreset).fault.trans hf

/-- The decoder raises no fault and clears none (R134). -/
theorem ReceiveFrame.faultStateKept {s t : State} (h : ReceiveFrame s t) : FaultStateKept s t :=
  ⟨(congrArg State.fault h.outside :), (congrArg State.err h.outside :)⟩

/-- A raised fault is the entry in a block without fault and keeps the fault state of a faulted one (R169, R170). -/
theorem raiseFault_faultState (code : FaultCode) (s : State) :
    (s.fault = false ∧ raiseFault code s = faulted code s) ∨ FaultStateKept s (raiseFault code s) := by
  cases hf : s.fault with
  | false => exact .inl ⟨rfl, raiseFault_of_faultFree code s hf⟩
  | true =>
    rw [raiseFault_of_faulted code s hf]
    exact .inr ⟨rfl, rfl⟩

/-- Everything an instruction can do to the fault state: keep it, enter it, or, by `RESET`, leave it. -/
theorem exec_faultState {i : Instr} {s t : State} (h : exec i s = .next t) :
    FaultStateKept s t ∨ (s.mode = .idle ∧ s.fault = false ∧ ∃ code, t = faulted code s) ∨
      (i = .reset ∧ t.fault = false) := by
  rcases exec_cases h with rfl | ⟨hm, _, code, _, rfl⟩ | ⟨_, _, _, _, _, rfl⟩ | ⟨_, _, hc, _, rfl⟩ | ⟨_, _, rfl⟩ |
    ⟨_, n, _, hn⟩
  · exact .inl ⟨rfl, rfl⟩
  · rcases raiseFault_faultState code s with ⟨hf, hentry⟩ | hkept
    · exact .inr (.inl ⟨hm, hf, code, hentry⟩)
    · exact .inl hkept
  · exact .inl ⟨rfl, rfl⟩
  · by_cases hreset : i = .reset
    · subst hreset
      exact .inr (.inr ⟨rfl, rfl⟩)
    · exact .inl (faultStateKept_effectOf hc hreset)
  · exact .inl ⟨rfl, rfl⟩
  · exact .inl (receiveFrame_onEdge hn).faultStateKept

/-! ### What a step does to FAULT and ERR -/

/-- One word of the two ports stands for `RESET` (R85). -/
theorem resetWord_of_decode {w : PortWord} (h : decode w = .ok .reset) : w = .command 0x0F000000#32 := by
  cases w with
  | command c => exact (encode_of_decodeCommand h).symm
  | event e =>
    have hevent := decodeEvent_isEvent e
    rw [Except.ok.inj h] at hevent
    cases hevent

/-- Taking a word from a port touches neither flag nor code. -/
theorem faultStateKept_of_inputs {s t : State} {words : List PortWord}
    (h : FaultStateKept { s with inputs := words } t) : FaultStateKept s t := ⟨h.fault, h.err⟩

/-- Everything a step can do to the fault state: keep it, enter it with the first waiting word taken, or take a
`RESET`. -/
theorem step_faultState {s t : State} (h : step s = .next t) :
    FaultStateKept s t ∨
    (s.mode = .idle ∧ s.fault = false ∧
      ∃ code w left, s.inputs = w :: left ∧ t = faulted code { s with inputs := left }) ∨
    (t.fault = false ∧ ∃ rest, s.inputs = .command 0x0F000000#32 :: rest) := by
  rcases step_cases h with rfl | ⟨w, left, hm, hin, ⟨i, hd, hx⟩ | ⟨_, _, rfl⟩⟩ | ⟨e, left, hm, _, hx⟩
  · exact .inl ⟨rfl, rfl⟩
  · rcases exec_faultState hx with hkept | ⟨_, hf, code, ht⟩ | ⟨rfl, ht⟩
    · exact .inl (faultStateKept_of_inputs hkept)
    · exact .inr (.inl ⟨hm, hf, code, w, left, hin, ht⟩)
    · exact .inr (.inr ⟨ht, left, resetWord_of_decode hd ▸ hin⟩)
  · rcases raiseFault_faultState .illegal { s with inputs := left } with ⟨hf, hentry⟩ | hkept
    · exact .inr (.inl ⟨hm, hf, .illegal, w, left, hin, hentry⟩)
    · exact .inl (faultStateKept_of_inputs hkept)
  · rcases exec_faultState hx with hkept | ⟨hidle, _⟩ | ⟨hreset, _⟩
    · exact .inl (faultStateKept_of_inputs hkept)
    · exact absurd (hm.symm.trans hidle) (by decide)
    · exact absurd (hreset ▸ decodeEvent_isEvent e) (by decide)

/-- Settles O22: of the three things an instruction or a step can do to the fault state, only the entry sets `FAULT`,
and in a faulted block there is no entry. -/
theorem faultEntryIsPrecise : Obligations.FaultEntryIsPrecise := by
  refine ⟨fun i s t hf h ht => ?_, fun i s t hf hreset h => ?_, fun s t hf h ht => ?_, fun s t hf h => ?_⟩
  · rcases exec_faultState h with hkept | ⟨hm, _, hentry⟩ | ⟨_, hleft⟩
    · exact absurd (ht.symm.trans (hkept.fault.trans hf)) Bool.noConfusion
    · exact ⟨hm, hentry⟩
    · exact absurd (ht.symm.trans hleft) Bool.noConfusion
  · rcases exec_faultState h with ⟨hfault, herr⟩ | ⟨_, hfree, _⟩ | ⟨hi, _⟩
    · exact ⟨hfault.trans hf, herr⟩
    · exact absurd (hf.symm.trans hfree) Bool.noConfusion
    · exact absurd hi hreset
  · rcases step_faultState h with hkept | ⟨hm, _, hentry⟩ | ⟨hleft, _⟩
    · exact absurd (ht.symm.trans (hkept.fault.trans hf)) Bool.noConfusion
    · exact ⟨hm, hentry⟩
    · exact absurd (ht.symm.trans hleft) Bool.noConfusion
  · rcases step_faultState h with ⟨hfault, herr⟩ | ⟨_, hfree, _⟩ | ⟨_, hword⟩
    · exact .inl ⟨hfault.trans hf, herr⟩
    · exact absurd (hf.symm.trans hfree) Bool.noConfusion
    · exact .inr hword

/-! ### What a faulted block does -/

/-- A faulted block refuses a command that it does not serve, whatever its checks say (R170; log 7). -/
theorem exec_refused_of_unserved {i : Instr} {s : State} (hm : s.mode = .idle) (hf : s.fault = true)
    (hi : i.isEvent = false) (hserved : servedInFault i = false) : exec i s = .next (refused s) := by
  rw [exec_command i s hi, hserved, command_of_faulted _ _ _ hm hf]
  rfl

/-- A faulted block refuses a command that fails a check, served or not (R170). -/
theorem exec_refused_of_check {i : Instr} {s : State} {code : FaultCode} (hm : s.mode = .idle) (hf : s.fault = true)
    (hi : i.isEvent = false) (hc : checkOf s i = some code) : exec i s = .next (refused s) := by
  rw [exec_command i s hi, hc, command_of_check _ _ _ _ hm, raiseFault_eq_ite, if_pos hf]

/-- The commands that a faulted block serves (R170). -/
theorem servedInFault_eq_false {i : Instr} (hnop : i ≠ .nop) (hgetr : ∀ reg, i ≠ .getr reg) (hmrd : ∀ a, i ≠ .mrd a)
    (hreset : i ≠ .reset) : servedInFault i = false := by
  cases i with
  | nop => exact absurd rfl hnop
  | getr reg => exact absurd rfl (hgetr reg)
  | mrd a => exact absurd rfl (hmrd a)
  | reset => exact absurd rfl hreset
  | _ => rfl

/-- The read check names `BADREG` for an unassigned number (R162). -/
theorem checkRead_of_unassigned {reg : BitVec 8} (h : regOfNumber reg = none) : checkRead reg = some .badReg := by
  simp only [checkRead, h]

/-- Settles O23: the four served commands are performed when they pass their checks, and `RESET` overwrites the fault
state it finds; every other word is refused or, an event, dropped. -/
theorem faultedBlockServesReadsOnly : Obligations.FaultedBlockServesReadsOnly := by
  intro s hm hf
  have hreset : ∀ u : State, u.mode = .idle → exec .reset u = .next (effectOf .reset u) :=
    fun u hu => exec_of_served hu rfl rfl rfl
  refine ⟨exec_of_served hm rfl rfl rfl, fun _ _ hr => exec_getr hr hm,
    fun _ hr => exec_refused_of_check hm hf rfl (checkRead_of_unassigned hr), fun a => ?mrd,
    (hreset s hm).trans (hreset { s with fault := false, err := none } hm).symm, ⟨_, hreset s hm, rfl, rfl⟩,
    fun _ hnop hgetr hmrd hres hi =>
      exec_refused_of_unserved hm hf hi (servedInFault_eq_false hnop hgetr hmrd hres),
    fun w rest why hin hd => ?illegal, fun i => exec_dropped i s hm⟩
  case mrd =>
    split
    · next hin => exact exec_mrd hm hin
    · next hout => exact exec_refused_of_check hm hf rfl (checkAddress_of_outside (Nat.le_of_not_lt hout))
  case illegal => rw [step_of_illegal hm hin hd, raiseFault_eq_ite, if_pos hf]

/-! ### The register numbers -/

/-- In a ready block a command enters the fault state with a code exactly when its checks name the code (R168, R169). -/
theorem exec_eq_faulted_iff {i : Instr} {s : State} (h : Ready s) (hi : i.isEvent = false) (code : FaultCode) :
    exec i s = .next (faulted code s) ↔ checkOf s i = some code := by
  refine ⟨fun hx => ?_, exec_of_check h hi⟩
  cases hc : checkOf s i with
  | none =>
    have heffect := Host.Outcome.next.inj ((exec_of_ready h hi hc).symm.trans hx)
    have hfree := effectOf_faultFree h.2 hc
    rw [heffect] at hfree
    cases hfree
  | some raised =>
    have hentry := Host.Outcome.next.inj ((exec_of_check h hi hc).symm.trans hx)
    exact congrArg State.err hentry

/-- A row of a table answers nothing exactly when it does not apply and the rows after it answer nothing. -/
theorem ite_some_eq_none_iff {α : Type} {p : Prop} [Decidable p] {a : α} {b : Option α} :
    (if p then some a else b) = none ↔ ¬ p ∧ b = none := by
  by_cases hp : p <;> simp [hp]

/-- What a table answers is the answer of its first row or that of the rows after it. -/
theorem ite_some_eq_some {α : Type} {p : Prop} [Decidable p] {a r : α} {b : Option α}
    (h : (if p then some a else b) = some r) : (p ∧ a = r) ∨ b = some r := by
  split at h
  · next hp => exact .inl ⟨hp, Option.some.inj h⟩
  · exact .inr h

/-- The register map assigns the readable numbers and no other (R30, R162). -/
theorem regOfNumber_eq_none_iff (reg : BitVec 8) :
    regOfNumber reg = none ↔ 4 < reg.toNat ∧ (reg.toNat < 16 ∨ 22 < reg.toNat) := by
  simp only [regOfNumber, ite_some_eq_none_iff, BitVec.toNat_eq, BitVec.toNat_ofNat, and_true]
  omega

/-- The writable registers have the writable numbers: row by row of the register map (R30, R162). -/
theorem regWritable_iff {reg : BitVec 8} {r : Reg} (h : regOfNumber reg = some r) :
    regWritable r = true ↔ reg.toNat ≤ 4 ∨ reg.toNat = 16 := by
  iterate 12
    rcases ite_some_eq_some h with ⟨rfl, rfl⟩ | h
    · decide
  cases h

/-- The read check raises `BADREG` exactly for the unassigned numbers (R82, R162). -/
theorem checkRead_eq_badReg_iff (reg : BitVec 8) :
    checkRead reg = some .badReg ↔ 4 < reg.toNat ∧ (reg.toNat < 16 ∨ 22 < reg.toNat) := by
  rw [← regOfNumber_eq_none_iff]
  cases h : regOfNumber reg with
  | none => simp [checkRead_of_unassigned h]
  | some r => simp [checkRead_of_assigned h]

/-- The write check raises `BADREG` exactly for the numbers that are unassigned or read-only (R81, R162). -/
theorem checkWrite_eq_badReg_iff (reg : BitVec 8) :
    checkWrite reg = some .badReg ↔ 4 < reg.toNat ∧ reg.toNat ≠ 16 := by
  cases h : regOfNumber reg with
  | none =>
    have hnumber := (regOfNumber_eq_none_iff reg).mp h
    simp only [checkWrite, h, true_iff]
    omega
  | some r =>
    have hnumber := regWritable_iff h
    cases hw : regWritable r with
    | true =>
      have hlegal := hnumber.mp hw
      simp only [checkWrite_of_writable h hw, reduceCtorEq, false_iff]
      omega
    | false =>
      have hillegal := hnumber.not.mp (by simp [hw])
      simp only [checkWrite, h, hw, Bool.false_eq_true, if_false, true_iff]
      omega

/-- Settles O26: each command faults exactly when its check says so, and the checks are about the number alone. -/
theorem badRegisterNumbersFault : Obligations.BadRegisterNumbersFault :=
  fun _ reg v h =>
    ⟨((exec_eq_faulted_iff (i := .setr reg v) h rfl .badReg).trans (checkWrite_eq_badReg_iff reg)).symm,
      ((exec_eq_faulted_iff (i := .getr reg) h rfl .badReg).trans (checkRead_eq_badReg_iff reg)).symm⟩

/-! ### The empty cases -/

/-- A command past its checks whose effect is the OK response does nothing else (R168). -/
theorem exec_answers_of_ready {i : Instr} {s : State} (h : Ready s) (hi : i.isEvent = false)
    (hc : checkOf s i = none) (he : effectOf i s = answered 0#16 s) : exec i s = .next (answered 0#16 s) :=
  (exec_of_ready h hi hc).trans (congrArg _ he)

/-- `CRC.BUF` of no bits does nothing but answer (R93). -/
theorem effectOf_crcBuf_empty {s : State} (hlen : s.len = 0#16) : effectOf .crcBuf s = answered 0#16 s := by
  have hcrc : crcBuffer s s.srcb.toNat s.len.toNat s.crc = s.crc := by
    rw [hlen]
    rfl
  exact congrArg (fun c => answered 0#16 { s with crc := c }) hcrc

/-- Settles O37: in its empty case each command leaves before the range checks, and its effect is the response. -/
theorem emptyCasesChangeNothing : Obligations.EmptyCasesChangeNothing := by
  intro s h
  refine ⟨fun hlen => exec_answers_of_ready h rfl ?_ (effectOf_crcBuf_empty hlen),
    fun hlen => exec_answers_of_ready h rfl ?_ ?_,
    fun hskip => exec_answers_of_ready h rfl (if_pos hskip) (if_pos hskip)⟩
  all_goals exact if_pos (congrArg BitVec.toNat hlen)

/-! ### No step stops -/

/-- From a state that meets the invariant every instruction goes on: a command always does, an event because the
receive buffer lies in `M` (R163, R134). -/
theorem exec_total {s : State} (hs : s.Inv) (i : Instr) : ∃ t, exec i s = .next t := by
  cases hi : i.isEvent with
  | false =>
    rw [exec_command i s hi]
    exact command_next ..
  | true =>
    obtain ⟨t, ht, _⟩ := event_next hs i hi
    exact ⟨t, ht⟩

/-- Taking a word changes the ports alone (R131). -/
theorem nextWord_eq {s t : State} {w : PortWord} (h : nextWord s = some (w, t)) :
    ∃ left, t = { s with inputs := left } := by
  rcases mode_idle_or_rx s with hm | hm
  · cases hin : s.inputs with
    | nil =>
      rw [nextWord_of_idle_empty s hm hin] at h
      cases h
    | cons x left =>
      rw [nextWord_of_idle s x left hm hin] at h
      cases h
      exact ⟨left, rfl⟩
  · rw [nextWord_of_rx s hm, Option.map_eq_some_iff] at h
    obtain ⟨⟨_, left⟩, _, ht⟩ := h
    cases ht
    exact ⟨left, rfl⟩

/-- Settles O13: waiting and rejecting a word go on by definition, and an instruction is performed in a state that
differs in its ports alone and so meets the invariant too. -/
theorem noStepStops : Obligations.NoStepStops := by
  intro s hs
  cases hn : nextWord s with
  | none => exact ⟨s, step_of_nothing hn⟩
  | some taken =>
    obtain ⟨w, u⟩ := taken
    obtain ⟨left, rfl⟩ := nextWord_eq hn
    cases hd : decode w with
    | ok i =>
      rw [step_of_nextWord hn hd]
      exact exec_total (inv_inputs hs left) i
    | error why => exact ⟨rejectWord why { s with inputs := left }, by simp only [step, hn, hd]⟩

end Sys2Proof.Machine
end

section
/-! PROOFS. The statements about reset and hazards (70_reset_and_hazards.md): the state after power-on reset, the three
reasons for which a receive cycle ends, and the progress the block makes while the environment keeps its deadline. A
cycle's end reason is followed through the operations of the decoder by one predicate, `EndExplained`; progress rests on
`step_takes_word`, each step of a run with the deadline kept takes one word. -/

namespace Sys2Proof.Machine

open Sys2Proof.Claims

/-! ### Power-on reset -/

/-- Settles O20: the registers are read off `State.reset`, and the two views are computed from them. -/
theorem powerOnResetValues : Obligations.PowerOnResetValues :=
  ⟨rfl, rfl, rfl, rfl, rfl, rfl, rfl, rfl, rfl, rfl, rfl, rfl, rfl, rfl, rfl, rfl, rfl, rfl, rfl, by decide, by decide⟩

/-- The reference values meet the constraint column of R6's table. -/
theorem reference_valid : Config.reference.Valid := by decide

/-- Settles O12: `M` lists nothing, every count is 0, and no cycle runs. -/
theorem resetMeetsInvariant : Obligations.ResetMeetsInvariant := by
  have hidle : ¬ State.reset.mode = .rx := fun h => Mode.noConfusion h
  exact {
    cfgValid := reference_valid
    memCanonical := rfl
    memInside := rfl
    errFault := rfl
    lineLow := rfl
    rxlenBound := Nat.zero_le _
    noiseBound := Nat.zero_le _
    rxFaultFree := fun h => absurd h hidle
    rxBuffer := fun h => absurd h hidle
    rxNotFull := fun h => absurd h hidle
    rxNoise := fun h => absurd h hidle
    rxNotEnded := fun h => absurd h hidle
    rxPadding := fun h => absurd h hidle }

/-! ### The reasons for which a cycle ends -/

/-- A block in IDLE has one of R187's three reasons in `RXEND`, with the count that gave the reason at its limit. It
holds in a running cycle, and the decoder keeps it. -/
def EndExplained (s : State) : Prop :=
  s.mode = .idle →
    s.rxend = .timeout ∨ (s.rxend = .noise ∧ s.noise.toNat = s.cfg.noiseMax + 1) ∨
      (s.rxend = .full ∧ s.rxlen.toNat = s.cfg.rxCapBits)

/-- A running cycle has nothing to explain. -/
theorem endExplained_of_rx {s : State} (hm : s.mode = .rx) : EndExplained s :=
  fun hidle => absurd (hm.symm.trans hidle) (by decide)

/-- `PutRaw` ends the cycle with the buffer full, and leaves an ended one alone (R143). -/
theorem endExplained_putRaw {bit : Bool} {s t : State} (hs : EndExplained s) (h : putRaw bit s = .ok t) :
    EndExplained t := by
  rcases putRaw_cases h with ⟨_, rfl⟩ | ⟨_, _, ⟨hfull, rfl⟩ | ⟨_, rfl⟩⟩
  case inl => exact hs
  case inr.inl =>
    refine fun _ => .inr (.inr ⟨endCycle_rxend .full _, ?_⟩)
    rw [endCycle_rxlen, endCycle_cfg, storeRaw_rxlen, storeRaw_cfg, hfull]
  case inr.inr hm _ _ => exact endExplained_of_rx (by rw [storeRaw_mode, hm])

/-- `PutRaw` twice: an end by the first store is explained by the first (R143). -/
theorem endExplained_putRawTwo {bit1 bit2 : Bool} {s t : State} (hs : EndExplained s)
    (h : putRawTwo bit1 bit2 s = .ok t) : EndExplained t := by
  simp only [putRawTwo] at h
  split at h
  · cases h
  · next u hu => exact endExplained_putRaw (endExplained_putRaw hs hu) h

/-- Class START of a running cycle (R137, R142). -/
theorem endExplained_onStart {s t : State} (hm : s.mode = .rx) (h : onStart s = .ok t) : EndExplained t := by
  have hrestart : EndExplained (restartFrame s) := endExplained_of_rx hm
  simp only [onStart] at h
  split at h
  case h_1 => cases h; exact hrestart
  all_goals exact endExplained_putRaw hrestart h

/-- Class H3: toggling `SKIP` explains nothing and needs no explanation (R140). -/
theorem endExplained_onH3 {s t : State} (hs : EndExplained s) (h : onH3 s = .ok t) : EndExplained t := by
  simp only [onH3] at h
  split at h
  · cases h
  · next u hu =>
    cases h
    have hstore : EndExplained u := by
      split at hu
      · exact endExplained_putRaw hs hu
      · exact endExplained_putRawTwo hs hu
    exact hstore

/-- Class NOISE: the count passes `NOISE_MAX` by one, for a running cycle has not passed it (R141). -/
theorem endExplained_onNoise {s : State} (hs : s.Inv) (hm : s.mode = .rx) : EndExplained (onNoise s) := by
  have hcount := noise_succ hs hm
  have hlimit := hs.rxNoise hm
  rw [onNoise_eq_ite]
  split
  · exact fun _ => .inr (.inl ⟨rfl, show (s.noise + 1#16).toNat = s.cfg.noiseMax + 1 by omega⟩)
  · exact endExplained_of_rx hm

/-- An edge of a running cycle explains an end in every class (R134). -/
theorem endExplained_onEdge {n : Word} {s t : State} (hs : s.Inv) (hm : s.mode = .rx) (h : onEdge n s = .ok t) :
    EndExplained t := by
  have hrx := endExplained_of_rx hm
  cases hc : classify s.cfg s.rxsch n.toNat <;> simp only [onEdge, hc] at h
  case start => exact endExplained_onStart hm h
  case h4 => exact endExplained_putRawTwo hrx h
  case h3 => exact endExplained_onH3 hrx h
  case noise => cases h; exact endExplained_onNoise hs hm
  all_goals exact endExplained_putRaw hrx h

/-- An instruction performed in a running cycle explains an end: only `TIMEOUT` and an edge do anything (R131). -/
theorem endExplained_exec {i : Instr} {s t : State} (hs : s.Inv) (hm : s.mode = .rx) (h : exec i s = .next t) :
    EndExplained t := by
  rcases exec_cases h with rfl | ⟨hidle, _⟩ | ⟨hidle, _⟩ | ⟨hidle, _⟩ | ⟨_, _, rfl⟩ | ⟨_, n, _, hn⟩
  case inr.inr.inr.inr.inl => exact fun _ => .inl (endCycle_rxend .timeout s)
  case inr.inr.inr.inr.inr => exact endExplained_onEdge hs hm hn
  case inl => exact endExplained_of_rx hm
  all_goals exact absurd (hm.symm.trans hidle) (by decide)

/-- Settles O55: in a running cycle a step waits or performs an event, which explains the end it brings; the limits
are those of `s`, for no step changes the configuration. -/
theorem cycleEndsForThreeReasons : Obligations.CycleEndsForThreeReasons := by
  intro s t hs hm h hidle
  have hexplained : EndExplained t := by
    rcases step_cases h with rfl | ⟨_, _, hm', _⟩ | ⟨e, left, _, _, hx⟩
    · exact endExplained_of_rx hm
    · exact absurd (hm.symm.trans hm') (by decide)
    · exact endExplained_exec (inv_inputs hs left) hm hx
  rw [← (grows_step h).cfg]
  exact hexplained hidle

/-! ### Progress under the deadline -/

/-- A step that takes a word leaves the words that taking it left, performed or rejected. -/
theorem inputs_step_of_nextWord {s t u : State} {w : PortWord} (hn : nextWord s = some (w, u))
    (h : step s = .next t) : t.inputs = u.inputs := by
  cases hd : decode w with
  | ok i =>
    rw [step_of_nextWord hn hd] at h
    exact inputs_exec h
  | error why =>
    simp only [step, hn, hd] at h
    cases h
    cases why <;> exact inputs_raiseFault .illegal u

/-- With the deadline kept a word that waits finds its port open, or an event that does: in IDLE the first word, in RX
the event that the words which end the cycle hold (R131, R187). -/
theorem nextWord_of_deadlineKept {s : State} (hd : DeadlineKept s) (hw : s.inputs ≠ []) :
    ∃ w u, nextWord s = some (w, u) ∧ u.inputs.length + 1 = s.inputs.length := by
  rcases mode_idle_or_rx s with hm | hm
  · obtain ⟨w, left, hin⟩ := List.exists_cons_of_ne_nil hw
    exact ⟨w, { s with inputs := left }, nextWord_of_idle s w left hm hin, by rw [hin, List.length_cons]⟩
  · obtain ⟨e, left, htake, hlen⟩ := takeEvent_of_cycleEnds hm s.inputs (DeadlineKept_now hd hm)
    exact ⟨.event e, { s with inputs := left }, by rw [nextWord_of_rx s hm, htake]; rfl, hlen⟩

/-- With the deadline kept and a word waiting, a step takes exactly one word. -/
theorem step_takes_word {s t : State} (hd : DeadlineKept s) (hw : s.inputs ≠ []) (h : step s = .next t) :
    t.inputs.length + 1 = s.inputs.length := by
  obtain ⟨w, u, hn, hlen⟩ := nextWord_of_deadlineKept hd hw
  rw [inputs_step_of_nextWord hn h]
  exact hlen

/-- With the deadline kept and no word waiting, no cycle runs. -/
theorem idle_of_deadlineKept {s : State} (hd : DeadlineKept s) (hin : s.inputs = []) : s.mode = .idle := by
  rcases mode_idle_or_rx s with hm | hm
  · exact hm
  · have hends := DeadlineKept_now hd hm
    rw [hin] at hends
    exact of_decide_eq_true hends

/-- With the deadline kept, as many steps as words wait take them all and end in IDLE. The last clause carries the count
of O14 along the run: what is due and what waits add up to the same number. -/
theorem run_takes_every_word (n : Nat) : ∀ {s : State}, s.Inv → DeadlineKept s → s.inputs.length = n →
    ∃ t, runSteps n s = .next t ∧ t.mode = .idle ∧ t.inputs = [] ∧
      answersDue t + commandCount t.inputs = answersDue s + commandCount s.inputs := by
  induction n with
  | zero =>
    intro s _ hd hlen
    have hin := List.eq_nil_of_length_eq_zero hlen
    exact ⟨s, rfl, idle_of_deadlineKept hd hin, hin, rfl⟩
  | succ k ih =>
    intro s hs hd hlen
    obtain ⟨u, hu⟩ := noStepStops s hs
    have htaken := step_takes_word hd (List.ne_nil_of_length_eq_add_one hlen) hu
    obtain ⟨t, hrun, hidle, hin, hcount⟩ :=
      ih (everyStepKeepsInvariant s u hs hu) (DeadlineKept_step hd hu) (by omega)
    exact ⟨t, (runSteps_succ hu k).trans hrun, hidle, hin, hcount.trans (everyCommandIsAnsweredOnce s u hu)⟩

/-- An event that goes on ends the cycle at once, or leaves that to the words after it. -/
theorem cycleEnds_event {s t : State} {e : EventWord} (h : exec (decodeEvent e) s = .next t) (rest : List PortWord) :
    cycleEnds s (.event e :: rest) = (decide (t.mode = .idle) || cycleEnds t rest) := by
  simp only [cycleEnds, h]

/-- After `TIMEOUT` no cycle runs (R144). -/
theorem exec_timeout_idle {s t : State} (h : exec .timeout s = .next t) : t.mode = .idle := by
  rcases mode_idle_or_rx s with hm | hm
  · rw [(timeoutEndsCycle s).2 hm] at h
    cases h
    exact hm
  · rw [(timeoutEndsCycle s).1 hm] at h
    cases h
    rfl

/-- A stream that holds a `TIMEOUT` ends the running cycle, whatever events come before it (R187). -/
theorem cycleEnds_of_timeout {e : EventWord} (he : decodeEvent e = .timeout) (words : List PortWord) :
    ∀ {s : State}, s.Inv → .event e ∈ words → cycleEnds s words = true := by
  induction words with
  | nil => exact fun _ hmem => absurd hmem List.not_mem_nil
  | cons w rest ih =>
    intro s hs hmem
    cases w with
    | command c => exact ih hs ((List.mem_cons.mp hmem).resolve_left PortWord.noConfusion)
    | event x =>
      obtain ⟨t, ht, hinv⟩ := event_next hs (decodeEvent x) (decodeEvent_isEvent x)
      rw [cycleEnds_event ht, Bool.or_eq_true, decide_eq_true_iff]
      rcases List.mem_cons.mp hmem with heq | hrest
      · cases heq
        exact .inl (exec_timeout_idle (he ▸ ht))
      · exact .inr (ih hinv hrest)

/-- Settles O56: the run takes every word, and where it ends nothing is owed and no command waits, so that the count it
carries is that of the responses alone. -/
theorem deadlineGivesProgress : Obligations.DeadlineGivesProgress := by
  refine ⟨fun s hs hd => ?_, fun s words e hs hmem he => cycleEnds_of_timeout he words hs hmem⟩
  obtain ⟨t, hrun, hidle, hin, hcount⟩ := run_takes_every_word s.inputs.length hs hd rfl
  refine ⟨t, hrun, hidle, hin, ?_⟩
  rw [hin, answersDue_of_idle hidle] at hcount
  exact hcount

end Sys2Proof.Machine
end
